-- ==== Sys2Proof/Word.lean ====
section
/-! DEFINITION. The words and the small closed types of the MACE3/MACE6 decoder (spec 00_scope.md R8, 10_state.md).
Bit vectors stand only for what the spec treats as bits; names are inductive types. -/

namespace Sys2Proof

/-- `u8` (R8): one byte of a byte space. -/
abbrev Byte := BitVec 8
/-- `i16` (R8): one coefficient, signed two's complement. -/
abbrev I16 := BitVec 16
/-- `i32` (R8): every value the datapath computes (R110), signed two's complement; `+`, `-`, `*` wrap (R112). -/
abbrev I32 := BitVec 32
/-- `u64` (R8): the two byte totals (R34). -/
abbrev U64 := BitVec 64

/-- The codec variant, configuration input `CODEC` (R5). -/
inductive Codec where
  | mace6
  | mace3
  deriving DecidableEq, Repr

/-- The channel count a session works with, `CHANNELS` as sampled by a reset (R5). -/
inductive Channels where
  | mono
  | stereo
  deriving DecidableEq, Repr

/-- `CHANNELS` as a number (R5): the channel count. -/
def Channels.number : Channels → Nat
  | .mono => 1
  | .stereo => 2

/-- Which Predictor State: `PS[1]` is the left one, `PS[2]` the right one (R26). -/
inductive Chan where
  | left
  | right
  deriving DecidableEq, Repr

/-- The channel index of a Predictor State, 1-based (R26, R149). -/
def Chan.number : Chan → Nat
  | .left => 1
  | .right => 2

/-- The order in which the three codes of a MACE3 byte are processed, parameter `SYM_ORDER3` (R82). -/
inductive SymOrder where
  | msbFirst
  | lsbFirst
  deriving DecidableEq, Repr

/-- The states of the Streaming Adapter, `SS.state` (R29). -/
inductive AdapterState where
  | init
  | fillingCache
  | processCache
  | cacheFull
  deriving DecidableEq, Repr

/-- The status a PROCESS reports (R210). -/
inductive Status where
  | ok
  | dataStarvation
  | bufferTooSmall
  deriving DecidableEq, Repr

/-- The byte spaces (R50): IN, OUT, ICACHE, OCACHE, and the two scratch buffers TL and TR of R175. -/
inductive SpaceName where
  | input
  | output
  | icache
  | ocache
  | scratchL
  | scratchR
  deriving DecidableEq, Repr

/-- The spaces a block decode reads (R51). -/
inductive Src where
  | input
  | icache
  deriving DecidableEq, Repr

/-- The spaces a packet or block decode writes (R51). -/
inductive Dst where
  | output
  | ocache
  | scratchL
  | scratchR
  deriving DecidableEq, Repr

/-- A duty of the host that it breaks while a command is in progress (R224). -/
inductive Breach where
  /-- A second command is issued to the session before this one has returned (R193, R244). -/
  | commandOverlap
  /-- IN and OUT overlap (R60, R245). -/
  | buffersOverlap
  /-- The host writes IN during a PROCESS (R66, R245). -/
  | inputWritten
  /-- The host reads or writes OUT during a PROCESS (R66, R245). -/
  | outputTouched
  deriving DecidableEq, Repr

/-- The space a source operand names. -/
def Src.space : Src → SpaceName
  | .input => .input
  | .icache => .icache

/-- The space a destination operand names. -/
def Dst.space : Dst → SpaceName
  | .output => .output
  | .ocache => .ocache
  | .scratchL => .scratchL
  | .scratchR => .scratchR

end Sys2Proof
end

