-- ==== Sys2Proof/Machine/Arith.lean ====
section
/-! DEFINITION. The integer laws of 40_coefficient_step.md R110 to R115 that `BitVec` does not already state: widening,
arithmetic shift, clamps. Addition, subtraction and multiplication are `BitVec`'s own, modulo 2^32 (R112), and so are
XOR and AND (R115). -/

namespace Sys2Proof.Machine

open Sys2Proof

/-- `sext_32(t)` (R111). -/
def sext (t : I16) : I32 := t.signExtend 32

/-- `asr(v, n)`: the floor of `v / 2^n` (R113; the spec's decision D5, log 14). -/
def asr (v : I32) (n : Nat) : I32 := v.sshiftRight n

/-- `min(a, b)` on signed values (R114). -/
def smin (a b : I32) : I32 := if a.toInt ≤ b.toInt then a else b

/-- `max(a, b)` on signed values (R114). -/
def smax (a b : I32) : I32 := if a.toInt ≤ b.toInt then b else a

/-- The upper clamp bound `0x7FFF` (R7, R114). -/
def clampHi : I32 := 32767#32

/-- The lower clamp bound `-0x7FFF` (R7, R114). -/
def clampLo : I32 := -32767#32

/-- `clamp(v, lo, hi)` (R114). -/
def clampTo (lo hi v : I32) : I32 :=
  if v.toInt < lo.toInt then lo else if hi.toInt < v.toInt then hi else v

/-- `clamp(v, -0x7FFF, 0x7FFF)` (R114). -/
def clamp (v : I32) : I32 := clampTo clampLo clampHi v

end Sys2Proof.Machine
end

