-- ==== Sys2Proof/Machine/Flags.lean ====
section
/-! DEFINITION. The block has no flags (10_state.md R36). What takes their place: the direction test of a Coefficient
Step with the slope it selects (40_coefficient_step.md R118 steps 4 and 6), and the status of a PROCESS
(42_streaming_adapter.md R181). -/

namespace Sys2Proof.Machine

open Sys2Proof

/-- `dir[15] = 1`, the direction changed: bit 15 of `delta XOR last_step`, not the sign of the `i32` (R115). -/
def directionChanged (delta lastStep : I32) : Bool := (delta ^^^ lastStep).getLsbD 15

/-- The slope after a step (R118 step 6, R124). -/
def nextSlope (changed : Bool) (slope : I32) : I32 :=
  if changed then smax (slope - 314#32) clampLo else smin (slope + 506#32) clampHi

/-- The status of a PROCESS (R181). -/
def statusOf (consumed ilen produced olen : Nat) : Status :=
  if produced < olen then .dataStarvation
  else if consumed < ilen then .bufferTooSmall
  else .ok

/-- The numbers of the status codes (R89). -/
def statusCode : Status → Nat
  | .ok => 0
  | .dataStarvation => 1
  | .bufferTooSmall => 2

end Sys2Proof.Machine
end

