-- ==== Sys2Proof/Config.lean ====
section
/-! DEFINITION. What an implementation fixes (spec 00_scope.md R5 to R7): the coefficient tables, whose values no
source gives, the parameters with a default, and the configuration inputs' levels at power-on. -/

namespace Sys2Proof

/-- The four coefficient tables (R6, R38), each entry a signed 16-bit constant. -/
structure Tables where
  t4s : Vector I16 4
  t4b : Vector I16 512
  t8s : Vector I16 8
  t8b : Vector I16 1024
  deriving DecidableEq, Repr, Inhabited

/-- Parameter `TABLES` (R6): the contents of the ROM. It has no body: no source gives one of the 1548 values, so no
proof can lean on any (log 3). -/
opaque Config.tables : Tables

/-- Parameter `SYM_ORDER3` at its default (R82, the spec's decision D12; log 4). -/
def Config.symOrder3 : SymOrder := .msbFirst

/-- `CHUNK_PKTS` (R7, R176): packets per pass of the stereo temporary buffers. -/
def Config.chunkPkts : Nat := 512

/-- The level of the configuration input `CODEC` at power-on. DESIGN CHOICE (log 5): unsafe, the host decides it. -/
def Config.powerOnCodec : Codec := .mace6

/-- The level of the configuration input `CHANNELS` at power-on. DESIGN CHOICE (log 5): unsafe, the host decides it. -/
def Config.powerOnChannels : Channels := .mono

end Sys2Proof
end

