-- ==== Sys2Proof/Syntax.lean ====
section
/-! DEFINITION. The operations of spec/opcode_table.json, one constructor per row, with the operands no code carries. -/

namespace Sys2Proof

/-- The operands of one packet operation beside its bytes (R145, R148): the channel whose Predictor State is used, the
history or carry pair, the destination space and offset. -/
structure PktOps where
  ch : Chan
  s1 : I32
  s2 : I32
  dst : Dst
  d : Nat
  deriving DecidableEq, Repr

/-- The operands of a block decode (R149): source space and base offset, destination space and base offset, packet
count, the Predictor State used, channel count and 1-based channel index. -/
structure BlockOps where
  src : Src
  b : Nat
  dst : Dst
  d : Nat
  n : Nat
  ch : Chan
  cc : Nat
  ci : Nat
  deriving DecidableEq, Repr

/-- The ten operations (R10, R91). `pkt6`, `pkt3`: the fields of the packet's bytes in the order of R80 and R81. -/
inductive Instr where
  | pkt6 (a : BitVec 3) (b : BitVec 2) (c : BitVec 3) (o : PktOps)
  | pkt3 (a : BitVec 3) (b : BitVec 2) (c d : BitVec 3) (e : BitVec 2) (f : BitVec 3) (o : PktOps)
  | step3 (code : BitVec 3) (ch : Chan)
  | step2 (code : BitVec 2) (ch : Chan)
  | block6 (o : BlockOps)
  | block3 (o : BlockOps)
  | nop
  | reset
  | process
  | totals
  deriving DecidableEq, Repr

end Sys2Proof
end

