-- ==== Sys2Proof/WellFormed.lean ====
section
/-! DEFINITION. Which terms of Instr are operations within the contract, as far as the term alone shows it. The codes
are bounded by their types (R83) and the spaces by theirs (R51); what remains is the channel index of a block decode,
and that its Predictor State is that channel's (R149). Whether the bytes are there and the destination has room depends on the state and is checked by the meaning. -/

namespace Sys2Proof

/-- `cc >= 1`, `1 <= ci <= cc`, and the Predictor State is that of channel `ci` (R149). -/
def BlockOps.wellFormed (o : BlockOps) : Bool :=
  decide (1 ≤ o.cc) && decide (1 ≤ o.ci) && decide (o.ci ≤ o.cc) && decide (o.ch.number = o.ci)

/-- The check on an operation. -/
def Instr.wellFormed : Instr → Bool
  | .pkt6 _ _ _ _ => true
  | .pkt3 _ _ _ _ _ _ _ => true
  | .step3 _ _ => true
  | .step2 _ _ => true
  | .block6 o => o.wellFormed
  | .block3 o => o.wellFormed
  | .nop => true
  | .reset => true
  | .process => true
  | .totals => true

end Sys2Proof
end

