-- ==== Sys2Proof/Decode.lean ====
section
/-! DEFINITION. Decoding (spec 30_encoding.md). A request is what stands at the port that issues an operation: the
coded word, as bytes, beside the operands that no code carries. Which port it is selects the table row, as the spec says
(the command port for the host's commands, R88; the codec for a packet; the field's width for a symbol, R83). -/

namespace Sys2Proof

/-- The three codes of one packet byte (R80). -/
structure Fields where
  a : BitVec 3
  b : BitVec 2
  c : BitVec 3
  deriving DecidableEq, Repr

/-- Why a word is no instruction. -/
inductive Reject where
  /-- Fewer bytes than the operation's word has. -/
  | wordTooShort
  /-- More bytes than the operation's word has. -/
  | wordTooLong
  /-- A command byte with a bit set above the 2-bit `cmd` (R88). -/
  | commandBitsAboveCode
  /-- A symbol byte with a bit set above its code (R83, U9). -/
  | codeTooWide
  deriving DecidableEq, Repr

/-- What stands at an issuing port. The host's port carries `command`; the block itself issues the others (R10). -/
inductive Request where
  | command (word : List Byte)
  | symbol3 (word : List Byte) (ch : Chan)
  | symbol2 (word : List Byte) (ch : Chan)
  | packet6 (word : List Byte) (o : PktOps)
  | packet3 (word : List Byte) (o : PktOps)
  | block6 (o : BlockOps)
  | block3 (o : BlockOps)
  deriving DecidableEq, Repr

/-- The fields of a packet byte: bits 7:5, 4:3, 2:0 (R80, R81). -/
def splitByte (x : Byte) : Fields :=
  { a := x.extractLsb' 5 3, b := x.extractLsb' 3 2, c := x.extractLsb' 0 3 }

/-- The byte `a*32 + b*8 + c` (R90). -/
def joinByte (f : Fields) : Byte := f.a ++ f.b ++ f.c

/-- One MACE6 packet off the front of a stream (R80, R85), and the rest of it. -/
def decodePacket6 : List Byte → Except Reject (Fields × List Byte)
  | [] => .error .wordTooShort
  | x :: rest => .ok (splitByte x, rest)

/-- One MACE3 packet off the front of a stream, lower offset first (R81, R53), and the rest of it. -/
def decodePacket3 : List Byte → Except Reject ((Fields × Fields) × List Byte)
  | x :: y :: rest => .ok ((splitByte x, splitByte y), rest)
  | _ => .error .wordTooShort

/-- The command of a 2-bit `cmd` code (R88). -/
def commandOfCode (code : BitVec 2) : Instr :=
  if code = 0b00#2 then .nop
  else if code = 0b01#2 then .reset
  else if code = 0b10#2 then .process
  else .totals

/-- A word of one byte, its low `w` bits the code and its other bits zero. -/
def codeOfWord (w : Nat) (tooWide : Reject) : List Byte → Except Reject (BitVec w)
  | [] => .error .wordTooShort
  | [x] => if x.toNat < 2 ^ w then .ok (BitVec.ofNat w x.toNat) else .error tooWide
  | _ :: _ :: _ => .error .wordTooLong

/-- The operation a request stands for; total, with a named reason where there is none. -/
def decode : Request → Except Reject Instr
  | .command word =>
    match codeOfWord 2 .commandBitsAboveCode word with
    | .ok code => .ok (commandOfCode code)
    | .error r => .error r
  | .symbol3 word ch =>
    match codeOfWord 3 .codeTooWide word with
    | .ok code => .ok (.step3 code ch)
    | .error r => .error r
  | .symbol2 word ch =>
    match codeOfWord 2 .codeTooWide word with
    | .ok code => .ok (.step2 code ch)
    | .error r => .error r
  | .packet6 word o =>
    match decodePacket6 word with
    | .ok (f, []) => .ok (.pkt6 f.a f.b f.c o)
    | .ok (_, _ :: _) => .error .wordTooLong
    | .error r => .error r
  | .packet3 word o =>
    match decodePacket3 word with
    | .ok ((f, g), []) => .ok (.pkt3 f.a f.b f.c g.a g.b g.c o)
    | .ok (_, _ :: _) => .error .wordTooLong
    | .error r => .error r
  | .block6 o => .ok (.block6 o)
  | .block3 o => .ok (.block3 o)

/-- The request an operation is issued by: its word from the same encoding rules (R80, R81, R83, R88). -/
def encode : Instr → Request
  | .pkt6 a b c o => .packet6 [joinByte ⟨a, b, c⟩] o
  | .pkt3 a b c d e f o => .packet3 [joinByte ⟨a, b, c⟩, joinByte ⟨d, e, f⟩] o
  | .step3 code ch => .symbol3 [code.zeroExtend 8] ch
  | .step2 code ch => .symbol2 [code.zeroExtend 8] ch
  | .block6 o => .block6 o
  | .block3 o => .block3 o
  | .nop => .command [0x00#8]
  | .reset => .command [0x01#8]
  | .process => .command [0x02#8]
  | .totals => .command [0x03#8]

/-- Whether the request stands at the host's command port; the block itself issues the others (R10). -/
def Request.isCommand : Request → Bool
  | .command _ => true
  | .symbol3 _ _ => false
  | .symbol2 _ _ => false
  | .packet6 _ _ => false
  | .packet3 _ _ => false
  | .block6 _ => false
  | .block3 _ => false

/-- The coded bytes of a request; a block operation has none (R91). -/
def Request.word : Request → List Byte
  | .command w => w
  | .symbol3 w _ => w
  | .symbol2 w _ => w
  | .packet6 w _ => w
  | .packet3 w _ => w
  | .block6 _ => []
  | .block3 _ => []

/-- The operands that a bare packet word is given (log 11): the left channel, an empty history, the output cache. -/
def bareOperands : PktOps := { ch := .left, s1 := 0, s2 := 0, dst := .ocache, d := 0 }

/-- The request for a bare table word (log 11): one byte is a command where its bits above the 2-bit code are zero and
a MACE6 packet otherwise; two bytes are a MACE3 packet, the first byte the least significant. -/
def tableRequest (nbits w : Nat) : Option Request :=
  if nbits = 0 then none
  else if nbits ≤ 8 then
    if w < 4 then some (.command [BitVec.ofNat 8 w])
    else if w < 256 then some (.packet6 [BitVec.ofNat 8 w] bareOperands)
    else none
  else if nbits ≤ 16 then
    if w < 65536 then some (.packet3 [BitVec.ofNat 8 w, BitVec.ofNat 8 (w / 256)] bareOperands)
    else none
  else none

/-- The operation this decoder reads from a bare table word. -/
def decodeTableWord (nbits w : Nat) : Option Instr :=
  match tableRequest nbits w with
  | none => none
  | some r =>
    match decode r with
    | .ok i => some i
    | .error _ => none

end Sys2Proof
end

