-- ==== Sys2Proof/Machine/Operands.lean ====
section
/-! DEFINITION. Operand forms: the symbols of a packet (30_encoding.md R80 to R84), the frame sizes (42_streaming_adapter.md
R170) and the addressing of block decodes (20_memory.md R55 to R58). -/

namespace Sys2Proof.Machine

open Sys2Proof

/-- One symbol: its field's width selects STEP3 or STEP2 (R83). -/
inductive Symbol where
  | three (code : BitVec 3)
  | two (code : BitVec 2)
  deriving DecidableEq, Repr

/-- The three symbols of a packet byte, most significant field first (R80, R81). -/
def byteSymbols (x : Byte) : List Symbol :=
  let f := splitByte x
  [.three f.a, .two f.b, .three f.c]

/-- The order in which a codec takes a byte's three symbols (R80, R82). -/
def orderedSymbols (codec : Codec) (order : SymOrder) (x : Byte) : List Symbol :=
  match codec, order with
  | .mace6, _ => byteSymbols x
  | .mace3, .msbFirst => byteSymbols x
  | .mace3, .lsbFirst => (byteSymbols x).reverse

/-- Bytes of one packet (R80, R81). -/
def packetBytes : Codec → Nat
  | .mace6 => 1
  | .mace3 => 2

/-- Output bytes of one packet (R80, R81). -/
def samplesPerPacket : Nat := 6

/-- `Gin`, input bytes of one frame (R170). -/
def gin (codec : Codec) (chs : Channels) : Nat := packetBytes codec * chs.number

/-- `Gout`, output bytes of one frame (R170). -/
def gout (chs : Channels) : Nat := samplesPerPacket * chs.number

/-- The offset of packet `p` of channel `ci` of `cc` in a source based at `b` (R55, R56). -/
def packetOffset (codec : Codec) (b cc ci p : Nat) : Nat := b + packetBytes codec * ((ci - 1) + p * cc)

/-- The offset just past the last byte that a block decode of `n` packets reads (R55, R56); 0 where it reads none. -/
def sourceEnd (codec : Codec) (b cc ci n : Nat) : Nat :=
  if n = 0 then 0 else packetOffset codec b cc ci (n - 1) + packetBytes codec

/-- The 8-way big-table index `(asr(prev, 1) AND 0x3F8) + code` (R84, R118). -/
def bigIndex3 (prev : I32) (code : BitVec 3) : I32 := (asr prev 1 &&& 0x3F8#32) + code.zeroExtend 32

/-- The 4-way big-table index `(asr(prev, 2) AND 0x1FC) + code` (R84, R118). -/
def bigIndex2 (prev : I32) (code : BitVec 2) : I32 := (asr prev 2 &&& 0x1FC#32) + code.zeroExtend 32

/-- No 8-way read is out of range (R84). -/
theorem bigIndex3_lt (prev : I32) (code : BitVec 3) : (bigIndex3 prev code).toNat < 1024 := by
  have h1 : (asr prev 1 &&& 0x3F8#32).toNat ≤ 1016 := by
    rw [BitVec.toNat_and]; exact Nat.and_le_right
  have h2 : (code.zeroExtend 32).toNat < 8 := by
    have := code.isLt
    simp only [BitVec.truncate_eq_setWidth, BitVec.toNat_setWidth]; omega
  simp only [bigIndex3, BitVec.toNat_add]; omega

/-- No 4-way read is out of range (R84). -/
theorem bigIndex2_lt (prev : I32) (code : BitVec 2) : (bigIndex2 prev code).toNat < 512 := by
  have h1 : (asr prev 2 &&& 0x1FC#32).toNat ≤ 508 := by
    rw [BitVec.toNat_and]; exact Nat.and_le_right
  have h2 : (code.zeroExtend 32).toNat < 4 := by
    have := code.isLt
    simp only [BitVec.truncate_eq_setWidth, BitVec.toNat_setWidth]; omega
  simp only [bigIndex2, BitVec.toNat_add]; omega

/-- `stereo_interleave` (R58): left first, the spec's decision D14 (log 17). -/
def interleave : List Byte → List Byte → List Byte
  | l :: ls, r :: rs => l :: r :: interleave ls rs
  | _, _ => []

end Sys2Proof.Machine
end

