-- ==== Sys2Proof/Machine/State.lean ====
section
/-! DEFINITION. The state of one decoder instance (spec 10_state.md), as plain data, its reasons to stop, and its reset
value (10_state.md R40). -/

namespace Sys2Proof.Machine

open Sys2Proof

/-- A Predictor State (R20): six `i32` fields. -/
structure Predictor where
  tableIndex : I32
  lastStep : I32
  lastAmplitude : I32
  lastSlope : I32
  sample1 : I32
  sample2 : I32
  deriving DecidableEq, Repr

/-- The Predictor State every reset leaves (R40). -/
def Predictor.zero : Predictor :=
  { tableIndex := 0, lastStep := 0, lastAmplitude := 0, lastSlope := 0, sample1 := 0, sample2 := 0 }

/-- The bytes of one byte space that have been written, as (offset, byte) pairs at strictly rising offsets. An unlisted
offset has no value (log 9). -/
abbrev Memory := List Host.Cell

/-- What the host drives while a command is in progress: the configuration inputs (R35, R251), and which of its duties
it breaks, if any (R224; log 7). CHANNELS is a number here because the host may drive one outside 1 and 2 (U7). -/
structure HostLines where
  codec : Codec
  channels : Nat
  breach : Option Breach
  deriving DecidableEq, Repr

/-- The two byte arrays the host hands over with a command (R61, R251): IN, and OUT with what it held before (R245). -/
structure Handover where
  input : List Byte
  output : List Byte
  deriving DecidableEq, Repr

/-- One thing that will be issued: the request, the lines the host drives with a command of its own (log 6), and the
buffers it hands over (log 1, log 24). -/
structure Transaction where
  request : Request
  lines : HostLines
  handover : Option Handover
  deriving DecidableEq, Repr

/-- What the last operation handed back (log 8). -/
inductive Response where
  /-- Nothing handed back since reset. -/
  | none
  /-- STEP2, STEP3: the reconstructed sample (R118 step 8). -/
  | sample (rec : I32)
  /-- PKT6, PKT3: the history or carry pair (R145, R148). -/
  | history (s1 s2 : I32)
  /-- PROCESS: `consumed`, `produced`, `status` (R180, R181). -/
  | process (consumed produced : Nat) (status : Status)
  /-- TOTALS: input first (R184). -/
  | totals (input output : U64)
  deriving DecidableEq, Repr

/-- The machine stops with a fault. Each is an access the spec says does not exist or a condition it says cannot be. -/
inductive Fault where
  /-- Raised by a byte access at an offset outside the space (R50, R59). Safe: the machine stops. -/
  | outsideSpace (sp : SpaceName) (offset : Nat)
  /-- Raised by a read of a byte that nothing has written (R40, U3). Safe: the machine stops. -/
  | unwrittenByte (sp : SpaceName) (offset : Nat)
  /-- Raised by the adapter when `cache_size` is outside its range (R31). Safe: no reachable state has it (log 13). -/
  | cacheSizeOutOfRange (size : Nat)
  /-- Raised by the adapter after seven state executions without a halt. Safe: R186 says it cannot happen (log 13). -/
  | adapterDoesNotHalt
  deriving DecidableEq, Repr

/-- The operation has no meaning (`refuse`, R9, R224). -/
inductive Refusal where
  /-- Raised by exec's arm of an instruction that has no meaning yet. Safe. -/
  | notModelled (mnemonic : String)
  /-- Raised by step when the word at the port is no instruction (R83, R88). Safe. -/
  | undecodable (why : Reject)
  /-- Raised by a command during which the host breaks a duty (R224). Safe. -/
  | hostBreach (which : Breach)
  /-- Raised by PROCESS, TOTALS and NOP when CODEC or CHANNELS changed without a reset (R247, R224; log 6). Safe. -/
  | configurationChanged
  /-- Raised by RESET when the CHANNELS input is neither 1 nor 2 (R224, U7). Safe. -/
  | channelsOutOfRange (channels : Nat)
  /-- Raised by a block decode whose channel index is outside `1 .. channel_count` (R149, R224). Safe. -/
  | channelIndexOutOfRange (cc ci : Nat)
  /-- Raised by a block decode whose Predictor State is not that of its channel index (R149, D18; log 26). Safe. -/
  | predictorOfAnotherChannel (ch : Chan) (ci : Nat)
  /-- Raised by a block decode whose source space is too short (R149, U8). Safe. -/
  | sourceTooShort
  /-- Raised by a block decode whose destination space is too short (R149, U8). Safe. -/
  | destinationTooShort
  /-- Raised by a datapath operation on `PS[2]` in a mono session (R26; log 12). Safe. -/
  | rightChannelWhenMono
  deriving DecidableEq, Repr

/-- Everything the spec gives the machine (INVENTORY.md, State). -/
structure State where
  /-- `PS[1]` (R20, R26). -/
  left : Predictor
  /-- `PS[2]` (R20, R26). -/
  right : Predictor
  /-- `SS.state` (R29). -/
  state : AdapterState
  /-- `SS.cache_size` (R31). -/
  cacheSize : Nat
  /-- `SS.input_cache`, byte space ICACHE (R30). -/
  icache : Memory
  /-- `SS.output_cache`, byte space OCACHE (R32). -/
  ocache : Memory
  /-- `SS.total_input_bytes` (R34). -/
  totalIn : U64
  /-- `SS.total_output_bytes` (R34). -/
  totalOut : U64
  /-- `CODEC` as the last reset sampled it (R35). -/
  codec : Codec
  /-- `CHANNELS` as the last reset sampled it (R35). -/
  channels : Channels
  /-- The coefficient table ROM (R38). -/
  rom : Tables
  /-- Parameter `SYM_ORDER3` (R82). -/
  symOrder3 : SymOrder
  /-- Scratch buffer TL (R39, R175). -/
  scratchL : Memory
  /-- Scratch buffer TR (R39, R175). -/
  scratchR : Memory
  /-- Byte space IN (R50). -/
  input : Memory
  /-- The size of IN (R50, R171). -/
  ilen : Nat
  /-- Byte space OUT (R50). -/
  output : Memory
  /-- The size of OUT (R50, R171). -/
  olen : Nat
  /-- What the host drives now (R35, R251). -/
  lines : HostLines
  /-- What the last operation handed back (log 8). -/
  response : Response
  /-- What the host will issue next, in order (log 1). -/
  pending : List Transaction
  deriving DecidableEq, Repr

/-- The machine right after power-on reset (R40, R240), with nothing issued yet. -/
def State.reset : State :=
  { left := Predictor.zero
    right := Predictor.zero
    state := .init
    cacheSize := 0
    icache := []
    ocache := []
    totalIn := 0
    totalOut := 0
    codec := Config.powerOnCodec
    channels := Config.powerOnChannels
    rom := Config.tables
    symOrder3 := Config.symOrder3
    scratchL := []
    scratchR := []
    input := []
    ilen := 0
    output := []
    olen := 0
    lines := { codec := Config.powerOnCodec, channels := Config.powerOnChannels.number, breach := none }
    response := .none
    pending := [] }

end Sys2Proof.Machine
end

