-- ==== Sys2Proof/Machine/Ops.lean ====
section
/-! DEFINITION. The named operations over the byte spaces and the registers, and the shared operation that ends a
PROCESS. The spec describes no exception and no return from one (60_exceptions.md R216, R217): `report` is what stands in
their place (00_scope.md R9). -/

namespace Sys2Proof.Machine

open Sys2Proof

/-- Why an operation does not complete. -/
inductive Stop where
  | fault (f : Fault)
  | refused (r : Refusal)
  deriving DecidableEq, Repr

/-- An operation that answers a value or stops. -/
abbrev Run (α : Type) := Except Stop α

/-- The outcome of a meaning whose operation answers a state. -/
def outcome : Run State → Host.Outcome State Fault Refusal
  | .ok s => .next s
  | .error (.fault f) => .fault f
  | .error (.refused r) => .refused r

/-- The byte at an offset, if one was written. -/
def Memory.read : Memory → Nat → Option Byte
  | [], _ => none
  | (k, v) :: m, a => if k = a then some v else Memory.read m a

/-- One byte written, the offsets kept strictly rising. -/
def Memory.write : Memory → Nat → Byte → Memory
  | [], a, v => [(a, v)]
  | (k, x) :: m, a, v =>
    if a < k then (a, v) :: (k, x) :: m
    else if a = k then (a, v) :: m
    else (k, x) :: Memory.write m a v

/-- Bytes written one after the other from an offset on. -/
def Memory.writeList : Memory → Nat → List Byte → Memory
  | m, _, [] => m
  | m, a, v :: vs => Memory.writeList (Memory.write m a v) (a + 1) vs

/-- The canonical form: offsets strictly rising. No byte equals what an unlisted offset reads as, since that has no
value (log 9). -/
abbrev Memory.wf (m : Memory) : Prop := m.Pairwise (fun x y => x.1 < y.1)

/-- A byte space's written bytes. -/
def State.mem (s : State) : SpaceName → Memory
  | .input => s.input
  | .output => s.output
  | .icache => s.icache
  | .ocache => s.ocache
  | .scratchL => s.scratchL
  | .scratchR => s.scratchR

/-- A byte space's written bytes replaced. -/
def State.setMem (s : State) (sp : SpaceName) (m : Memory) : State :=
  match sp with
  | .input => { s with input := m }
  | .output => { s with output := m }
  | .icache => { s with icache := m }
  | .ocache => { s with ocache := m }
  | .scratchL => { s with scratchL := m }
  | .scratchR => { s with scratchR := m }

/-- A byte space's size (R50); a scratch buffer holds the bytes of `CHUNK_PKTS` packets (R39). -/
def State.spaceSize (s : State) : SpaceName → Nat
  | .input => s.ilen
  | .output => s.olen
  | .icache => 4
  | .ocache => 12
  | .scratchL => Config.chunkPkts * samplesPerPacket
  | .scratchR => Config.chunkPkts * samplesPerPacket

/-- The byte a space holds at an offset, if any. -/
def State.byteAt (s : State) (sp : SpaceName) (a : Nat) : Option Byte := (s.mem sp).read a

/-- `MemRead(S, a, 1)` (R9, R52). -/
def readByte (s : State) (sp : SpaceName) (a : Nat) : Run Byte :=
  if a < s.spaceSize sp then
    match s.byteAt sp a with
    | some v => .ok v
    | none => .error (.fault (.unwrittenByte sp a))
  else .error (.fault (.outsideSpace sp a))

/-- `n` one-byte reads at rising offsets. -/
def readBytes (s : State) (sp : SpaceName) : Nat → Nat → Run (List Byte)
  | _, 0 => .ok []
  | a, n + 1 =>
    match readByte s sp a with
    | .error e => .error e
    | .ok v =>
      match readBytes s sp (a + 1) n with
      | .error e => .error e
      | .ok vs => .ok (v :: vs)

/-- One-byte writes `MemWrite(S, a, 1, v)` (R9, R52) at rising offsets; with no byte to write, nothing happens. -/
def writeBytes (s : State) (sp : SpaceName) (a : Nat) (vs : List Byte) : Run State :=
  if vs.length = 0 ∨ a + vs.length ≤ s.spaceSize sp then .ok (s.setMem sp (Memory.writeList (s.mem sp) a vs))
  else .error (.fault (.outsideSpace sp (max a (s.spaceSize sp))))

/-- `PS[c]` (R26). -/
def State.predictor (s : State) : Chan → Predictor
  | .left => s.left
  | .right => s.right

/-- `PS[c] <- p` (R26). -/
def State.setPredictor (s : State) (ch : Chan) (p : Predictor) : State :=
  match ch with
  | .left => { s with left := p }
  | .right => { s with right := p }

/-- Whether an operation may use `PS[c]`: in a mono session only RESET touches `PS[2]` (R26). -/
def State.hasChannel (s : State) (ch : Chan) : Bool :=
  match s.channels, ch with
  | .mono, .right => false
  | _, _ => true

/-- What an operation hands back (log 8). -/
def State.respond (s : State) (r : Response) : State := { s with response := r }

/-- `SS.cache_size <- n` (R9). -/
def State.setCacheSize (s : State) (n : Nat) : State := { s with cacheSize := n }

/-- `SS.cache_size <- n ; SS.state <- q` (R9, R33). -/
def State.setAdapter (s : State) (n : Nat) (q : AdapterState) : State := { s with cacheSize := n, state := q }

/-- A byte space filled from offset 0 on, as the host hands it over. -/
def Memory.ofBytes (vs : List Byte) : Memory := Memory.writeList [] 0 vs

/-- The buffers a command is issued with (R61, R251): IN and OUT as the host left them (R245). -/
def State.handOver (s : State) : Option Handover → State
  | none => s
  | some h =>
    { s with
      input := Memory.ofBytes h.input
      ilen := h.input.length
      output := Memory.ofBytes h.output
      olen := h.output.length }

/-- The lines during a transaction: the host drives them with a command of its own, and they stand as they are while the
block itself issues an operation (R10, R251; log 6). -/
def State.linesFor (s : State) (t : Transaction) : HostLines :=
  if t.request.isCommand then t.lines else s.lines

/-- The issue of the next transaction: it leaves the list, the host drives its lines and hands over its buffers. -/
def State.issue (s : State) (t : Transaction) (rest : List Transaction) : State :=
  { s.handOver t.handover with lines := s.linesFor t, pending := rest }

/-- The cursors of a PROCESS (R33): bytes of IN consumed, bytes of OUT produced. -/
structure Cursor where
  ic : Nat
  oc : Nat
  deriving DecidableEq, Repr

/-- `report <Status>(consumed, produced)` (R9, R180 to R182): the counts and the status are handed back and the totals
advance, modulo 2^64. It undoes nothing (R216). -/
def report (s : State) (c : Cursor) : State :=
  { s with
    totalIn := s.totalIn + BitVec.ofNat 64 c.ic
    totalOut := s.totalOut + BitVec.ofNat 64 c.oc
    response := .process c.ic c.oc (statusOf c.ic s.ilen c.oc s.olen) }

end Sys2Proof.Machine
end

