-- ==== Sys2Proof/Machine/Symbol.lean ====
section
/-! DEFINITION. The table port and the two symbol operations (40_coefficient_step.md R116 to R126). -/

namespace Sys2Proof.Machine

open Sys2Proof

/-- The 8-way reply `(big, small)` for a request at `prev` and `code` (R116, R119). -/
def lookup3 (t : Tables) (prev : I32) (code : BitVec 3) : I16 × I16 :=
  (t.t8b[(bigIndex3 prev code).toNat]'(bigIndex3_lt prev code), t.t8s[code.toNat]'code.isLt)

/-- The 4-way reply `(big, small)` for a request at `prev` and `code` (R116, R120). -/
def lookup2 (t : Tables) (prev : I32) (code : BitVec 2) : I16 × I16 :=
  (t.t4b[(bigIndex2 prev code).toNat]'(bigIndex2_lt prev code), t.t4s[code.toNat]'code.isLt)

/-- STEP from its table reply on (R118): the new Predictor State and the value returned. Every right side reads the
fields from before the step. -/
def coefficientStep (reply : I16 × I16) (ps : Predictor) : Predictor × I32 :=
  let prev := ps.tableIndex
  let delta := sext reply.1
  let nxt := prev + sext reply.2 - asr prev 5
  let rec' := clamp (delta + ps.lastAmplitude)
  ({ ps with
      tableIndex := smax nxt 0
      lastStep := rec'
      lastAmplitude := asr (rec' * rec') 15
      lastSlope := nextSlope (directionChanged delta ps.lastStep) ps.lastSlope },
   rec')

/-- `STEP(PS, code, 3)` (R119). -/
def step3 (t : Tables) (code : BitVec 3) (ps : Predictor) : Predictor × I32 :=
  coefficientStep (lookup3 t ps.tableIndex code) ps

/-- `STEP(PS, code, 2)` (R120). -/
def step2 (t : Tables) (code : BitVec 2) (ps : Predictor) : Predictor × I32 :=
  coefficientStep (lookup2 t ps.tableIndex code) ps

/-- The arbiter's selection by width (R117). -/
def stepSymbol (t : Tables) (sym : Symbol) (ps : Predictor) : Predictor × I32 :=
  match sym with
  | .three code => step3 t code ps
  | .two code => step2 t code ps

/-- A symbol operation as the block issues it on its own: the channel's Predictor State is updated in place and the
sample is handed back. -/
def runSymbol (step : Predictor → Predictor × I32) (ch : Chan) (s : State) : Run State :=
  if s.hasChannel ch then
    let r := step (s.predictor ch)
    .ok ((s.setPredictor ch r.1).respond (.sample r.2))
  else .error (.refused .rightChannelWhenMono)

/-- STEP3 (R119). -/
def execStep3 (code : BitVec 3) (ch : Chan) (s : State) : Host.Outcome State Fault Refusal :=
  outcome (runSymbol (step3 s.rom code) ch s)

/-- STEP2 (R120). -/
def execStep2 (code : BitVec 2) (ch : Chan) (s : State) : Host.Outcome State Fault Refusal :=
  outcome (runSymbol (step2 s.rom code) ch s)

end Sys2Proof.Machine
end

