-- ==== Sys2Proof/Machine/Packet.lean ====
section
/-! DEFINITION. The output stage and the two packet operations (41_block_decoders.md R140 to R148). -/

namespace Sys2Proof.Machine

open Sys2Proof

/-- `pcm(v) = (asr(v, 8) AND 0xFF) XOR 0x80` (R140). -/
def pcm (v : I32) : Byte := ((asr v 8 &&& 0xFF#32) ^^^ 0x80#32).setWidth 8

/-- The unclamped sum of the first byte of a MACE6 symbol (R141); `s1` newer, `s2` older (the spec's D9, log 15). -/
def mixSum0 (n s1 s2 : I32) : I32 := asr n 3 + asr (s2 * 3#32) 3 + asr s1 1

/-- The unclamped sum of the second byte of a MACE6 symbol (R142; the spec's decision D8, log 15). -/
def mixSum1 (n s1 s2 : I32) : I32 := asr (n * 3#32) 3 + asr s2 3 + asr s1 1

/-- `m0` (R141). -/
def mix0 (n s1 s2 : I32) : I32 := clamp (mixSum0 n s1 s2)

/-- `m1` (R142). -/
def mix1 (n s1 s2 : I32) : I32 := clamp (mixSum1 n s1 s2)

/-- The Predictor State and the working pair `(s1, s2)` of a packet or block decode (R152). -/
structure Working where
  ps : Predictor
  s1 : I32
  s2 : I32
  deriving DecidableEq, Repr

/-- One MACE6 symbol (R141, R142, R144): two bytes from the history before the shift, then the shift. -/
def mace6Symbol (t : Tables) (w : Working) (sym : Symbol) : Working × List Byte :=
  let r := stepSymbol t sym w.ps
  ({ ps := r.1, s1 := r.2, s2 := w.s1 }, [pcm (mix0 r.2 w.s1 w.s2), pcm (mix1 r.2 w.s1 w.s2)])

/-- One MACE3 symbol (R146, R147; the spec's decision D11, log 16): one byte, `s1` carried unchanged. -/
def mace3Symbol (t : Tables) (w : Working) (sym : Symbol) : Working × List Byte :=
  let r := stepSymbol t sym w.ps
  ({ ps := r.1, s1 := w.s1, s2 := r.2 - asr r.2 3 }, [pcm r.2])

/-- A symbol of a codec. -/
def codecSymbol : Codec → Tables → Working → Symbol → Working × List Byte
  | .mace6 => mace6Symbol
  | .mace3 => mace3Symbol

/-- Items decoded one after the other, their output bytes in order. -/
def runAll {σ α : Type} (f : σ → α → σ × List Byte) : σ → List α → σ × List Byte
  | w, [] => (w, [])
  | w, x :: xs =>
    let r := f w x
    let q := runAll f r.1 xs
    (q.1, r.2 ++ q.2)

/-- One packet from its bytes, lower offset first (R145, R148). -/
def packet (codec : Codec) (order : SymOrder) (t : Tables) (w : Working) (bytes : List Byte) : Working × List Byte :=
  runAll (codecSymbol codec t) w (bytes.flatMap (orderedSymbols codec order))

/-- A packet operation as the block issues it on its own: six bytes to the destination, the Predictor State updated
through STEP, `sample1` and `sample2` not touched, the pair handed back (R145, R148). -/
def runPacket (codec : Codec) (bytes : List Byte) (o : PktOps) (s : State) : Run State :=
  if s.hasChannel o.ch then
    let r := packet codec s.symOrder3 s.rom { ps := s.predictor o.ch, s1 := o.s1, s2 := o.s2 } bytes
    match writeBytes s o.dst.space o.d r.2 with
    | .error e => .error e
    | .ok s' => .ok ((s'.setPredictor o.ch r.1.ps).respond (.history r.1.s1 r.1.s2))
  else .error (.refused .rightChannelWhenMono)

/-- PKT6 (R145). -/
def execPkt6 (a : BitVec 3) (b : BitVec 2) (c : BitVec 3) (o : PktOps) (s : State) :
    Host.Outcome State Fault Refusal :=
  outcome (runPacket .mace6 [joinByte ⟨a, b, c⟩] o s)

/-- PKT3 (R148). -/
def execPkt3 (a : BitVec 3) (b : BitVec 2) (c d : BitVec 3) (e : BitVec 2) (f : BitVec 3) (o : PktOps) (s : State) :
    Host.Outcome State Fault Refusal :=
  outcome (runPacket .mace3 [joinByte ⟨a, b, c⟩, joinByte ⟨d, e, f⟩] o s)

end Sys2Proof.Machine
end

