-- ==== Sys2Proof/Machine/Block.lean ====
section
/-! DEFINITION. The two block operations (41_block_decoders.md R149 to R158). The source and the destination of a block
decode are never the same space (20_memory.md R51), so reading every packet before writing the first byte gives what
the pseudocode's order gives (log 23). -/

namespace Sys2Proof.Machine

open Sys2Proof

/-- The refusal a block decode outside its contract meets, if any (R149, R26). -/
def blockRefusal (codec : Codec) (o : BlockOps) (s : State) : Option Refusal :=
  if ¬ (1 ≤ o.ci ∧ o.ci ≤ o.cc) then some (.channelIndexOutOfRange o.cc o.ci)
  else if o.ch.number ≠ o.ci then some (.predictorOfAnotherChannel o.ch o.ci)
  else if s.hasChannel o.ch = false then some .rightChannelWhenMono
  else if s.spaceSize o.src.space < sourceEnd codec o.b o.cc o.ci o.n then some .sourceTooShort
  else if o.n ≠ 0 ∧ s.spaceSize o.dst.space < o.d + samplesPerPacket * o.n then some .destinationTooShort
  else none

/-- The bytes of the packets `p`, `p + 1`, ... (`n` of them) of the operand's channel (R55, R56). -/
def readPackets (codec : Codec) (o : BlockOps) (s : State) : Nat → Nat → Run (List (List Byte))
  | _, 0 => .ok []
  | p, n + 1 =>
    match readBytes s o.src.space (packetOffset codec o.b o.cc o.ci p) (packetBytes codec) with
    | .error e => .error e
    | .ok x =>
      match readPackets codec o s (p + 1) n with
      | .error e => .error e
      | .ok xs => .ok (x :: xs)

/-- The working pair loaded (R152). -/
def loadHistory (ps : Predictor) : Working := { ps := ps, s1 := ps.sample1, s2 := ps.sample2 }

/-- The working pair persisted (R153). -/
def storeHistory (w : Working) : Predictor := { w.ps with sample1 := w.s1, sample2 := w.s2 }

/-- Packets decoded from a Predictor State: the state they leave and their output bytes (R150, R151, R154). -/
def decodePackets (codec : Codec) (order : SymOrder) (t : Tables) (ps : Predictor) (packets : List (List Byte)) :
    Predictor × List Byte :=
  let r := runAll (packet codec order t) (loadHistory ps) packets
  (storeHistory r.1, r.2)

/-- A block decode (R150, R151). -/
def runBlock (codec : Codec) (o : BlockOps) (s : State) : Run State :=
  match blockRefusal codec o s with
  | some r => .error (.refused r)
  | none =>
    match readPackets codec o s 0 o.n with
    | .error e => .error e
    | .ok packets =>
      let r := decodePackets codec s.symOrder3 s.rom (s.predictor o.ch) packets
      match writeBytes s o.dst.space o.d r.2 with
      | .error e => .error e
      | .ok s' => .ok (s'.setPredictor o.ch r.1)

/-- BLOCK6 (R150). -/
def execBlock6 (o : BlockOps) (s : State) : Host.Outcome State Fault Refusal := outcome (runBlock .mace6 o s)

/-- BLOCK3 (R151). -/
def execBlock3 (o : BlockOps) (s : State) : Host.Outcome State Fault Refusal := outcome (runBlock .mace3 o s)

end Sys2Proof.Machine
end

