-- ==== Sys2Proof/Machine/Adapter.lean ====
section
/-! DEFINITION. The Streaming Adapter's state machine (42_streaming_adapter.md R170 to R182). -/

namespace Sys2Proof.Machine

open Sys2Proof

/-- `Gin` of the session (R170). -/
def State.gin (s : State) : Nat := Machine.gin s.codec s.channels

/-- `Gout` of the session (R170). -/
def State.gout (s : State) : Nat := Machine.gout s.channels

/-- `m` whole mono frames, one block decode (R174, R178). -/
def monoFrames (src : Src) (b : Nat) (dst : Dst) (d m : Nat) (s : State) : Run State :=
  runBlock s.codec { src := src, b := b, dst := dst, d := d, n := m, ch := .left, cc := 1, ci := 1 } s

/-- `m` whole stereo frames: the left block decode into TL, the right one into TR, then the interleave (R175, R178).
Left before right is the spec's decision D14 (log 17). -/
def stereoFrames (src : Src) (b : Nat) (dst : Dst) (d m : Nat) (s : State) : Run State :=
  match runBlock s.codec { src := src, b := b, dst := .scratchL, d := 0, n := m, ch := .left, cc := 2, ci := 1 } s with
  | .error e => .error e
  | .ok s1 =>
    match runBlock s1.codec { src := src, b := b, dst := .scratchR, d := 0, n := m, ch := .right, cc := 2, ci := 2 } s1 with
    | .error e => .error e
    | .ok s2 =>
      match readBytes s2 .scratchL 0 (samplesPerPacket * m) with
      | .error e => .error e
      | .ok tl =>
        match readBytes s2 .scratchR 0 (samplesPerPacket * m) with
        | .error e => .error e
        | .ok tr => writeBytes s2 dst.space d (interleave tl tr)

/-- The stereo direct path in passes of `min(remaining, CHUNK_PKTS)` frames (R176). Each pass decodes at least one frame,
so `n` passes are enough; the first argument bounds them. -/
def stereoPasses : Nat → Nat → Nat → Nat → State → Run State
  | 0, _, _, _, s => .ok s
  | k + 1, ic, oc, n, s =>
    if n = 0 then .ok s
    else
      match stereoFrames .input ic .output oc (min n Config.chunkPkts) s with
      | .error e => .error e
      | .ok s' =>
        stereoPasses k (ic + min n Config.chunkPkts * s.gin) (oc + min n Config.chunkPkts * s.gout)
          (n - min n Config.chunkPkts) s'

/-- DIRECT(n) (R173 to R176). -/
def direct (c : Cursor) (n : Nat) (s : State) : Run State :=
  match s.channels with
  | .mono => monoFrames .input c.ic .output c.oc n s
  | .stereo => stereoPasses n c.ic c.oc n s

/-- What one execution of an adapter state leaves: the session and cursors, and whether the loop goes on (R172). -/
inductive Turn where
  | goOn (s : State) (c : Cursor)
  | halt (s : State) (c : Cursor)
  deriving DecidableEq, Repr

/-- The frames the direct path takes, `min((ilen - ic) div Gin, (olen - oc) div Gout)` (R173). -/
def directCount (c : Cursor) (s : State) : Nat := min ((s.ilen - c.ic) / s.gin) ((s.olen - c.oc) / s.gout)

/-- State `Init` (R173). -/
def initState (c : Cursor) (s : State) : Run Turn :=
  let n := directCount c s
  match (if 0 < n then direct c n s else .ok s) with
  | .error e => .error e
  | .ok s' =>
    let c' : Cursor := { ic := c.ic + n * s.gin, oc := c.oc + n * s.gout }
    if 0 < s.ilen - c'.ic then .ok (.goOn (s'.setAdapter 0 .fillingCache) c')
    else .ok (.halt s' c')

/-- State `FillingCache` (R177). -/
def fillingCacheState (c : Cursor) (s : State) : Run Turn :=
  if s.gin < s.cacheSize then .error (.fault (.cacheSizeOutOfRange s.cacheSize))
  else
    let k := min (s.ilen - c.ic) (s.gin - s.cacheSize)
    match readBytes s .input c.ic k with
    | .error e => .error e
    | .ok vs =>
      match writeBytes s .icache s.cacheSize vs with
      | .error e => .error e
      | .ok s' =>
        let c' : Cursor := { c with ic := c.ic + k }
        if s.cacheSize + k = s.gin then .ok (.goOn (s'.setAdapter (s.cacheSize + k) .processCache) c')
        else .ok (.halt (s'.setCacheSize (s.cacheSize + k)) c')

/-- State `ProcessCache` (R178). -/
def processCacheState (c : Cursor) (s : State) : Run Turn :=
  match (match s.channels with
    | .mono => monoFrames .icache 0 .ocache 0 1 s
    | .stereo => stereoFrames .icache 0 .ocache 0 1 s) with
  | .error e => .error e
  | .ok s' => .ok (.goOn (s'.setAdapter s.gout .cacheFull) c)

/-- State `CacheFull` (R179). -/
def cacheFullState (c : Cursor) (s : State) : Run Turn :=
  if s.gout < s.cacheSize then .error (.fault (.cacheSizeOutOfRange s.cacheSize))
  else
    let k := min (s.olen - c.oc) s.cacheSize
    match readBytes s .ocache (s.gout - s.cacheSize) k with
    | .error e => .error e
    | .ok vs =>
      match writeBytes s .output c.oc vs with
      | .error e => .error e
      | .ok s' =>
        let c' : Cursor := { c with oc := c.oc + k }
        if s.cacheSize - k = 0 then .ok (.goOn (s'.setAdapter 0 .init) c')
        else .ok (.halt (s'.setCacheSize (s.cacheSize - k)) c')

/-- One execution of the current state's rule (R172). -/
def adapterTurn (c : Cursor) (s : State) : Run Turn :=
  match s.state with
  | .init => initState c s
  | .fillingCache => fillingCacheState c s
  | .processCache => processCacheState c s
  | .cacheFull => cacheFullState c s

/-- The loop of R172, for at most the given number of state executions. -/
def adapterLoop : Nat → Cursor → State → Run (State × Cursor)
  | 0, _, _ => .error (.fault .adapterDoesNotHalt)
  | k + 1, c, s =>
    match adapterTurn c s with
    | .error e => .error e
    | .ok (.halt s' c') => .ok (s', c')
    | .ok (.goOn s' c') => adapterLoop k c' s'

/-- The most state executions of a PROCESS (R186). -/
def maxTurns : Nat := 7

/-- PROCESS inside its contract (R171, R172, R180). -/
def runProcess (s : State) : Run State :=
  match adapterLoop maxTurns { ic := 0, oc := 0 } s with
  | .error e => .error e
  | .ok (s', c) => .ok (report s' c)

end Sys2Proof.Machine
end

