-- ==== Sys2Proof/Machine/Command.lean ====
section
/-! DEFINITION. The four host commands (42_streaming_adapter.md R171, R183 to R185) and what the contract refuses of them
(60_exceptions.md R224). -/

namespace Sys2Proof.Machine

open Sys2Proof

/-- CHANNELS sampled from the configuration input (R183); neither 1 nor 2 has no meaning (R224). -/
def channelsOfNumber : Nat → Option Channels
  | 1 => some .mono
  | 2 => some .stereo
  | _ => none

/-- Whether the host issues another command while this one is in progress (R193). -/
def HostLines.overlapped (l : HostLines) : Bool := decide (l.breach = some .commandOverlap)

/-- Whether the configuration inputs stand as the last reset sampled them (R247). -/
def State.configurationKept (s : State) : Bool :=
  decide (s.lines.codec = s.codec) && decide (s.lines.channels = s.channels.number)

/-- The effect of a reset with the given configuration inputs (R183, R241). The caches, the scratch buffers, the tables
and the host's buffers are left alone (R242). -/
def resetSession (codec : Codec) (channels : Channels) (s : State) : State :=
  { s with
    left := Predictor.zero
    right := Predictor.zero
    state := .init
    cacheSize := 0
    totalIn := 0
    totalOut := 0
    codec := codec
    channels := channels
    response := .none }

/-- NOP (R185): no command; it reads and writes nothing. The configuration inputs stay the reset's under it too (R247,
R251). -/
def execNop (s : State) : Host.Outcome State Fault Refusal :=
  if s.configurationKept then .next s else .refused .configurationChanged

/-- RESET (R183). -/
def execReset (s : State) : Host.Outcome State Fault Refusal :=
  if s.lines.overlapped then .refused (.hostBreach .commandOverlap)
  else
    match channelsOfNumber s.lines.channels with
    | none => .refused (.channelsOutOfRange s.lines.channels)
    | some chs => .next (resetSession s.lines.codec chs s)

/-- PROCESS (R171). -/
def execProcess (s : State) : Host.Outcome State Fault Refusal :=
  match s.lines.breach with
  | some b => .refused (.hostBreach b)
  | none => if s.configurationKept then outcome (runProcess s) else .refused .configurationChanged

/-- TOTALS (R184): input first; it writes nothing. -/
def execTotals (s : State) : Host.Outcome State Fault Refusal :=
  if s.lines.overlapped then .refused (.hostBreach .commandOverlap)
  else if s.configurationKept then .next (s.respond (.totals s.totalIn s.totalOut))
  else .refused .configurationChanged

end Sys2Proof.Machine
end

