-- ==== Sys2Proof/Machine/Dispatch.lean ====
section
/-! DEFINITION. One arm per operation. -/

namespace Sys2Proof.Machine

open Sys2Proof

def exec (i : Instr) (s : State) : Host.Outcome State Fault Refusal :=
  match i with
  | .pkt6 a b c o => Sys2Proof.Machine.execPkt6 a b c o s
  | .pkt3 a b c d e f o => Sys2Proof.Machine.execPkt3 a b c d e f o s
  | .step3 code ch => Sys2Proof.Machine.execStep3 code ch s
  | .step2 code ch => Sys2Proof.Machine.execStep2 code ch s
  | .block6 o => Sys2Proof.Machine.execBlock6 o s
  | .block3 o => Sys2Proof.Machine.execBlock3 o s
  | .nop => Sys2Proof.Machine.execNop s
  | .reset => Sys2Proof.Machine.execReset s
  | .process => Sys2Proof.Machine.execProcess s
  | .totals => Sys2Proof.Machine.execTotals s

end Sys2Proof.Machine
end

