-- ==== Sys2Proof/Machine/Step.lean ====
section
/-! DEFINITION. One step: the next transaction is issued and its operation runs to completion (42_streaming_adapter.md
R193). With nothing to issue the command port is idle, which is NOP (R185). -/

namespace Sys2Proof.Machine

open Sys2Proof

/-- One step. -/
def step (s : State) : Host.Outcome State Fault Refusal :=
  match s.pending with
  | [] => exec .nop s
  | t :: rest =>
    match decode t.request with
    | .ok i => exec i (s.issue t rest)
    | .error why => .refused (.undecodable why)

/-- `s` with a bare table word as the next thing issued (log 2, log 11): the host drives what the session was reset with
and hands over no new buffers. A word with no request leaves `s` as it is. -/
def State.withFetchWord (s : State) (nbits w : Nat) : State :=
  match tableRequest nbits w with
  | none => s
  | some r =>
    let lines : HostLines := { codec := s.codec, channels := s.channels.number, breach := none }
    { s with pending := { request := r, lines := lines, handover := none } :: s.pending }

end Sys2Proof.Machine
end

