-- ==== Sys2Proof/Safety.lean ====
section
/-! DEFINITION. The terms claims are stated in: the invariants of a safe run, what an operation leaves unchanged, one
Coefficient Step in exact integers, and the reference decoder of a whole stream that the Streaming Adapter is measured
against. Nothing here is used by the machine. -/

namespace Sys2Proof.Safety

open Sys2Proof Sys2Proof.Machine

/-- Every offset `a .. a + n - 1` of a space holds a written byte. -/
def Readable (s : State) (sp : SpaceName) (a n : Nat) : Prop :=
  ∀ j < n, a + j < s.spaceSize sp ∧ (s.byteAt sp (a + j)).isSome = true

/-- Every byte space is in canonical form and lists only offsets it has (R50). -/
def MemoryCanonical (s : State) : Prop :=
  ∀ sp, Memory.wf (s.mem sp) ∧ ∀ cell ∈ s.mem sp, cell.1 < s.spaceSize sp

/-- What `state`, `cache_size` and the caches satisfy between commands (R29 to R32). -/
def SessionConsistent (s : State) : Prop :=
  match s.state with
  | .init => s.cacheSize = 0
  | .fillingCache => s.cacheSize < s.gin ∧ Readable s .icache 0 s.cacheSize
  | .processCache => False
  | .cacheFull => 1 ≤ s.cacheSize ∧ s.cacheSize ≤ s.gout ∧ Readable s .ocache (s.gout - s.cacheSize) s.cacheSize

/-- Within plus or minus 0x7FFF. -/
def Within15 (v : I32) : Prop := -32767 ≤ v.toInt ∧ v.toInt ≤ 32767

/-- The ranges of a Predictor State that a run from reset stays in (R123, R125, R147). -/
def PredictorInRange (p : Predictor) : Prop :=
  (0 ≤ p.tableIndex.toInt ∧ p.tableIndex.toInt ≤ 1048575) ∧ Within15 p.lastStep ∧
  (0 ≤ p.lastAmplitude.toInt ∧ p.lastAmplitude.toInt ≤ 32766) ∧ Within15 p.lastSlope ∧
  Within15 p.sample1 ∧ Within15 p.sample2

/-- The configuration inputs stand as the last reset sampled them (R247). -/
def ConfigurationStands (s : State) : Prop :=
  s.lines.codec = s.codec ∧ s.lines.channels = s.channels.number

/-- The invariant of a safe run. -/
def Inv (s : State) : Prop :=
  MemoryCanonical s ∧ SessionConsistent s ∧ PredictorInRange s.left ∧ PredictorInRange s.right ∧ ConfigurationStands s

/-- The host keeps its duties and the configuration during a PROCESS (R224, R247), and IN is there to read (R50). -/
def ProcessAllowed (s : State) : Prop :=
  s.lines.breach = none ∧ s.lines.codec = s.codec ∧ s.lines.channels = s.channels.number ∧ Readable s .input 0 s.ilen

/-- Every byte of every space reads as before. -/
def SameBytes (s t : State) : Prop := ∀ sp a, t.byteAt sp a = s.byteAt sp a

/-- Every byte reads as before but for offsets `lo .. lo + n - 1` of one space. -/
def SameBytesOutside (s t : State) (sp : SpaceName) (lo n : Nat) : Prop :=
  ∀ sp' a, ¬ (sp' = sp ∧ lo ≤ a ∧ a < lo + n) → t.byteAt sp' a = s.byteAt sp' a

/-- The session's own registers are unchanged (R29, R31, R34). -/
def SameSession (s t : State) : Prop :=
  t.state = s.state ∧ t.cacheSize = s.cacheSize ∧ t.totalIn = s.totalIn ∧ t.totalOut = s.totalOut

/-- Configuration, tables, buffer lengths, the host's lines and what it will issue are unchanged. -/
def SameSetting (s t : State) : Prop :=
  t.codec = s.codec ∧ t.channels = s.channels ∧ t.rom = s.rom ∧ t.symOrder3 = s.symOrder3 ∧
  t.ilen = s.ilen ∧ t.olen = s.olen ∧ t.lines = s.lines ∧ t.pending = s.pending

/-- The other channel. -/
def other : Chan → Chan
  | .left => .right
  | .right => .left

/-- The exact integer reduced modulo 2^32 into `-2^31 .. 2^31 - 1` (R112). -/
def wrap (x : Int) : Int := Int.bmod x (2 ^ 32)

/-- The clamp to plus or minus 0x7FFF on exact integers (R114). -/
def clampInt (x : Int) : Int := max (-32767) (min 32767 x)

/-- Bits 10 to 4 of `table_index`: the row of a big table (R21, R84). -/
def rowOf (ti : I32) : Nat := ti.toNat / 16 % 128

/-- The row is one of 128. -/
theorem rowOf_lt (ti : I32) : rowOf ti < 128 := Nat.mod_lt _ (by decide)

/-- `T8B[8*row + code]` (R116). -/
def big8 (t : Tables) (ti : I32) (code : BitVec 3) : Int :=
  (t.t8b[8 * rowOf ti + code.toNat]'(by have := rowOf_lt ti; have := code.isLt; omega)).toInt

/-- `T8S[code]` (R116). -/
def small8 (t : Tables) (code : BitVec 3) : Int := (t.t8s[code.toNat]'code.isLt).toInt

/-- `T4B[4*row + code]` (R116). -/
def big4 (t : Tables) (ti : I32) (code : BitVec 2) : Int :=
  (t.t4b[4 * rowOf ti + code.toNat]'(by have := rowOf_lt ti; have := code.isLt; omega)).toInt

/-- `T4S[code]` (R116). -/
def small4 (t : Tables) (code : BitVec 2) : Int := (t.t4s[code.toNat]'code.isLt).toInt

/-- Bit 15 of an integer's two's-complement pattern. -/
def bit15 (x : Int) : Bool := decide (x / 32768 % 2 = 1)

/-- One Coefficient Step in exact integers (R118): from the table values `big` and `small` and the Predictor State `p`,
it returns `rec` and leaves `q`. -/
def StepRelation (big small : Int) (p q : Predictor) (rec : I32) : Prop :=
  rec.toInt = clampInt (wrap (big + p.lastAmplitude.toInt)) ∧
  q.tableIndex.toInt = max 0 (wrap (p.tableIndex.toInt + small - p.tableIndex.toInt / 32)) ∧
  q.lastStep = rec ∧
  q.lastAmplitude.toInt = rec.toInt * rec.toInt / 32768 ∧
  q.lastSlope.toInt =
    (if bit15 big = bit15 p.lastStep.toInt then min 32767 (wrap (p.lastSlope.toInt + 506))
     else max (-32767) (wrap (p.lastSlope.toInt - 314))) ∧
  q.sample1 = p.sample1 ∧ q.sample2 = p.sample2

/-- The step a symbol selects (R83, R117), in exact integers. -/
def SymbolRelation (t : Tables) (sym : Symbol) (p q : Predictor) (rec : I32) : Prop :=
  match sym with
  | .three code => StepRelation (big8 t p.tableIndex code) (small8 t code) p q rec
  | .two code => StepRelation (big4 t p.tableIndex code) (small4 t code) p q rec

/-- The PCM byte of a value, as a number: the top byte of the low 16 bits, its sign bit inverted (R140). -/
def pcmInt (v : Int) : Int := (v / 256 + 128) % 256

/-- The first byte of a MACE6 symbol (R141), as a number. -/
def byte0Int (n s1 s2 : Int) : Int := pcmInt (clampInt (n / 8 + wrap (s2 * 3) / 8 + s1 / 2))

/-- The second byte of a MACE6 symbol (R142, the spec's decision D8), as a number. -/
def byte1Int (n s1 s2 : Int) : Int := pcmInt (clampInt (wrap (n * 3) / 8 + s2 / 8 + s1 / 2))

/-- The byte of a space at an offset is the number `v`. -/
def HoldsByte (s : State) (sp : SpaceName) (a : Nat) (v : Int) : Prop :=
  ∃ x, s.byteAt sp a = some x ∧ (x.toNat : Int) = v

/-- One frame decoded channel by channel from its bytes alone (R85, R58): no space, offset, cursor or cache. -/
def referenceFrame (codec : Codec) (chs : Channels) (order : SymOrder) (t : Tables) (ps : Predictor × Predictor)
    (frame : List Byte) : (Predictor × Predictor) × List Byte :=
  let l := decodePackets codec order t ps.1 [frame.take (packetBytes codec)]
  match chs with
  | .mono => ((l.1, ps.2), l.2)
  | .stereo =>
    let r := decodePackets codec order t ps.2 [frame.drop (packetBytes codec)]
    ((l.1, r.1), interleave l.2 r.2)

/-- The whole frames of a stream decoded one after the other, at most `k` of them. -/
def referenceFrames (codec : Codec) (chs : Channels) (order : SymOrder) (t : Tables) :
    Nat → Predictor × Predictor → List Byte → (Predictor × Predictor) × List Byte
  | 0, ps, _ => (ps, [])
  | k + 1, ps, bytes =>
    if bytes.length < gin codec chs then (ps, [])
    else
      let f := referenceFrame codec chs order t ps (bytes.take (gin codec chs))
      let q := referenceFrames codec chs order t k f.1 (bytes.drop (gin codec chs))
      (q.1, f.2 ++ q.2)

/-- The reference decode of a byte stream up to its last whole frame, under the session's configuration. -/
def referenceDecode (s : State) (ps : Predictor × Predictor) (bytes : List Byte) :
    (Predictor × Predictor) × List Byte :=
  referenceFrames s.codec s.channels s.symOrder3 s.rom bytes.length ps bytes

/-- The bytes of a partial frame a session holds (R30, R190). -/
def HeldInput (s : State) (held : List Byte) : Prop :=
  match s.state with
  | .fillingCache => held.length < s.gin ∧ held.length = s.cacheSize ∧ readBytes s .icache 0 s.cacheSize = .ok held
  | _ => held = []

/-- The decoded bytes a session has not delivered yet (R32, R179). -/
def HeldOutput (s : State) (due : List Byte) : Prop :=
  match s.state with
  | .init => due = []
  | .fillingCache => due = []
  | .processCache => False
  | .cacheFull =>
    1 ≤ s.cacheSize ∧ s.cacheSize ≤ s.gout ∧ due.length = s.cacheSize ∧
    readBytes s .ocache (s.gout - s.cacheSize) s.cacheSize = .ok due

/-- The session stands where a session that started from the Predictor States `base` stands after taking the bytes
`taken` and delivering the bytes `given`: everything taken is decoded or held as a partial frame, and everything decoded
is given or due (R189, R216). -/
def StreamAt (s : State) (base : Predictor × Predictor) (taken given : List Byte) : Prop :=
  ∃ whole held due, HeldInput s held ∧ HeldOutput s due ∧ taken = whole ++ held ∧ whole.length % s.gin = 0 ∧
    referenceDecode s base whole = ((s.left, s.right), given ++ due)

/-- A run of PROCESS commands, one per hand-over: the last state, the bytes consumed and the bytes delivered, each in
order; `none` where a command does not complete. -/
def feed : List Handover → State → Option (State × List Byte × List Byte)
  | [], s => some (s, [], [])
  | h :: hs, s =>
    match exec .process (s.handOver (some h)) with
    | .next t =>
      match t.response, feed hs t with
      | .process c p _, some (u, is, os) =>
        match readBytes t .output 0 p with
        | .ok out => some (u, h.input.take c ++ is, out ++ os)
        | .error _ => none
      | _, _ => none
    | _ => none

/-- The offset of the one byte of packet `p` of channel `ci` of `cc` (R55), as the spec writes it. -/
def offset6 (o : BlockOps) (p : Nat) : Nat := o.b + (o.ci - 1) + p * o.cc

/-- The offset of the first of the two bytes of packet `p` of channel `ci` of `cc` (R56), as the spec writes it
(its decision D13, log 16). -/
def offset3 (o : BlockOps) (p : Nat) : Nat := o.b + 2 * ((o.ci - 1) + p * o.cc)

/-- The operands of a BLOCK6 are within its contract in a state (R149): the channel index, that channel's Predictor State, room for `6n`
bytes, and every byte the pseudocode of R150 reads. -/
def Block6Contract (o : BlockOps) (s : State) : Prop :=
  1 ≤ o.ci ∧ o.ci ≤ o.cc ∧ o.ch.number = o.ci ∧ s.hasChannel o.ch = true ∧ (o.n = 0 ∨ o.d + 6 * o.n ≤ s.spaceSize o.dst.space) ∧
  ∀ p < o.n, Readable s o.src.space (offset6 o p) 1

/-- The operands of a BLOCK3 are within its contract in a state (R149); its source bytes are at the spec's decision D13
(log 16). -/
def Block3Contract (o : BlockOps) (s : State) : Prop :=
  1 ≤ o.ci ∧ o.ci ≤ o.cc ∧ o.ch.number = o.ci ∧ s.hasChannel o.ch = true ∧ (o.n = 0 ∨ o.d + 6 * o.n ≤ s.spaceSize o.dst.space) ∧
  ∀ p < o.n, Readable s o.src.space (offset3 o p) 2

/-- The operations that may write the output cache (R32): PROCESS, and a packet or block operation whose destination it
is (R51). -/
def mayWriteOutputCache : Instr → Bool
  | .pkt6 _ _ _ o => decide (o.dst = .ocache)
  | .pkt3 _ _ _ _ _ _ o => decide (o.dst = .ocache)
  | .step3 _ _ => false
  | .step2 _ _ => false
  | .block6 o => decide (o.dst = .ocache)
  | .block3 o => decide (o.dst = .ocache)
  | .nop => false
  | .reset => false
  | .process => true
  | .totals => false

/-- The operations that may write the Predictor State of a channel (R26, R28): RESET, PROCESS, and the symbol, packet and
block operations on that channel. -/
def mayWritePredictor (ch : Chan) : Instr → Bool
  | .pkt6 _ _ _ o => decide (o.ch = ch)
  | .pkt3 _ _ _ _ _ _ o => decide (o.ch = ch)
  | .step3 _ c => decide (c = ch)
  | .step2 _ c => decide (c = ch)
  | .block6 o => decide (o.ch = ch)
  | .block3 o => decide (o.ch = ch)
  | .nop => false
  | .reset => true
  | .process => true
  | .totals => false

/-- A next state with a change made to it; a stop stays as it is. -/
def mapNext (f : State → State) : Host.Outcome State Fault Refusal → Host.Outcome State Fault Refusal
  | .next t => .next (f t)
  | .fault r => .fault r
  | .refused r => .refused r

end Sys2Proof.Safety
end

