-- ==== Sys2Proof/Certificates/Slice0/Obligations.lean ====
section
/-! DEFINITION. The statements for the provers. Each names the rule of spec/ it formalises, or the decision it rests on.
Values a statement computes are written in exact integers (Safety.lean), not in the machine's own functions, wherever the
rule gives a formula. -/

open Sys2Proof Sys2Proof.Machine Sys2Proof.Safety

/-! ## Encoding -/

/-- Decoding the request an operation is encoded as gives that operation back, for every operation at every value of
every field and operand (30_encoding.md sections 1, 2 and 5). -/
def Obligations.DecodeOfEncodeIsTheOperation : Prop :=
  ∀ i : Instr, decode (encode i) = .ok i

/-- Every byte is a MACE6 packet and every two bytes are a MACE3 packet, alone or at the front of a longer stream, and
the codes are the numbers at bits 7:5, 4:3 and 2:0 (R87, R80, R81). -/
def Obligations.EveryByteIsAPacket : Prop :=
  ∀ (x y : Byte) (rest : List Byte) (o : PktOps),
    ∃ a b c d e f,
      decode (.packet6 [x] o) = .ok (.pkt6 a b c o) ∧
      decode (.packet3 [x, y] o) = .ok (.pkt3 a b c d e f o) ∧
      decodePacket6 (x :: rest) = .ok (⟨a, b, c⟩, rest) ∧
      decodePacket3 (x :: y :: rest) = .ok ((⟨a, b, c⟩, ⟨d, e, f⟩), rest) ∧
      a.toNat = x.toNat / 32 ∧ b.toNat = x.toNat / 8 % 4 ∧ c.toNat = x.toNat % 8 ∧
      d.toNat = y.toNat / 32 ∧ e.toNat = y.toNat / 8 % 4 ∧ f.toNat = y.toNat % 8

/-- Words written out from the spec's encodings (R88, R90 and the test file's notation) decode to what they stand for;
a command byte with a bit above its 2-bit code, and a symbol byte wider than its code, are refused by name (log 22). -/
def Obligations.SpecWordsDecode : Prop :=
  (∀ o, decode (.packet6 [0x7B#8] o) = .ok (.pkt6 3 3 3 o)) ∧
  (∀ o, decode (.packet6 [0x9C#8] o) = .ok (.pkt6 4 3 4 o)) ∧
  (∀ o, decode (.packet3 [0x64#8, 0x13#8] o) = .ok (.pkt3 3 0 4 0 2 3 o)) ∧
  (∀ ch, decode (.symbol3 [0x05#8] ch) = .ok (.step3 5 ch)) ∧
  (∀ ch, decode (.symbol2 [0x02#8] ch) = .ok (.step2 2 ch)) ∧
  decode (.command [0x00#8]) = .ok .nop ∧ decode (.command [0x01#8]) = .ok .reset ∧
  decode (.command [0x02#8]) = .ok .process ∧ decode (.command [0x03#8]) = .ok .totals ∧
  decode (.command [0x04#8]) = .error .commandBitsAboveCode ∧
  (∀ ch, decode (.symbol2 [0x04#8] ch) = .error .codeTooWide)

/-! ## A step -/

/-- The next transaction is issued and its operation runs, whatever it answers; a request that decodes to nothing is
refused by name (log 22). The issue changes the list, the host's lines and the buffers handed over, and nothing else
(log 1, log 24); the lines are driven with a command of the host's own, and stand as they are under an operation of the
block's (log 6). With nothing to issue the port is idle, which changes nothing while the configuration stands (R185). -/
def Obligations.StepRunsTheIssuedOperation : Prop :=
  (∀ s t rest i, s.pending = t :: rest → decode t.request = .ok i → step s = exec i (s.issue t rest)) ∧
  (∀ s t rest why, s.pending = t :: rest → decode t.request = .error why → step s = .refused (.undecodable why)) ∧
  (∀ (s : State) (t : Transaction) (rest : List Transaction),
    (s.issue t rest).pending = rest ∧
    (t.request.isCommand = true → (s.issue t rest).lines = t.lines) ∧
    (t.request.isCommand = false → (s.issue t rest).lines = s.lines) ∧
    SameSession s (s.issue t rest) ∧
    (s.issue t rest).left = s.left ∧ (s.issue t rest).right = s.right ∧
    (s.issue t rest).codec = s.codec ∧ (s.issue t rest).channels = s.channels ∧
    (s.issue t rest).rom = s.rom ∧ (s.issue t rest).symOrder3 = s.symOrder3 ∧
    (s.issue t rest).response = s.response ∧
    (∀ sp, sp ≠ .input → sp ≠ .output → (s.issue t rest).mem sp = s.mem sp) ∧
    (∀ h, t.handover = some h →
      (s.issue t rest).ilen = h.input.length ∧ (s.issue t rest).olen = h.output.length ∧
      (∀ a, (s.issue t rest).byteAt .input a = h.input[a]?) ∧ ∀ a, (s.issue t rest).byteAt .output a = h.output[a]?) ∧
    (t.handover = none → (∀ sp, (s.issue t rest).mem sp = s.mem sp) ∧
      (s.issue t rest).ilen = s.ilen ∧ (s.issue t rest).olen = s.olen)) ∧
  (∀ s, s.pending = [] → ConfigurationStands s → step s = .next s)

/-! ## RESET, TOTALS, NOP -/

/-- RESET completes with CHANNELS driven as 1 or 2 and no other command on the session, and does exactly this: both
predictors all zero, Init, cache_size 0, both totals 0, CODEC and CHANNELS sampled (42_streaming_adapter.md section 3; the
totals are the spec's decision D16, the rest its D17; that the response shows nothing is log 8). -/
def Obligations.ResetZeroesTheSession : Prop :=
  ∀ (s : State) (chs : Channels), s.lines.breach ≠ some .commandOverlap → s.lines.channels = chs.number →
    exec .reset s = .next { s with
      left := ⟨0, 0, 0, 0, 0, 0⟩, right := ⟨0, 0, 0, 0, 0, 0⟩, state := .init, cacheSize := 0,
      totalIn := 0, totalOut := 0, codec := s.lines.codec, channels := chs, response := .none }

/-- RESET from any state gives every register that 10_state.md section 6 lists the value it has in the power-on reset
state (the spec's decision D17), under the same configuration inputs; power-on with MACE6 mono is the model's choice
(log 5). -/
def Obligations.ResetCommandEqualsPowerOn : Prop :=
  ∀ s : State, s.lines = State.reset.lines →
    ∃ t, exec .reset s = .next t ∧ t.left = State.reset.left ∧ t.right = State.reset.right ∧
      t.state = State.reset.state ∧ t.cacheSize = State.reset.cacheSize ∧ t.totalIn = State.reset.totalIn ∧
      t.totalOut = State.reset.totalOut ∧ t.codec = State.reset.codec ∧ t.channels = State.reset.channels ∧
      t.rom = s.rom ∧ SameBytes s t

/-- TOTALS completes with no other command on the session and the configuration as the reset sampled it; it hands back
the pair, input first, and writes nothing (the order is the spec's decision D16). NOP completes while the configuration
stands and changes nothing (its decision D3). -/
def Obligations.TotalsAndNopComplete : Prop :=
  (∀ s : State, s.lines.breach ≠ some .commandOverlap → ConfigurationStands s →
    exec .totals s = .next { s with response := .totals s.totalIn s.totalOut }) ∧
  (∀ s : State, ConfigurationStands s → exec .nop s = .next s)

/-! ## Symbols -/

/-- STEP3 and STEP2 complete on every channel the session has and do what the common algorithm says, in exact integers:
STEP3 reads the 8-way tables at the row of bits 10 to 4, STEP2 the 4-way ones; four fields of one Predictor State are
written from the values they had before; sample1, sample2, the other channel, every byte of every space, the session's
registers and the setting stay as they are (R118). -/
def Obligations.StepFollowsTheCommonAlgorithm : Prop :=
  (∀ (s : State) (code : BitVec 3) (ch : Chan), s.hasChannel ch = true →
    ∃ t rec, exec (.step3 code ch) s = .next t ∧ t.response = .sample rec ∧
      StepRelation (big8 s.rom (s.predictor ch).tableIndex code) (small8 s.rom code)
        (s.predictor ch) (t.predictor ch) rec ∧
      t.predictor (other ch) = s.predictor (other ch) ∧ SameBytes s t ∧ SameSession s t ∧ SameSetting s t) ∧
  (∀ (s : State) (code : BitVec 2) (ch : Chan), s.hasChannel ch = true →
    ∃ t rec, exec (.step2 code ch) s = .next t ∧ t.response = .sample rec ∧
      StepRelation (big4 s.rom (s.predictor ch).tableIndex code) (small4 s.rom code)
        (s.predictor ch) (t.predictor ch) rec ∧
      t.predictor (other ch) = s.predictor (other ch) ∧ SameBytes s t ∧ SameSession s t ∧ SameSetting s t)

/-- What holds after any STEP whatever the state before it (40_coefficient_step.md section 4, derived there). -/
def Obligations.InvariantsAfterAnyStep : Prop :=
  ∀ (s t : State) (ch : Chan) (i : Instr), (∃ code, i = .step3 code ch) ∨ (∃ code, i = .step2 code ch) →
    exec i s = .next t →
    0 ≤ (t.predictor ch).tableIndex.toInt ∧ Within15 (t.predictor ch).lastStep ∧
    0 ≤ (t.predictor ch).lastAmplitude.toInt ∧ (t.predictor ch).lastAmplitude.toInt ≤ 32766 ∧
    (Within15 (s.predictor ch).lastSlope → Within15 (t.predictor ch).lastSlope) ∧
    (0 ≤ (s.predictor ch).tableIndex.toInt ∧ (s.predictor ch).tableIndex.toInt ≤ 1048575 →
      (t.predictor ch).tableIndex.toInt ≤ 1048575)

/-- The index expressions select row `prev[10:4]` and column `code`, and no read is out of range (30_encoding.md section
2, derived there). -/
def Obligations.TableIndexAssembly : Prop :=
  (∀ (prev : I32) (code : BitVec 3),
    (bigIndex3 prev code).toNat = 8 * rowOf prev + code.toNat ∧ (bigIndex3 prev code).toNat ≤ 1023) ∧
  (∀ (prev : I32) (code : BitVec 2),
    (bigIndex2 prev code).toNat = 4 * rowOf prev + code.toNat ∧ (bigIndex2 prev code).toNat ≤ 511)

/-- For operands in -32768 .. 32767 the test of bit 15 says whether the signs differ, zero counting as non-negative
(R115). -/
def Obligations.DirectionIsTheSignWithinSixteenBits : Prop :=
  ∀ delta last : I32, -32768 ≤ delta.toInt → delta.toInt ≤ 32767 → -32768 ≤ last.toInt → last.toInt ≤ 32767 →
    (directionChanged delta last = true ↔ (delta.toInt < 0 ↔ 0 ≤ last.toInt))

/-! ## Output stage -/

/-- The PCM byte of a value in -32767 .. 32767 is the floor of `v / 256` plus 128 (41_block_decoders.md section 1; the
reading of the top byte is the spec's decision D10). -/
def Obligations.PcmByteIsTheOffsetTopByte : Prop :=
  ∀ v : I32, Within15 v → ((pcm v).toNat : Int) = v.toInt / 256 + 128

/-- For operands in -32767 .. 32767 the two unclamped sums lie in -32768 .. 32765 and the clamp never changes an output
byte (41_block_decoders.md section 2, derived there; the second formula is the spec's decision D8, and that the shift of
a negative term is its floor is the spec's decision D5, log 14). -/
def Obligations.MixClampNeverChangesAByte : Prop :=
  ∀ n s1 s2 : I32, Within15 n → Within15 s1 → Within15 s2 →
    (-32768 ≤ (mixSum0 n s1 s2).toInt ∧ (mixSum0 n s1 s2).toInt ≤ 32765) ∧
    (-32768 ≤ (mixSum1 n s1 s2).toInt ∧ (mixSum1 n s1 s2).toInt ≤ 32765) ∧
    pcm (mix0 n s1 s2) = pcm (mixSum0 n s1 s2) ∧ pcm (mix1 n s1 s2) = pcm (mixSum1 n s1 s2)

/-! ## Packets -/

/-- PKT6 completes where its channel exists and the destination has room for six bytes; it makes the three steps of its
fields in order, writes the two bytes of each from the history before the shift, and hands the shifted history back
(41_block_decoders.md section 2; the second byte's formula is the spec's decision D8, the history's roles its D9, the PCM
byte its D10, and the shift of a negative term as its floor its D5, log 14). -/
def Obligations.Pkt6Result : Prop :=
  ∀ (s : State) (a : BitVec 3) (b : BitVec 2) (c : BitVec 3) (o : PktOps), s.hasChannel o.ch = true →
    o.d + 6 ≤ s.spaceSize o.dst.space →
    ∃ t p1 p2 n1 n2 n3, exec (.pkt6 a b c o) s = .next t ∧
      SymbolRelation s.rom (.three a) (s.predictor o.ch) p1 n1 ∧ SymbolRelation s.rom (.two b) p1 p2 n2 ∧
      SymbolRelation s.rom (.three c) p2 (t.predictor o.ch) n3 ∧ t.response = .history n3 n2 ∧
      HoldsByte t o.dst.space o.d (byte0Int n1.toInt o.s1.toInt o.s2.toInt) ∧
      HoldsByte t o.dst.space (o.d + 1) (byte1Int n1.toInt o.s1.toInt o.s2.toInt) ∧
      HoldsByte t o.dst.space (o.d + 2) (byte0Int n2.toInt n1.toInt o.s1.toInt) ∧
      HoldsByte t o.dst.space (o.d + 3) (byte1Int n2.toInt n1.toInt o.s1.toInt) ∧
      HoldsByte t o.dst.space (o.d + 4) (byte0Int n3.toInt n2.toInt n1.toInt) ∧
      HoldsByte t o.dst.space (o.d + 5) (byte1Int n3.toInt n2.toInt n1.toInt)

/-- PKT3 completes where its channel exists and the destination has room for six bytes; it makes the six steps of its
fields in the order SYM_ORDER3 gives, writes one byte for each, carries `s1` and leaves `s2 = Temp - asr(Temp, 3)` of the
last (41_block_decoders.md section 3; the symbol's datapath is the spec's decision D11, the order its D12, and the shift
of a negative `Temp` as its floor its D5, log 14). -/
def Obligations.Pkt3Result : Prop :=
  ∀ (s : State) (a : BitVec 3) (b : BitVec 2) (c d : BitVec 3) (e : BitVec 2) (f : BitVec 3) (o : PktOps),
    s.hasChannel o.ch = true → o.d + 6 ≤ s.spaceSize o.dst.space →
    ∃ t p1 p2 p3 p4 p5 n1 n2 n3 n4 n5 n6 s2, exec (.pkt3 a b c d e f o) s = .next t ∧
      SymbolRelation s.rom (.three (if s.symOrder3 = .msbFirst then a else c)) (s.predictor o.ch) p1 n1 ∧
      SymbolRelation s.rom (.two b) p1 p2 n2 ∧
      SymbolRelation s.rom (.three (if s.symOrder3 = .msbFirst then c else a)) p2 p3 n3 ∧
      SymbolRelation s.rom (.three (if s.symOrder3 = .msbFirst then d else f)) p3 p4 n4 ∧
      SymbolRelation s.rom (.two e) p4 p5 n5 ∧
      SymbolRelation s.rom (.three (if s.symOrder3 = .msbFirst then f else d)) p5 (t.predictor o.ch) n6 ∧
      t.response = .history o.s1 s2 ∧ s2.toInt = n6.toInt - n6.toInt / 8 ∧
      HoldsByte t o.dst.space o.d (pcmInt n1.toInt) ∧ HoldsByte t o.dst.space (o.d + 1) (pcmInt n2.toInt) ∧
      HoldsByte t o.dst.space (o.d + 2) (pcmInt n3.toInt) ∧ HoldsByte t o.dst.space (o.d + 3) (pcmInt n4.toInt) ∧
      HoldsByte t o.dst.space (o.d + 4) (pcmInt n5.toInt) ∧ HoldsByte t o.dst.space (o.d + 5) (pcmInt n6.toInt)

/-- A packet operation whose destination has no room for its six bytes stops with a fault at the first offset outside and
writes nothing; the spec's entry states no check, so that it stops is the model's choice (log 10). -/
def Obligations.PacketWithoutRoomFaults : Prop :=
  ∀ (s : State) (o : PktOps), s.hasChannel o.ch = true → s.spaceSize o.dst.space < o.d + 6 →
    (∀ a b c, exec (.pkt6 a b c o) s = .fault (.outsideSpace o.dst.space (max o.d (s.spaceSize o.dst.space)))) ∧
    ∀ a b c d e f, exec (.pkt3 a b c d e f o) s =
      .fault (.outsideSpace o.dst.space (max o.d (s.spaceSize o.dst.space)))

/-- PKT6 and PKT3 change the Predictor State of their channel but for sample1 and sample2, and the six bytes at the
destination offset, and nothing else (R145, R148). -/
def Obligations.PacketFrame : Prop :=
  ∀ (s t : State) (o : PktOps) (i : Instr),
    (∃ a b c, i = .pkt6 a b c o) ∨ (∃ a b c d e f, i = .pkt3 a b c d e f o) → exec i s = .next t →
    (t.predictor o.ch).sample1 = (s.predictor o.ch).sample1 ∧ (t.predictor o.ch).sample2 = (s.predictor o.ch).sample2 ∧
    t.predictor (other o.ch) = s.predictor (other o.ch) ∧ SameBytesOutside s t o.dst.space o.d 6 ∧
    SameSession s t ∧ SameSetting s t

/-! ## Blocks -/

/-- BLOCK6 and BLOCK3 complete wherever their operands are within the contract, for any number of packets and any channel
count (41_block_decoders.md section 4, R150, R151, R158; the contract is the spec's decision D18, and where the source
bytes of a BLOCK3 lie is its decision D13, log 16). -/
def Obligations.BlocksComplete : Prop :=
  (∀ (s : State) (o : BlockOps), Block6Contract o s → ∃ t, exec (.block6 o) s = .next t) ∧
  (∀ (s : State) (o : BlockOps), Block3Contract o s → ∃ t, exec (.block3 o) s = .next t)

/-- BLOCK6 does what its pseudocode says. With no packets it leaves everything as it is; a BLOCK6 of `n + 1` packets is the
PKT6 of the byte at the channel's offset, with the history loaded from sample1 and sample2, then, with the history it
hands back persisted, the BLOCK6 of the `n` packets after it, `cc` bytes on in the source and six in the destination
(R150). -/
def Obligations.Block6FollowsItsPseudocode : Prop :=
  (∀ (s : State) (o : BlockOps), Block6Contract { o with n := 0 } s → exec (.block6 { o with n := 0 }) s = .next s) ∧
  (∀ (s : State) (o : BlockOps) (n : Nat) (x : Byte), Block6Contract { o with n := n + 1 } s →
    s.byteAt o.src.space (o.b + (o.ci - 1)) = some x →
    ∃ t f rest s1 s2, decodePacket6 [x] = .ok (f, rest) ∧
      exec (.pkt6 f.a f.b f.c ⟨o.ch, (s.predictor o.ch).sample1, (s.predictor o.ch).sample2, o.dst, o.d⟩) s = .next t ∧
      t.response = .history s1 s2 ∧
      exec (.block6 { o with n := n + 1 }) s =
        exec (.block6 { o with n := n, b := o.b + o.cc, d := o.d + 6 })
          ((t.setPredictor o.ch { t.predictor o.ch with sample1 := s1, sample2 := s2 }).respond s.response))

/-- A BLOCK3 of `n + 1` packets is the PKT3 of the two bytes at the channel's offset, then the BLOCK3 of the rest (R151;
the stride is the spec's decision D13). -/
def Obligations.Block3IsPkt3ThenTheRest : Prop :=
  ∀ (s : State) (o : BlockOps) (n : Nat) (x y : Byte), Block3Contract { o with n := n + 1 } s →
    s.byteAt o.src.space (o.b + 2 * (o.ci - 1)) = some x → s.byteAt o.src.space (o.b + 2 * (o.ci - 1) + 1) = some y →
    ∃ t f g rest s1 s2, decodePacket3 [x, y] = .ok ((f, g), rest) ∧
      exec (.pkt3 f.a f.b f.c g.a g.b g.c
        ⟨o.ch, (s.predictor o.ch).sample1, (s.predictor o.ch).sample2, o.dst, o.d⟩) s = .next t ∧
      t.response = .history s1 s2 ∧
      exec (.block3 { o with n := n + 1 }) s =
        exec (.block3 { o with n := n, b := o.b + 2 * o.cc, d := o.d + 6 })
          ((t.setPredictor o.ch { t.predictor o.ch with sample1 := s1, sample2 := s2 }).respond s.response)

/-- A block decode of no packets leaves everything as it is (41_block_decoders.md section 4, derived there). -/
def Obligations.BlockOfNoPacketsChangesNothing : Prop :=
  ∀ (s : State) (o : BlockOps), o.n = 0 → 1 ≤ o.ci → o.ci ≤ o.cc → o.ch.number = o.ci → s.hasChannel o.ch = true →
    exec (.block6 o) s = .next s ∧ exec (.block3 o) s = .next s

/-- Decoding `n1 + n2` packets in one block decode gives the state that decoding the first `n1` and then, from the state
that leaves, the next `n2` gives, with the offsets advanced by `n1` packets (41_block_decoders.md section 4, derived
there; that a channel's two bytes of MACE3 are adjacent, which the stride of BLOCK3 and its contract show, is the spec's
decision D13, log 16). -/
def Obligations.BlockConcatenation : Prop :=
  (∀ (s : State) (o : BlockOps) (n1 n2 : Nat), Block6Contract { o with n := n1 + n2 } s →
    ∃ t, exec (.block6 { o with n := n1 }) s = .next t ∧
      exec (.block6 { o with n := n1 + n2 }) s =
        exec (.block6 { o with n := n2, b := o.b + n1 * o.cc, d := o.d + 6 * n1 }) t) ∧
  (∀ (s : State) (o : BlockOps) (n1 n2 : Nat), Block3Contract { o with n := n1 + n2 } s →
    ∃ t, exec (.block3 { o with n := n1 }) s = .next t ∧
      exec (.block3 { o with n := n1 + n2 }) s =
        exec (.block3 { o with n := n2, b := o.b + 2 * (n1 * o.cc), d := o.d + 6 * n1 }) t)

/-- A block decode writes its channel's Predictor State and its `6n` destination bytes and nothing else (R154). -/
def Obligations.BlockFrame : Prop :=
  ∀ (s t : State) (o : BlockOps) (i : Instr), i = .block6 o ∨ i = .block3 o → exec i s = .next t →
    t.predictor (other o.ch) = s.predictor (other o.ch) ∧ SameBytesOutside s t o.dst.space o.d (6 * o.n) ∧
    (∀ k < 6 * o.n, (t.byteAt o.dst.space (o.d + k)).isSome = true) ∧
    t.response = s.response ∧ SameSession s t ∧ SameSetting s t

/-- Same Predictor State and same bytes of the channel give the same output bytes and the same Predictor State,
whatever else differs: the other channel's state and bytes, the session, the caches, what the destination held (R154 and
41_block_decoders.md section 4, the channel independence derived there; which bytes are a channel's in BLOCK3 is the
spec's decision D13, log 16). -/
def Obligations.BlockReadsOnlyItsChannel : Prop :=
  (∀ (s s' t t' : State) (o : BlockOps), exec (.block6 o) s = .next t → exec (.block6 o) s' = .next t' →
    s'.rom = s.rom → s'.predictor o.ch = s.predictor o.ch →
    (∀ p < o.n, s'.byteAt o.src.space (offset6 o p) = s.byteAt o.src.space (offset6 o p)) →
    t'.predictor o.ch = t.predictor o.ch ∧
    ∀ k < 6 * o.n, t'.byteAt o.dst.space (o.d + k) = t.byteAt o.dst.space (o.d + k)) ∧
  (∀ (s s' t t' : State) (o : BlockOps), exec (.block3 o) s = .next t → exec (.block3 o) s' = .next t' →
    s'.rom = s.rom → s'.symOrder3 = s.symOrder3 → s'.predictor o.ch = s.predictor o.ch →
    (∀ p < o.n, s'.byteAt o.src.space (offset3 o p) = s.byteAt o.src.space (offset3 o p) ∧
      s'.byteAt o.src.space (offset3 o p + 1) = s.byteAt o.src.space (offset3 o p + 1)) →
    t'.predictor o.ch = t.predictor o.ch ∧
    ∀ k < 6 * o.n, t'.byteAt o.dst.space (o.d + k) = t.byteAt o.dst.space (o.d + k))

/-- What is outside the contract has no meaning (the spec's decision D18): a channel index outside `1 .. channel_count`,
a Predictor State that is not that channel's, a source or destination too short (where the last byte of a BLOCK3 lies is
the spec's decision D13, log 16). That a channel index of 3 or more within the channel count, for which there is no
Predictor State, is refused as one that is not that channel's is the model's deduction (log 26, DEDUCED). That a datapath
operation on PS[2] is refused in a mono session is the model's reading of "right unused when mono" (log 12). -/
def Obligations.OutsideTheContractIsRefused : Prop :=
  (∀ (s : State) (o : BlockOps), ¬ (1 ≤ o.ci ∧ o.ci ≤ o.cc) →
    exec (.block6 o) s = .refused (.channelIndexOutOfRange o.cc o.ci) ∧
    exec (.block3 o) s = .refused (.channelIndexOutOfRange o.cc o.ci)) ∧
  (∀ (s : State) (o : BlockOps), 1 ≤ o.ci → o.ci ≤ o.cc → o.ch.number ≠ o.ci →
    exec (.block6 o) s = .refused (.predictorOfAnotherChannel o.ch o.ci) ∧
    exec (.block3 o) s = .refused (.predictorOfAnotherChannel o.ch o.ci)) ∧
  (∀ (s : State) (o : BlockOps), 1 ≤ o.ci → o.ci ≤ o.cc → o.ch.number = o.ci → s.hasChannel o.ch = true → o.n ≠ 0 →
    (s.spaceSize o.src.space ≤ offset6 o (o.n - 1) → exec (.block6 o) s = .refused .sourceTooShort) ∧
    (s.spaceSize o.src.space ≤ offset3 o (o.n - 1) + 1 → exec (.block3 o) s = .refused .sourceTooShort) ∧
    (offset6 o (o.n - 1) < s.spaceSize o.src.space → s.spaceSize o.dst.space < o.d + 6 * o.n →
      exec (.block6 o) s = .refused .destinationTooShort) ∧
    (offset3 o (o.n - 1) + 1 < s.spaceSize o.src.space → s.spaceSize o.dst.space < o.d + 6 * o.n →
      exec (.block3 o) s = .refused .destinationTooShort)) ∧
  (∀ s : State, s.channels = .mono →
    (∀ a, exec (.step3 a .right) s = .refused .rightChannelWhenMono) ∧
    (∀ a, exec (.step2 a .right) s = .refused .rightChannelWhenMono) ∧
    (∀ a b c (o : PktOps), o.ch = .right → exec (.pkt6 a b c o) s = .refused .rightChannelWhenMono) ∧
    (∀ a b c d e f (o : PktOps), o.ch = .right →
      exec (.pkt3 a b c d e f o) s = .refused .rightChannelWhenMono) ∧
    ∀ q : BlockOps, q.ch = .right → q.ci = 2 → 2 ≤ q.cc →
      exec (.block6 q) s = .refused .rightChannelWhenMono ∧ exec (.block3 q) s = .refused .rightChannelWhenMono)

/-- The interleave puts the left lane at even offsets and the right lane at odd ones (20_memory.md section 2; left first
is the spec's decision D14). -/
def Obligations.InterleavePutsLeftFirst : Prop :=
  ∀ l r : List Byte, l.length = r.length →
    (interleave l r).length = 2 * l.length ∧
    ∀ i < l.length, (interleave l r)[2 * i]? = l[i]? ∧ (interleave l r)[2 * i + 1]? = r[i]?

/-! ## The Streaming Adapter -/

/-- The frame sizes (R170). -/
def Obligations.FrameSizes : Prop :=
  gin .mace6 .mono = 1 ∧ gout .mono = 6 ∧ gin .mace6 .stereo = 2 ∧ gout .stereo = 12 ∧
  gin .mace3 .mono = 2 ∧ gin .mace3 .stereo = 4

/-- Every PROCESS halts after at most seven state executions, from every state, reachable or not
(42_streaming_adapter.md section 4, derived there). -/
def Obligations.ProcessHaltsWithinSevenTurns : Prop :=
  ∀ s : State, exec .process s ≠ .fault .adapterDoesNotHalt

/-- From every consistent session PROCESS completes when the host keeps its duties. It consumes at most what there is and
produces at most what fits; one of the two is used up, so the two conditions exclude each other; the status is the
one of R181's tests, and the totals advance by the counts modulo 2^64 (42_streaming_adapter.md sections 2 and 4; the
status selection is the spec's decision D4, the totals its D16). The session it leaves is consistent, so it can be used
again. -/
def Obligations.ProcessCompletesWithStatus : Prop :=
  ∀ s : State, SessionConsistent s → ProcessAllowed s →
    ∃ t consumed produced status, exec .process s = .next t ∧
      t.response = .process consumed produced status ∧ consumed ≤ s.ilen ∧ produced ≤ s.olen ∧
      (consumed = s.ilen ∨ produced = s.olen) ∧
      (status = .dataStarvation ↔ produced < s.olen) ∧ (status = .bufferTooSmall ↔ consumed < s.ilen) ∧
      (status = .ok ↔ consumed = s.ilen ∧ produced = s.olen) ∧
      t.totalIn.toNat = (s.totalIn.toNat + consumed) % 2 ^ 64 ∧
      t.totalOut.toNat = (s.totalOut.toNat + produced) % 2 ^ 64 ∧
      (∀ k < produced, (t.byteAt .output k).isSome = true) ∧ SessionConsistent t

/-- What a PROCESS leaves alone (20_memory.md sections 1 and 2): every byte of IN, every byte of OUT at an offset from
`produced` on, the configuration, the tables; in a mono session PS[2] and both scratch buffers. -/
def Obligations.ProcessFrame : Prop :=
  ∀ s t : State, exec .process s = .next t →
    SameSetting s t ∧ (∀ a, t.byteAt .input a = s.byteAt .input a) ∧
    (∃ consumed produced status, t.response = .process consumed produced status ∧
      ∀ a, produced ≤ a → t.byteAt .output a = s.byteAt .output a) ∧
    (s.channels = .mono → t.right = s.right ∧ (∀ a, t.byteAt .scratchL a = s.byteAt .scratchL a) ∧
      (∀ a, t.byteAt .scratchR a = s.byteAt .scratchR a))

/-- The bytes of OUT at offsets from `produced` on keep whatever the host's buffer held, and IN is as it was handed over
(70_reset_and_hazards.md section 3, 20_memory.md section 1): a step that issues a PROCESS with both arrays leaves them so. -/
def Obligations.OutputBeyondProducedIsKept : Prop :=
  ∀ (s t : State) (word : List Byte) (lines : HostLines) (h : Handover) (rest : List Transaction),
    s.pending = ⟨.command word, lines, some h⟩ :: rest → decode (.command word) = .ok .process → step s = .next t →
    ∃ consumed produced status, t.response = .process consumed produced status ∧
      (∀ a, produced ≤ a → t.byteAt .output a = h.output[a]?) ∧ ∀ a, t.byteAt .input a = h.input[a]?

/-- A PROCESS carries the session's place in the stream on: where a session stands at `taken` and `given`, after a
PROCESS it stands at `taken` with the consumed bytes and `given` with the produced bytes, so what has been decoded is at
every command the reference decode, frame by frame, of what has been taken (42_streaming_adapter.md sections 2 and 4,
60_exceptions.md section 4; the values rest on the spec's decisions D8, D9, D11 to D14). -/
def Obligations.ProcessContinuesTheStream : Prop :=
  ∀ (s : State) (base : Predictor × Predictor) (taken given : List Byte),
    StreamAt s base taken given → ProcessAllowed s →
    ∃ t consumed produced status ins outs, exec .process s = .next t ∧
      t.response = .process consumed produced status ∧
      readBytes s .input 0 consumed = .ok ins ∧ readBytes t .output 0 produced = .ok outs ∧
      StreamAt t base (taken ++ ins) (given ++ outs)

/-- Chunking invariance (42_streaming_adapter.md section 4, derived there): two runs of PROCESS commands from the same
session in Init, however the input is cut and whatever the output capacities, that consumed the same bytes and have been
drained, delivered the same bytes and left the same Predictor States. -/
def Obligations.ChunkingInvariance : Prop :=
  ∀ (s u u' : State) (hs hs' : List Handover) (ins outs outs' : List Byte),
    s.state = .init → s.cacheSize = 0 → s.lines.breach = none → s.lines.codec = s.codec →
    s.lines.channels = s.channels.number →
    feed hs s = some (u, ins, outs) → feed hs' s = some (u', ins, outs') →
    u.state ≠ .cacheFull → u'.state ≠ .cacheFull →
    outs = outs' ∧ u.left = u'.left ∧ u.right = u'.right

/-- One PROCESS of all of `B` with capacity enough delivers the reference decode of its whole frames and holds the rest in
the input cache, in FillingCache; with no rest it ends in Init (42_streaming_adapter.md section 4; the values rest on the
spec's decisions D8, D9, D11 to D14). -/
def Obligations.OneCommandDecodesTheWholeStream : Prop :=
  ∀ (s : State) (h : Handover), s.state = .init → s.cacheSize = 0 → s.lines.breach = none → ConfigurationStands s →
    h.input.length / s.gin * s.gout ≤ h.output.length →
    ∃ t outs status, exec .process (s.handOver (some h)) = .next t ∧
      t.response = .process h.input.length outs.length status ∧ readBytes t .output 0 outs.length = .ok outs ∧
      outs.length = h.input.length / s.gin * s.gout ∧
      referenceDecode s (s.left, s.right) h.input = ((t.left, t.right), outs) ∧
      t.state = (if h.input.length % s.gin = 0 then .init else .fillingCache) ∧
      t.cacheSize = h.input.length % s.gin ∧
      HeldInput t (h.input.drop (h.input.length / s.gin * s.gin))

/-- Stereo symmetry (41_block_decoders.md section 4, 42_streaming_adapter.md section 2): a stereo PROCESS in Init that
takes `n` whole frames leaves each channel as the block decode of that channel alone with a channel count of two leaves
it, and OUT is the two outputs interleaved, whatever the size of the passes (left first is the spec's decision D14). -/
def Obligations.StereoSymmetry : Prop :=
  ∀ (s : State) (n : Nat) (l r : BlockOps) (tl tr : State), s.state = .init → s.channels = .stereo →
    ProcessAllowed s → s.ilen = n * s.gin → s.olen = n * s.gout →
    l = ⟨.input, 0, .output, 0, n, .left, 2, 1⟩ → r = ⟨.input, 0, .output, 0, n, .right, 2, 2⟩ →
    (s.codec = .mace6 → exec (.block6 l) s = .next tl ∧ exec (.block6 r) s = .next tr) →
    (s.codec = .mace3 → exec (.block3 l) s = .next tl ∧ exec (.block3 r) s = .next tr) →
    ∃ t, exec .process s = .next t ∧ t.response = .process (n * s.gin) (n * s.gout) .ok ∧
      t.left = tl.left ∧ t.right = tr.right ∧
      ∀ k < 6 * n, t.byteAt .output (2 * k) = tl.byteAt .output k ∧ t.byteAt .output (2 * k + 1) = tr.byteAt .output k

/-- Boundary cases of PROCESS (42_streaming_adapter.md section 4, derived there): with no input a command entered in Init
or FillingCache changes nothing; with no output space a command entered in CacheFull consumes nothing and changes
nothing; with neither nothing changes and the status is OK. -/
def Obligations.ProcessAtTheBoundaries : Prop :=
  (∀ s : State, SessionConsistent s → ProcessAllowed s → s.ilen = 0 → s.state = .init ∨ s.state = .fillingCache →
    exec .process s =
      .next { s with response := .process 0 0 (if s.olen = 0 then .ok else .dataStarvation) }) ∧
  (∀ s : State, SessionConsistent s → ProcessAllowed s → s.olen = 0 → s.state = .cacheFull →
    exec .process s =
      .next { s with response := .process 0 0 (if s.ilen = 0 then .ok else .bufferTooSmall) })

/-- With no output space, a command entered in Init with at least a frame of input consumes exactly one frame, decodes it
into the output cache, produces nothing and ends in CacheFull with the whole frame due (42_streaming_adapter.md section 4,
90_conflicts.md C7). -/
def Obligations.NoOutputSpaceTakesOneFrame : Prop :=
  ∀ s : State, SessionConsistent s → ProcessAllowed s → s.olen = 0 → s.state = .init → s.gin ≤ s.ilen →
    ∃ t, exec .process s = .next t ∧
      t.response = .process s.gin 0 (if s.gin < s.ilen then .bufferTooSmall else .ok) ∧
      t.state = .cacheFull ∧ t.cacheSize = s.gout

/-- A PROCESS that has less than a frame of input in Init puts it in the input cache in stream order and asks for more
(R173, R177, R190). -/
def Obligations.PartialFrameIsHeld : Prop :=
  ∀ s : State, SessionConsistent s → ProcessAllowed s → s.state = .init → 0 < s.ilen → s.ilen < s.gin →
    ∃ t, exec .process s = .next t ∧
      t.response = .process s.ilen 0 (if s.olen = 0 then .ok else .dataStarvation) ∧
      t.state = .fillingCache ∧ t.cacheSize = s.ilen ∧ t.left = s.left ∧ t.right = s.right ∧
      SameBytesOutside s t .icache 0 s.ilen ∧ ∀ k < s.ilen, t.byteAt .icache k = s.byteAt .input k

/-- Draining (70_reset_and_hazards.md section 3, derived there): with no input and room for what is due, one PROCESS
delivers every cached byte in the order it was decoded and leaves the session in Init, the predictors unchanged. -/
def Obligations.DrainDeliversEveryCachedByte : Prop :=
  ∀ s : State, SessionConsistent s → ProcessAllowed s → s.state = .cacheFull → s.ilen = 0 → s.cacheSize ≤ s.olen →
    ∃ t status, exec .process s = .next t ∧ t.response = .process 0 s.cacheSize status ∧
      t.state = .init ∧ t.cacheSize = 0 ∧ t.left = s.left ∧ t.right = s.right ∧
      (∀ j < s.cacheSize, t.byteAt .output j = s.byteAt .ocache (s.gout - s.cacheSize + j)) ∧
      SameBytesOutside s t .output 0 s.cacheSize

/-- A PROCESS during which the host breaks a duty has no meaning, nor has a RESET or TOTALS issued over another command,
nor any command but RESET with CODEC or CHANNELS changed without a reset, nor a RESET with CHANNELS neither 1 nor 2
(60_exceptions.md section 6; the spec's decisions D2 and D18). That a changed configuration is refused at TOTALS and NOP
too, and not at PROCESS alone, is the model's deduction (log 6, DEDUCED). -/
def Obligations.BrokenDutiesAreRefused : Prop :=
  (∀ (s : State) (b : Breach), s.lines.breach = some b → exec .process s = .refused (.hostBreach b)) ∧
  (∀ s : State, s.lines.breach = some .commandOverlap →
    exec .reset s = .refused (.hostBreach .commandOverlap) ∧ exec .totals s = .refused (.hostBreach .commandOverlap)) ∧
  (∀ s : State, ¬ ConfigurationStands s →
    (s.lines.breach = none → exec .process s = .refused .configurationChanged) ∧
    (s.lines.breach ≠ some .commandOverlap → exec .totals s = .refused .configurationChanged) ∧
    exec .nop s = .refused .configurationChanged) ∧
  (∀ s : State, s.lines.breach ≠ some .commandOverlap → s.lines.channels ≠ 1 → s.lines.channels ≠ 2 →
    exec .reset s = .refused (.channelsOutOfRange s.lines.channels))

/-! ## The whole machine -/

/-- No operation writes the tables or SYM_ORDER3, and no step does (R38). -/
def Obligations.TablesAreNeverWritten : Prop :=
  (∀ (i : Instr) (s t : State), exec i s = .next t → t.rom = s.rom ∧ t.symOrder3 = s.symOrder3) ∧
  (∀ s t : State, step s = .next t → t.rom = s.rom ∧ t.symOrder3 = s.symOrder3)

/-- In a mono session no operation but RESET reads or writes PS[2]: whatever PS[2] holds, everything else comes out the
same and PS[2] comes out as it went in (R26). -/
def Obligations.RightUnusedWhenMono : Prop :=
  ∀ (i : Instr) (s : State) (p : Predictor), s.channels = .mono → i ≠ .reset →
    exec i { s with right := p } = mapNext (fun t => { t with right := p }) (exec i s)

/-- Which operations write which register of the session (10_state.md section 2): `state`, `cache_size` and the totals only
PROCESS and RESET, CODEC and CHANNELS only RESET, the input cache only PROCESS, the output cache only PROCESS and the
packet and block operations whose destination it is, a Predictor State only RESET, PROCESS and the datapath operations on
its channel. IN is written by none. -/
def Obligations.WhichOperationsWriteTheSession : Prop :=
  ∀ (i : Instr) (s t : State), exec i s = .next t →
    (i ≠ .process → i ≠ .reset → SameSession s t) ∧
    (i ≠ .reset → t.codec = s.codec ∧ t.channels = s.channels) ∧
    (i ≠ .process → ∀ a, t.byteAt .icache a = s.byteAt .icache a) ∧
    (mayWriteOutputCache i = false → ∀ a, t.byteAt .ocache a = s.byteAt .ocache a) ∧
    (∀ ch, mayWritePredictor ch i = false → t.predictor ch = s.predictor ch) ∧
    (∀ a, t.byteAt .input a = s.byteAt .input a)

/-- Every step keeps every byte space in canonical form and inside its size. The sizes are 20_memory.md section 1's; the
form (strictly rising offsets, a byte that nothing has written not listed) is the model's choice (log 9). -/
def Obligations.StepKeepsMemoryCanonical : Prop :=
  ∀ s t : State, MemoryCanonical s → step s = .next t → MemoryCanonical t

/-- Every step keeps the session consistent: `state` is never ProcessCache between commands, `cache_size` is in the range
its state gives it, and the cache bytes it counts are there (10_state.md section 2). -/
def Obligations.StepKeepsSessionConsistent : Prop :=
  ∀ s t : State, SessionConsistent s → step s = .next t → SessionConsistent t

/-- Every step that completes leaves the configuration inputs as the last reset sampled them: a change of CODEC or
CHANNELS goes through a RESET or is refused, also one undone before the next PROCESS (R247; the refusal is the spec's
decision D2). That the refusal meets TOTALS and NOP too is the model's deduction, and that the lines move with the host's
own commands only its choice (log 6). -/
def Obligations.StepKeepsConfiguration : Prop :=
  ∀ s t : State, ConfigurationStands s → step s = .next t →
    ConfigurationStands t ∧
    (t.codec ≠ s.codec ∨ t.channels ≠ s.channels →
      ∃ tr rest, s.pending = tr :: rest ∧ decode tr.request = .ok .reset)

/-- Every step keeps both Predictor States in the ranges a run from reset stays in, for any tables: the wrap-around
of 32 bits is never exercised there (40_coefficient_step.md section 4, derived there). -/
def Obligations.StepKeepsPredictorsInRange : Prop :=
  ∀ s t : State, PredictorInRange s.left → PredictorInRange s.right → step s = .next t →
    PredictorInRange t.left ∧ PredictorInRange t.right

/-- From every consistent session, whatever sequence of steps the host's transactions make, the session they leave is one
from which a PROCESS completes when the host keeps its duties in it (R192). -/
def Obligations.SessionIsReusableIndefinitely : Prop :=
  ∀ s t : State, SessionConsistent s → Relation.ReflTransGen (fun a b : State => step a = .next b) s t →
    ProcessAllowed t → ∃ u, exec .process t = .next u

/-- The reset state meets the invariant (10_state.md section 6). -/
def Obligations.ResetMeetsTheInvariant : Prop := Inv State.reset
end

