-- ==== Sys2Proof/Laws/Arith.lean ====
section
/-! SUPPORT. The integer laws of R111 to R115 and the output byte of R140, in exact integers. -/

namespace Sys2Proof.Laws

open Sys2Proof Sys2Proof.Machine Sys2Proof.Safety

/-- `asr(v, n)` is the floor of `v / 2^n` (R113). -/
theorem toInt_asr (v : I32) (n : Nat) : (asr v n).toInt = v.toInt / 2 ^ n := by
  rw [asr, BitVec.toInt_sshiftRight, Int.shiftRight_eq_div_pow]; norm_cast

/-- Sign extension keeps the value (R111). -/
theorem toInt_sext (t : I16) : (sext t).toInt = t.toInt := BitVec.toInt_signExtend_of_le (by decide)

/-- `min` on signed values. -/
theorem toInt_smin (a b : I32) : (smin a b).toInt = min a.toInt b.toInt := by unfold smin; split <;> omega

/-- `max` on signed values. -/
theorem toInt_smax (a b : I32) : (smax a b).toInt = max a.toInt b.toInt := by unfold smax; split <;> omega

/-- The clamp to plus or minus 0x7FFF (R114). -/
theorem toInt_clamp (v : I32) : (clamp v).toInt = clampInt v.toInt := by
  have h1 : clampLo.toInt = -32767 := by decide
  have h2 : clampHi.toInt = 32767 := by decide
  unfold clamp clampTo clampInt
  split
  · omega
  · split <;> omega

/-- A clamped value is in range. -/
theorem clamp_within (v : I32) : Within15 (clamp v) := by
  rw [Within15, toInt_clamp, clampInt]; omega

/-- Addition wraps (R112). -/
theorem toInt_add' (x y : I32) : (x + y).toInt = wrap (x.toInt + y.toInt) := BitVec.toInt_add x y

/-- Subtraction wraps (R112). -/
theorem toInt_sub' (x y : I32) : (x - y).toInt = wrap (x.toInt - y.toInt) := BitVec.toInt_sub

/-- Multiplication wraps (R112). -/
theorem toInt_mul' (x y : I32) : (x * y).toInt = wrap (x.toInt * y.toInt) := BitVec.toInt_mul x y

/-- Wrapping does nothing inside the range of an `i32`. -/
theorem wrap_of_range {x : Int} (h1 : -2147483648 ≤ x) (h2 : x ≤ 2147483647) : wrap x = x := by
  unfold wrap; rw [Int.bmod_def]; split <;> omega

/-- A wrapped value is an `i32`. -/
theorem wrap_range (x : Int) : -2147483648 ≤ wrap x ∧ wrap x ≤ 2147483647 := by
  unfold wrap; rw [Int.bmod_def]; constructor <;> split <;> omega

/-- Wrapping an intermediate sum does not change the wrapped result. -/
theorem wrap_wrap_sub (x y : Int) : wrap (wrap x - y) = wrap (x - y) := by
  unfold wrap; simp

/-- Wrapping an intermediate sum does not change the wrapped result. -/
theorem wrap_wrap_add (x y : Int) : wrap (wrap x + y) = wrap (x + y) := by
  unfold wrap; simp

/-- An `i32` is in its range. -/
theorem toInt_range (v : I32) : -2147483648 ≤ v.toInt ∧ v.toInt ≤ 2147483647 := by
  have h1 := BitVec.le_toInt v
  have h2 := BitVec.toInt_lt (x := v)
  constructor <;> norm_num at h1 h2 <;> omega

/-- Bit 15 of an `i32`, from its value. -/
theorem getLsbD_15 (v : I32) : v.getLsbD 15 = bit15 v.toInt := by
  have h := v.isLt
  rw [← BitVec.testBit_toNat, Nat.testBit_eq_decide_div_mod_eq, bit15, BitVec.toInt_eq_toNat_cond]
  congr 1
  split <;> (apply propext; omega)

/-- The output byte as a number, for any `i32`: bits 15 to 8 with bit 15 inverted (R140). -/
theorem toNat_pcm (v : I32) : ((pcm v).toNat : Int) = pcmInt v.toInt := by
  have hx : ∀ x : Nat, x < 256 → (x ^^^ 128) = (x + 128) % 256 := by decide +kernel
  have h1 : (pcm v).toNat = ((asr v 8).toNat % 256) ^^^ 128 := by
    unfold pcm
    rw [BitVec.toNat_setWidth, BitVec.toNat_xor, BitVec.toNat_and]
    have h2 : (asr v 8).toNat &&& (0xFF#32).toNat = (asr v 8).toNat % 256 := Nat.and_two_pow_sub_one_eq_mod _ 8
    rw [h2]
    have h3 := hx _ (Nat.mod_lt (asr v 8).toNat (by decide : 0 < 256))
    have h4 : (0x80#32).toNat = 128 := rfl
    rw [h4, h3]; omega
  rw [h1, hx _ (Nat.mod_lt _ (by decide))]
  have h5 : (asr v 8).toInt = v.toInt / 2 ^ 8 := toInt_asr v 8
  rw [BitVec.toInt_eq_toNat_cond] at h5
  have := (asr v 8).isLt
  unfold pcmInt
  have h6 : (v.toInt / 256 : Int) = v.toInt / 2 ^ 8 := by norm_num
  rw [h6, ← h5]
  split <;> omega

end Sys2Proof.Laws
end

