-- ==== Sys2Proof/Laws/State.lean ====
section
/-! SUPPORT. The small lemmas of State's updates: one per field per update, and how the accessors `mem`, `spaceSize`,
`predictor`, `byteAt` see each update, so that no proof unfolds a record update. -/

namespace Sys2Proof.Laws

open Sys2Proof Sys2Proof.Machine

/-! ### Accessors -/

@[simp] theorem mem_input (s : State) : s.mem .input = s.input := rfl
@[simp] theorem mem_output (s : State) : s.mem .output = s.output := rfl
@[simp] theorem mem_icache (s : State) : s.mem .icache = s.icache := rfl
@[simp] theorem mem_ocache (s : State) : s.mem .ocache = s.ocache := rfl
@[simp] theorem mem_scratchL (s : State) : s.mem .scratchL = s.scratchL := rfl
@[simp] theorem mem_scratchR (s : State) : s.mem .scratchR = s.scratchR := rfl
@[simp] theorem predictor_left (s : State) : s.predictor .left = s.left := rfl
@[simp] theorem predictor_right (s : State) : s.predictor .right = s.right := rfl
@[simp] theorem spaceSize_icache (s : State) : s.spaceSize .icache = 4 := rfl
@[simp] theorem spaceSize_ocache (s : State) : s.spaceSize .ocache = 12 := rfl
@[simp] theorem spaceSize_input (s : State) : s.spaceSize .input = s.ilen := rfl
@[simp] theorem spaceSize_output (s : State) : s.spaceSize .output = s.olen := rfl
@[simp] theorem spaceSize_scratchL (s : State) : s.spaceSize .scratchL = 3072 := rfl
@[simp] theorem spaceSize_scratchR (s : State) : s.spaceSize .scratchR = 3072 := rfl
@[simp] theorem dst_space_output : Dst.output.space = .output := rfl
@[simp] theorem dst_space_ocache : Dst.ocache.space = .ocache := rfl
@[simp] theorem dst_space_scratchL : Dst.scratchL.space = .scratchL := rfl
@[simp] theorem dst_space_scratchR : Dst.scratchR.space = .scratchR := rfl
@[simp] theorem src_space_input : Src.input.space = .input := rfl
@[simp] theorem src_space_icache : Src.icache.space = .icache := rfl

/-- A source and a destination are never the same space (R51). -/
theorem src_ne_dst (a : Src) (b : Dst) : a.space ≠ b.space := by cases a <;> cases b <;> decide

/-- Every channel exists in a stereo session. -/
theorem hasChannel_of_stereo {s : State} (h : s.channels = .stereo) (ch : Chan) : s.hasChannel ch = true := by
  simp [State.hasChannel, h]

/-- The left channel always exists. -/
@[simp] theorem hasChannel_left (s : State) : s.hasChannel .left = true := by
  unfold State.hasChannel; cases s.channels <;> rfl

/-- In a mono session the right channel does not exist. -/
theorem hasChannel_right_of_mono {s : State} (h : s.channels = .mono) : s.hasChannel .right = false := by
  simp [State.hasChannel, h]

/-! ### setMem -/

@[simp] theorem setMem_left (s : State) (sp : SpaceName) (m : Memory) : (s.setMem sp m).left = s.left := by cases sp <;> rfl
@[simp] theorem setMem_right (s : State) (sp : SpaceName) (m : Memory) : (s.setMem sp m).right = s.right := by cases sp <;> rfl
@[simp] theorem setMem_state (s : State) (sp : SpaceName) (m : Memory) : (s.setMem sp m).state = s.state := by cases sp <;> rfl
@[simp] theorem setMem_cacheSize (s : State) (sp : SpaceName) (m : Memory) : (s.setMem sp m).cacheSize = s.cacheSize := by cases sp <;> rfl
@[simp] theorem setMem_totalIn (s : State) (sp : SpaceName) (m : Memory) : (s.setMem sp m).totalIn = s.totalIn := by cases sp <;> rfl
@[simp] theorem setMem_totalOut (s : State) (sp : SpaceName) (m : Memory) : (s.setMem sp m).totalOut = s.totalOut := by cases sp <;> rfl
@[simp] theorem setMem_codec (s : State) (sp : SpaceName) (m : Memory) : (s.setMem sp m).codec = s.codec := by cases sp <;> rfl
@[simp] theorem setMem_channels (s : State) (sp : SpaceName) (m : Memory) : (s.setMem sp m).channels = s.channels := by cases sp <;> rfl
@[simp] theorem setMem_rom (s : State) (sp : SpaceName) (m : Memory) : (s.setMem sp m).rom = s.rom := by cases sp <;> rfl
@[simp] theorem setMem_symOrder3 (s : State) (sp : SpaceName) (m : Memory) : (s.setMem sp m).symOrder3 = s.symOrder3 := by cases sp <;> rfl
@[simp] theorem setMem_ilen (s : State) (sp : SpaceName) (m : Memory) : (s.setMem sp m).ilen = s.ilen := by cases sp <;> rfl
@[simp] theorem setMem_olen (s : State) (sp : SpaceName) (m : Memory) : (s.setMem sp m).olen = s.olen := by cases sp <;> rfl
@[simp] theorem setMem_lines (s : State) (sp : SpaceName) (m : Memory) : (s.setMem sp m).lines = s.lines := by cases sp <;> rfl
@[simp] theorem setMem_response (s : State) (sp : SpaceName) (m : Memory) : (s.setMem sp m).response = s.response := by cases sp <;> rfl
@[simp] theorem setMem_pending (s : State) (sp : SpaceName) (m : Memory) : (s.setMem sp m).pending = s.pending := by cases sp <;> rfl
@[simp] theorem setMem_mem_same (s : State) (sp : SpaceName) (m : Memory) : (s.setMem sp m).mem sp = m := by
  cases sp <;> rfl
theorem setMem_mem_ne (s : State) (m : Memory) {sp sp' : SpaceName} (h : sp' ≠ sp) :
    (s.setMem sp m).mem sp' = s.mem sp' := by cases sp <;> cases sp' <;> first | rfl | exact absurd rfl h
@[simp] theorem setMem_self (s : State) (sp : SpaceName) : s.setMem sp (s.mem sp) = s := by cases sp <;> rfl
@[simp] theorem setMem_setMem (s : State) (sp : SpaceName) (m m' : Memory) :
    (s.setMem sp m).setMem sp m' = s.setMem sp m' := by cases sp <;> rfl
@[simp] theorem setMem_predictor (s : State) (sp : SpaceName) (m : Memory) (ch : Chan) :
    (s.setMem sp m).predictor ch = s.predictor ch := by cases sp <;> rfl
@[simp] theorem setMem_spaceSize (s : State) (sp sp' : SpaceName) (m : Memory) :
    (s.setMem sp m).spaceSize sp' = s.spaceSize sp' := by cases sp <;> cases sp' <;> rfl
@[simp] theorem setMem_hasChannel (s : State) (sp : SpaceName) (m : Memory) (ch : Chan) :
    (s.setMem sp m).hasChannel ch = s.hasChannel ch := by cases sp <;> rfl
@[simp] theorem setMem_gin (s : State) (sp : SpaceName) (m : Memory) : (s.setMem sp m).gin = s.gin := by cases sp <;> rfl
@[simp] theorem setMem_gout (s : State) (sp : SpaceName) (m : Memory) : (s.setMem sp m).gout = s.gout := by
  cases sp <;> rfl

/-! ### setPredictor -/

@[simp] theorem setPredictor_state (s : State) (ch : Chan) (p : Predictor) : (s.setPredictor ch p).state = s.state := by
  cases ch <;> rfl
@[simp] theorem setPredictor_cacheSize (s : State) (ch : Chan) (p : Predictor) : (s.setPredictor ch p).cacheSize = s.cacheSize := by
  cases ch <;> rfl
@[simp] theorem setPredictor_icache (s : State) (ch : Chan) (p : Predictor) : (s.setPredictor ch p).icache = s.icache := by
  cases ch <;> rfl
@[simp] theorem setPredictor_ocache (s : State) (ch : Chan) (p : Predictor) : (s.setPredictor ch p).ocache = s.ocache := by
  cases ch <;> rfl
@[simp] theorem setPredictor_totalIn (s : State) (ch : Chan) (p : Predictor) : (s.setPredictor ch p).totalIn = s.totalIn := by
  cases ch <;> rfl
@[simp] theorem setPredictor_totalOut (s : State) (ch : Chan) (p : Predictor) : (s.setPredictor ch p).totalOut = s.totalOut := by
  cases ch <;> rfl
@[simp] theorem setPredictor_codec (s : State) (ch : Chan) (p : Predictor) : (s.setPredictor ch p).codec = s.codec := by
  cases ch <;> rfl
@[simp] theorem setPredictor_channels (s : State) (ch : Chan) (p : Predictor) : (s.setPredictor ch p).channels = s.channels := by
  cases ch <;> rfl
@[simp] theorem setPredictor_rom (s : State) (ch : Chan) (p : Predictor) : (s.setPredictor ch p).rom = s.rom := by
  cases ch <;> rfl
@[simp] theorem setPredictor_symOrder3 (s : State) (ch : Chan) (p : Predictor) : (s.setPredictor ch p).symOrder3 = s.symOrder3 := by
  cases ch <;> rfl
@[simp] theorem setPredictor_scratchL (s : State) (ch : Chan) (p : Predictor) : (s.setPredictor ch p).scratchL = s.scratchL := by
  cases ch <;> rfl
@[simp] theorem setPredictor_scratchR (s : State) (ch : Chan) (p : Predictor) : (s.setPredictor ch p).scratchR = s.scratchR := by
  cases ch <;> rfl
@[simp] theorem setPredictor_input (s : State) (ch : Chan) (p : Predictor) : (s.setPredictor ch p).input = s.input := by
  cases ch <;> rfl
@[simp] theorem setPredictor_ilen (s : State) (ch : Chan) (p : Predictor) : (s.setPredictor ch p).ilen = s.ilen := by
  cases ch <;> rfl
@[simp] theorem setPredictor_output (s : State) (ch : Chan) (p : Predictor) : (s.setPredictor ch p).output = s.output := by
  cases ch <;> rfl
@[simp] theorem setPredictor_olen (s : State) (ch : Chan) (p : Predictor) : (s.setPredictor ch p).olen = s.olen := by
  cases ch <;> rfl
@[simp] theorem setPredictor_lines (s : State) (ch : Chan) (p : Predictor) : (s.setPredictor ch p).lines = s.lines := by
  cases ch <;> rfl
@[simp] theorem setPredictor_response (s : State) (ch : Chan) (p : Predictor) : (s.setPredictor ch p).response = s.response := by
  cases ch <;> rfl
@[simp] theorem setPredictor_pending (s : State) (ch : Chan) (p : Predictor) : (s.setPredictor ch p).pending = s.pending := by
  cases ch <;> rfl
@[simp] theorem setPredictor_predictor_same (s : State) (ch : Chan) (p : Predictor) :
    (s.setPredictor ch p).predictor ch = p := by cases ch <;> rfl
theorem setPredictor_predictor_ne (s : State) (p : Predictor) {ch ch' : Chan} (h : ch' ≠ ch) :
    (s.setPredictor ch p).predictor ch' = s.predictor ch' := by
  cases ch <;> cases ch' <;> first | rfl | exact absurd rfl h
@[simp] theorem setPredictor_self (s : State) (ch : Chan) : s.setPredictor ch (s.predictor ch) = s := by cases ch <;> rfl
@[simp] theorem setPredictor_setPredictor (s : State) (ch : Chan) (p q : Predictor) :
    (s.setPredictor ch p).setPredictor ch q = s.setPredictor ch q := by cases ch <;> rfl
@[simp] theorem setPredictor_mem (s : State) (ch : Chan) (p : Predictor) (sp : SpaceName) :
    (s.setPredictor ch p).mem sp = s.mem sp := by cases ch <;> cases sp <;> rfl
@[simp] theorem setPredictor_byteAt (s : State) (ch : Chan) (p : Predictor) (sp : SpaceName) (a : Nat) :
    (s.setPredictor ch p).byteAt sp a = s.byteAt sp a := by simp [State.byteAt]
@[simp] theorem setPredictor_spaceSize (s : State) (ch : Chan) (p : Predictor) (sp : SpaceName) :
    (s.setPredictor ch p).spaceSize sp = s.spaceSize sp := by cases ch <;> cases sp <;> rfl
@[simp] theorem setPredictor_hasChannel (s : State) (ch ch' : Chan) (p : Predictor) :
    (s.setPredictor ch p).hasChannel ch' = s.hasChannel ch' := by cases ch <;> rfl
@[simp] theorem setPredictor_gin (s : State) (ch : Chan) (p : Predictor) : (s.setPredictor ch p).gin = s.gin := by
  cases ch <;> rfl
@[simp] theorem setPredictor_gout (s : State) (ch : Chan) (p : Predictor) : (s.setPredictor ch p).gout = s.gout := by
  cases ch <;> rfl
/-- Registers and byte spaces are apart. -/
theorem setPredictor_setMem (s : State) (ch : Chan) (p : Predictor) (sp : SpaceName) (m : Memory) :
    (s.setMem sp m).setPredictor ch p = (s.setPredictor ch p).setMem sp m := by cases ch <;> cases sp <;> rfl

/-! ### The host's hand-over and the issue of a transaction -/

@[simp] theorem handOver_left (s : State) (h : Option Handover) : (s.handOver h).left = s.left := by cases h <;> rfl
@[simp] theorem handOver_right (s : State) (h : Option Handover) : (s.handOver h).right = s.right := by cases h <;> rfl
@[simp] theorem handOver_state (s : State) (h : Option Handover) : (s.handOver h).state = s.state := by cases h <;> rfl
@[simp] theorem handOver_cacheSize (s : State) (h : Option Handover) : (s.handOver h).cacheSize = s.cacheSize := by cases h <;> rfl
@[simp] theorem handOver_icache (s : State) (h : Option Handover) : (s.handOver h).icache = s.icache := by cases h <;> rfl
@[simp] theorem handOver_ocache (s : State) (h : Option Handover) : (s.handOver h).ocache = s.ocache := by cases h <;> rfl
@[simp] theorem handOver_totalIn (s : State) (h : Option Handover) : (s.handOver h).totalIn = s.totalIn := by cases h <;> rfl
@[simp] theorem handOver_totalOut (s : State) (h : Option Handover) : (s.handOver h).totalOut = s.totalOut := by cases h <;> rfl
@[simp] theorem handOver_codec (s : State) (h : Option Handover) : (s.handOver h).codec = s.codec := by cases h <;> rfl
@[simp] theorem handOver_channels (s : State) (h : Option Handover) : (s.handOver h).channels = s.channels := by cases h <;> rfl
@[simp] theorem handOver_rom (s : State) (h : Option Handover) : (s.handOver h).rom = s.rom := by cases h <;> rfl
@[simp] theorem handOver_symOrder3 (s : State) (h : Option Handover) : (s.handOver h).symOrder3 = s.symOrder3 := by cases h <;> rfl
@[simp] theorem handOver_scratchL (s : State) (h : Option Handover) : (s.handOver h).scratchL = s.scratchL := by cases h <;> rfl
@[simp] theorem handOver_scratchR (s : State) (h : Option Handover) : (s.handOver h).scratchR = s.scratchR := by cases h <;> rfl
@[simp] theorem handOver_lines (s : State) (h : Option Handover) : (s.handOver h).lines = s.lines := by cases h <;> rfl
@[simp] theorem handOver_response (s : State) (h : Option Handover) : (s.handOver h).response = s.response := by cases h <;> rfl
@[simp] theorem handOver_pending (s : State) (h : Option Handover) : (s.handOver h).pending = s.pending := by cases h <;> rfl
@[simp] theorem handOver_none (s : State) : s.handOver none = s := rfl
@[simp] theorem handOver_some_input (s : State) (h : Handover) :
    (s.handOver (some h)).input = Memory.ofBytes h.input := rfl
@[simp] theorem handOver_some_ilen (s : State) (h : Handover) : (s.handOver (some h)).ilen = h.input.length := rfl
@[simp] theorem handOver_some_output (s : State) (h : Handover) :
    (s.handOver (some h)).output = Memory.ofBytes h.output := rfl
@[simp] theorem handOver_some_olen (s : State) (h : Handover) : (s.handOver (some h)).olen = h.output.length := rfl

@[simp] theorem issue_left (s : State) (t : Transaction) (rest : List Transaction) :
    (s.issue t rest).left = s.left := by simp [State.issue]
@[simp] theorem issue_right (s : State) (t : Transaction) (rest : List Transaction) :
    (s.issue t rest).right = s.right := by simp [State.issue]
@[simp] theorem issue_state (s : State) (t : Transaction) (rest : List Transaction) :
    (s.issue t rest).state = s.state := by simp [State.issue]
@[simp] theorem issue_cacheSize (s : State) (t : Transaction) (rest : List Transaction) :
    (s.issue t rest).cacheSize = s.cacheSize := by simp [State.issue]
@[simp] theorem issue_icache (s : State) (t : Transaction) (rest : List Transaction) :
    (s.issue t rest).icache = s.icache := by simp [State.issue]
@[simp] theorem issue_ocache (s : State) (t : Transaction) (rest : List Transaction) :
    (s.issue t rest).ocache = s.ocache := by simp [State.issue]
@[simp] theorem issue_totalIn (s : State) (t : Transaction) (rest : List Transaction) :
    (s.issue t rest).totalIn = s.totalIn := by simp [State.issue]
@[simp] theorem issue_totalOut (s : State) (t : Transaction) (rest : List Transaction) :
    (s.issue t rest).totalOut = s.totalOut := by simp [State.issue]
@[simp] theorem issue_codec (s : State) (t : Transaction) (rest : List Transaction) :
    (s.issue t rest).codec = s.codec := by simp [State.issue]
@[simp] theorem issue_channels (s : State) (t : Transaction) (rest : List Transaction) :
    (s.issue t rest).channels = s.channels := by simp [State.issue]
@[simp] theorem issue_rom (s : State) (t : Transaction) (rest : List Transaction) :
    (s.issue t rest).rom = s.rom := by simp [State.issue]
@[simp] theorem issue_symOrder3 (s : State) (t : Transaction) (rest : List Transaction) :
    (s.issue t rest).symOrder3 = s.symOrder3 := by simp [State.issue]
@[simp] theorem issue_scratchL (s : State) (t : Transaction) (rest : List Transaction) :
    (s.issue t rest).scratchL = s.scratchL := by simp [State.issue]
@[simp] theorem issue_scratchR (s : State) (t : Transaction) (rest : List Transaction) :
    (s.issue t rest).scratchR = s.scratchR := by simp [State.issue]
@[simp] theorem issue_input (s : State) (t : Transaction) (rest : List Transaction) :
    (s.issue t rest).input = (s.handOver t.handover).input := by simp [State.issue]
@[simp] theorem issue_ilen (s : State) (t : Transaction) (rest : List Transaction) :
    (s.issue t rest).ilen = (s.handOver t.handover).ilen := by simp [State.issue]
@[simp] theorem issue_output (s : State) (t : Transaction) (rest : List Transaction) :
    (s.issue t rest).output = (s.handOver t.handover).output := by simp [State.issue]
@[simp] theorem issue_olen (s : State) (t : Transaction) (rest : List Transaction) :
    (s.issue t rest).olen = (s.handOver t.handover).olen := by simp [State.issue]
@[simp] theorem issue_response (s : State) (t : Transaction) (rest : List Transaction) :
    (s.issue t rest).response = s.response := by simp [State.issue]
@[simp] theorem issue_lines (s : State) (t : Transaction) (rest : List Transaction) :
    (s.issue t rest).lines = s.linesFor t := rfl
theorem linesFor_command {s : State} {t : Transaction} (h : t.request.isCommand = true) : s.linesFor t = t.lines := by
  simp [State.linesFor, h]
theorem linesFor_own {s : State} {t : Transaction} (h : t.request.isCommand = false) : s.linesFor t = s.lines := by
  simp [State.linesFor, h]
@[simp] theorem issue_pending (s : State) (t : Transaction) (rest : List Transaction) :
    (s.issue t rest).pending = rest := rfl

/-! ### The report that ends a PROCESS -/

@[simp] theorem report_left (s : State) (c : Cursor) : (report s c).left = s.left := rfl
@[simp] theorem report_right (s : State) (c : Cursor) : (report s c).right = s.right := rfl
@[simp] theorem report_state (s : State) (c : Cursor) : (report s c).state = s.state := rfl
@[simp] theorem report_cacheSize (s : State) (c : Cursor) : (report s c).cacheSize = s.cacheSize := rfl
@[simp] theorem report_icache (s : State) (c : Cursor) : (report s c).icache = s.icache := rfl
@[simp] theorem report_ocache (s : State) (c : Cursor) : (report s c).ocache = s.ocache := rfl
@[simp] theorem report_codec (s : State) (c : Cursor) : (report s c).codec = s.codec := rfl
@[simp] theorem report_channels (s : State) (c : Cursor) : (report s c).channels = s.channels := rfl
@[simp] theorem report_rom (s : State) (c : Cursor) : (report s c).rom = s.rom := rfl
@[simp] theorem report_symOrder3 (s : State) (c : Cursor) : (report s c).symOrder3 = s.symOrder3 := rfl
@[simp] theorem report_scratchL (s : State) (c : Cursor) : (report s c).scratchL = s.scratchL := rfl
@[simp] theorem report_scratchR (s : State) (c : Cursor) : (report s c).scratchR = s.scratchR := rfl
@[simp] theorem report_input (s : State) (c : Cursor) : (report s c).input = s.input := rfl
@[simp] theorem report_ilen (s : State) (c : Cursor) : (report s c).ilen = s.ilen := rfl
@[simp] theorem report_output (s : State) (c : Cursor) : (report s c).output = s.output := rfl
@[simp] theorem report_olen (s : State) (c : Cursor) : (report s c).olen = s.olen := rfl
@[simp] theorem report_lines (s : State) (c : Cursor) : (report s c).lines = s.lines := rfl
@[simp] theorem report_pending (s : State) (c : Cursor) : (report s c).pending = s.pending := rfl
@[simp] theorem report_totalIn (s : State) (c : Cursor) : (report s c).totalIn = s.totalIn + BitVec.ofNat 64 c.ic := rfl
@[simp] theorem report_totalOut (s : State) (c : Cursor) : (report s c).totalOut = s.totalOut + BitVec.ofNat 64 c.oc := rfl
@[simp] theorem report_gin (s : State) (c : Cursor) : (report s c).gin = s.gin := rfl
@[simp] theorem report_gout (s : State) (c : Cursor) : (report s c).gout = s.gout := rfl
@[simp] theorem report_response (s : State) (c : Cursor) :
    (report s c).response = .process c.ic c.oc (statusOf c.ic s.ilen c.oc s.olen) := rfl
@[simp] theorem report_mem (s : State) (c : Cursor) (sp : SpaceName) : (report s c).mem sp = s.mem sp := by
  cases sp <;> rfl
@[simp] theorem report_byteAt (s : State) (c : Cursor) (sp : SpaceName) (a : Nat) :
    (report s c).byteAt sp a = s.byteAt sp a := by simp [State.byteAt]
@[simp] theorem report_spaceSize (s : State) (c : Cursor) (sp : SpaceName) :
    (report s c).spaceSize sp = s.spaceSize sp := by cases sp <;> rfl

/-! ### The session's reset -/

@[simp] theorem resetSession_icache (c : Codec) (chs : Channels) (s : State) : (resetSession c chs s).icache = s.icache := rfl
@[simp] theorem resetSession_ocache (c : Codec) (chs : Channels) (s : State) : (resetSession c chs s).ocache = s.ocache := rfl
@[simp] theorem resetSession_rom (c : Codec) (chs : Channels) (s : State) : (resetSession c chs s).rom = s.rom := rfl
@[simp] theorem resetSession_symOrder3 (c : Codec) (chs : Channels) (s : State) : (resetSession c chs s).symOrder3 = s.symOrder3 := rfl
@[simp] theorem resetSession_scratchL (c : Codec) (chs : Channels) (s : State) : (resetSession c chs s).scratchL = s.scratchL := rfl
@[simp] theorem resetSession_scratchR (c : Codec) (chs : Channels) (s : State) : (resetSession c chs s).scratchR = s.scratchR := rfl
@[simp] theorem resetSession_input (c : Codec) (chs : Channels) (s : State) : (resetSession c chs s).input = s.input := rfl
@[simp] theorem resetSession_ilen (c : Codec) (chs : Channels) (s : State) : (resetSession c chs s).ilen = s.ilen := rfl
@[simp] theorem resetSession_output (c : Codec) (chs : Channels) (s : State) : (resetSession c chs s).output = s.output := rfl
@[simp] theorem resetSession_olen (c : Codec) (chs : Channels) (s : State) : (resetSession c chs s).olen = s.olen := rfl
@[simp] theorem resetSession_lines (c : Codec) (chs : Channels) (s : State) : (resetSession c chs s).lines = s.lines := rfl
@[simp] theorem resetSession_pending (c : Codec) (chs : Channels) (s : State) : (resetSession c chs s).pending = s.pending := rfl
@[simp] theorem resetSession_left (c : Codec) (chs : Channels) (s : State) : (resetSession c chs s).left = Predictor.zero := rfl
@[simp] theorem resetSession_right (c : Codec) (chs : Channels) (s : State) : (resetSession c chs s).right = Predictor.zero := rfl
@[simp] theorem resetSession_state (c : Codec) (chs : Channels) (s : State) : (resetSession c chs s).state = .init := rfl
@[simp] theorem resetSession_cacheSize (c : Codec) (chs : Channels) (s : State) : (resetSession c chs s).cacheSize = 0 := rfl
@[simp] theorem resetSession_totalIn (c : Codec) (chs : Channels) (s : State) : (resetSession c chs s).totalIn = 0 := rfl
@[simp] theorem resetSession_totalOut (c : Codec) (chs : Channels) (s : State) : (resetSession c chs s).totalOut = 0 := rfl
@[simp] theorem resetSession_codec (c : Codec) (chs : Channels) (s : State) : (resetSession c chs s).codec = c := rfl
@[simp] theorem resetSession_channels (c : Codec) (chs : Channels) (s : State) : (resetSession c chs s).channels = chs := rfl
@[simp] theorem resetSession_response (c : Codec) (chs : Channels) (s : State) : (resetSession c chs s).response = .none := rfl
@[simp] theorem resetSession_mem (c : Codec) (chs : Channels) (s : State) (sp : SpaceName) :
    (resetSession c chs s).mem sp = s.mem sp := by cases sp <;> rfl
@[simp] theorem resetSession_byteAt (c : Codec) (chs : Channels) (s : State) (sp : SpaceName) (a : Nat) :
    (resetSession c chs s).byteAt sp a = s.byteAt sp a := by simp [State.byteAt]

/-! ### What an operation hands back -/

@[simp] theorem respond_left (s : State) (r : Response) : (s.respond r).left = s.left := rfl
@[simp] theorem respond_right (s : State) (r : Response) : (s.respond r).right = s.right := rfl
@[simp] theorem respond_state (s : State) (r : Response) : (s.respond r).state = s.state := rfl
@[simp] theorem respond_cacheSize (s : State) (r : Response) : (s.respond r).cacheSize = s.cacheSize := rfl
@[simp] theorem respond_icache (s : State) (r : Response) : (s.respond r).icache = s.icache := rfl
@[simp] theorem respond_ocache (s : State) (r : Response) : (s.respond r).ocache = s.ocache := rfl
@[simp] theorem respond_totalIn (s : State) (r : Response) : (s.respond r).totalIn = s.totalIn := rfl
@[simp] theorem respond_totalOut (s : State) (r : Response) : (s.respond r).totalOut = s.totalOut := rfl
@[simp] theorem respond_codec (s : State) (r : Response) : (s.respond r).codec = s.codec := rfl
@[simp] theorem respond_channels (s : State) (r : Response) : (s.respond r).channels = s.channels := rfl
@[simp] theorem respond_rom (s : State) (r : Response) : (s.respond r).rom = s.rom := rfl
@[simp] theorem respond_symOrder3 (s : State) (r : Response) : (s.respond r).symOrder3 = s.symOrder3 := rfl
@[simp] theorem respond_scratchL (s : State) (r : Response) : (s.respond r).scratchL = s.scratchL := rfl
@[simp] theorem respond_scratchR (s : State) (r : Response) : (s.respond r).scratchR = s.scratchR := rfl
@[simp] theorem respond_input (s : State) (r : Response) : (s.respond r).input = s.input := rfl
@[simp] theorem respond_ilen (s : State) (r : Response) : (s.respond r).ilen = s.ilen := rfl
@[simp] theorem respond_output (s : State) (r : Response) : (s.respond r).output = s.output := rfl
@[simp] theorem respond_olen (s : State) (r : Response) : (s.respond r).olen = s.olen := rfl
@[simp] theorem respond_lines (s : State) (r : Response) : (s.respond r).lines = s.lines := rfl
@[simp] theorem respond_response (s : State) (r : Response) : (s.respond r).response = r := rfl
@[simp] theorem respond_pending (s : State) (r : Response) : (s.respond r).pending = s.pending := rfl
@[simp] theorem respond_mem (s : State) (r : Response) (sp : SpaceName) : (s.respond r).mem sp = s.mem sp := by
  cases sp <;> rfl
@[simp] theorem respond_byteAt (s : State) (r : Response) (sp : SpaceName) (a : Nat) :
    (s.respond r).byteAt sp a = s.byteAt sp a := by simp [State.byteAt]
@[simp] theorem respond_spaceSize (s : State) (r : Response) (sp : SpaceName) :
    (s.respond r).spaceSize sp = s.spaceSize sp := by cases sp <;> rfl
@[simp] theorem respond_predictor (s : State) (r : Response) (ch : Chan) :
    (s.respond r).predictor ch = s.predictor ch := by cases ch <;> rfl
@[simp] theorem respond_hasChannel (s : State) (r : Response) (ch : Chan) :
    (s.respond r).hasChannel ch = s.hasChannel ch := rfl
@[simp] theorem respond_gin (s : State) (r : Response) : (s.respond r).gin = s.gin := rfl
@[simp] theorem respond_gout (s : State) (r : Response) : (s.respond r).gout = s.gout := rfl

/-! ### The adapter's count -/

@[simp] theorem setCacheSize_left (s : State) (n : Nat) : (s.setCacheSize n).left = s.left := rfl
@[simp] theorem setCacheSize_right (s : State) (n : Nat) : (s.setCacheSize n).right = s.right := rfl
@[simp] theorem setCacheSize_state (s : State) (n : Nat) : (s.setCacheSize n).state = s.state := rfl
@[simp] theorem setCacheSize_cacheSize (s : State) (n : Nat) : (s.setCacheSize n).cacheSize = n := rfl
@[simp] theorem setCacheSize_icache (s : State) (n : Nat) : (s.setCacheSize n).icache = s.icache := rfl
@[simp] theorem setCacheSize_ocache (s : State) (n : Nat) : (s.setCacheSize n).ocache = s.ocache := rfl
@[simp] theorem setCacheSize_totalIn (s : State) (n : Nat) : (s.setCacheSize n).totalIn = s.totalIn := rfl
@[simp] theorem setCacheSize_totalOut (s : State) (n : Nat) : (s.setCacheSize n).totalOut = s.totalOut := rfl
@[simp] theorem setCacheSize_codec (s : State) (n : Nat) : (s.setCacheSize n).codec = s.codec := rfl
@[simp] theorem setCacheSize_channels (s : State) (n : Nat) : (s.setCacheSize n).channels = s.channels := rfl
@[simp] theorem setCacheSize_rom (s : State) (n : Nat) : (s.setCacheSize n).rom = s.rom := rfl
@[simp] theorem setCacheSize_symOrder3 (s : State) (n : Nat) : (s.setCacheSize n).symOrder3 = s.symOrder3 := rfl
@[simp] theorem setCacheSize_scratchL (s : State) (n : Nat) : (s.setCacheSize n).scratchL = s.scratchL := rfl
@[simp] theorem setCacheSize_scratchR (s : State) (n : Nat) : (s.setCacheSize n).scratchR = s.scratchR := rfl
@[simp] theorem setCacheSize_input (s : State) (n : Nat) : (s.setCacheSize n).input = s.input := rfl
@[simp] theorem setCacheSize_ilen (s : State) (n : Nat) : (s.setCacheSize n).ilen = s.ilen := rfl
@[simp] theorem setCacheSize_output (s : State) (n : Nat) : (s.setCacheSize n).output = s.output := rfl
@[simp] theorem setCacheSize_olen (s : State) (n : Nat) : (s.setCacheSize n).olen = s.olen := rfl
@[simp] theorem setCacheSize_lines (s : State) (n : Nat) : (s.setCacheSize n).lines = s.lines := rfl
@[simp] theorem setCacheSize_response (s : State) (n : Nat) : (s.setCacheSize n).response = s.response := rfl
@[simp] theorem setCacheSize_pending (s : State) (n : Nat) : (s.setCacheSize n).pending = s.pending := rfl
@[simp] theorem setCacheSize_mem (s : State) (n : Nat) (sp : SpaceName) : (s.setCacheSize n).mem sp = s.mem sp := by
  cases sp <;> rfl
@[simp] theorem setCacheSize_byteAt (s : State) (n : Nat) (sp : SpaceName) (a : Nat) :
    (s.setCacheSize n).byteAt sp a = s.byteAt sp a := by simp [State.byteAt]
@[simp] theorem setCacheSize_spaceSize (s : State) (n : Nat) (sp : SpaceName) :
    (s.setCacheSize n).spaceSize sp = s.spaceSize sp := by cases sp <;> rfl
@[simp] theorem setCacheSize_predictor (s : State) (n : Nat) (ch : Chan) :
    (s.setCacheSize n).predictor ch = s.predictor ch := by cases ch <;> rfl
@[simp] theorem setCacheSize_hasChannel (s : State) (n : Nat) (ch : Chan) :
    (s.setCacheSize n).hasChannel ch = s.hasChannel ch := rfl
@[simp] theorem setCacheSize_gin (s : State) (n : Nat) : (s.setCacheSize n).gin = s.gin := rfl
@[simp] theorem setCacheSize_gout (s : State) (n : Nat) : (s.setCacheSize n).gout = s.gout := rfl

/-! ### The adapter's count and state -/

@[simp] theorem setAdapter_left (s : State) (n : Nat) (q : AdapterState) : (s.setAdapter n q).left = s.left := rfl
@[simp] theorem setAdapter_right (s : State) (n : Nat) (q : AdapterState) : (s.setAdapter n q).right = s.right := rfl
@[simp] theorem setAdapter_state (s : State) (n : Nat) (q : AdapterState) : (s.setAdapter n q).state = q := rfl
@[simp] theorem setAdapter_cacheSize (s : State) (n : Nat) (q : AdapterState) : (s.setAdapter n q).cacheSize = n := rfl
@[simp] theorem setAdapter_icache (s : State) (n : Nat) (q : AdapterState) : (s.setAdapter n q).icache = s.icache := rfl
@[simp] theorem setAdapter_ocache (s : State) (n : Nat) (q : AdapterState) : (s.setAdapter n q).ocache = s.ocache := rfl
@[simp] theorem setAdapter_totalIn (s : State) (n : Nat) (q : AdapterState) : (s.setAdapter n q).totalIn = s.totalIn := rfl
@[simp] theorem setAdapter_totalOut (s : State) (n : Nat) (q : AdapterState) : (s.setAdapter n q).totalOut = s.totalOut := rfl
@[simp] theorem setAdapter_codec (s : State) (n : Nat) (q : AdapterState) : (s.setAdapter n q).codec = s.codec := rfl
@[simp] theorem setAdapter_channels (s : State) (n : Nat) (q : AdapterState) : (s.setAdapter n q).channels = s.channels := rfl
@[simp] theorem setAdapter_rom (s : State) (n : Nat) (q : AdapterState) : (s.setAdapter n q).rom = s.rom := rfl
@[simp] theorem setAdapter_symOrder3 (s : State) (n : Nat) (q : AdapterState) : (s.setAdapter n q).symOrder3 = s.symOrder3 := rfl
@[simp] theorem setAdapter_scratchL (s : State) (n : Nat) (q : AdapterState) : (s.setAdapter n q).scratchL = s.scratchL := rfl
@[simp] theorem setAdapter_scratchR (s : State) (n : Nat) (q : AdapterState) : (s.setAdapter n q).scratchR = s.scratchR := rfl
@[simp] theorem setAdapter_input (s : State) (n : Nat) (q : AdapterState) : (s.setAdapter n q).input = s.input := rfl
@[simp] theorem setAdapter_ilen (s : State) (n : Nat) (q : AdapterState) : (s.setAdapter n q).ilen = s.ilen := rfl
@[simp] theorem setAdapter_output (s : State) (n : Nat) (q : AdapterState) : (s.setAdapter n q).output = s.output := rfl
@[simp] theorem setAdapter_olen (s : State) (n : Nat) (q : AdapterState) : (s.setAdapter n q).olen = s.olen := rfl
@[simp] theorem setAdapter_lines (s : State) (n : Nat) (q : AdapterState) : (s.setAdapter n q).lines = s.lines := rfl
@[simp] theorem setAdapter_response (s : State) (n : Nat) (q : AdapterState) : (s.setAdapter n q).response = s.response := rfl
@[simp] theorem setAdapter_pending (s : State) (n : Nat) (q : AdapterState) : (s.setAdapter n q).pending = s.pending := rfl
@[simp] theorem setAdapter_mem (s : State) (n : Nat) (q : AdapterState) (sp : SpaceName) : (s.setAdapter n q).mem sp = s.mem sp := by
  cases sp <;> rfl
@[simp] theorem setAdapter_byteAt (s : State) (n : Nat) (q : AdapterState) (sp : SpaceName) (a : Nat) :
    (s.setAdapter n q).byteAt sp a = s.byteAt sp a := by simp [State.byteAt]
@[simp] theorem setAdapter_spaceSize (s : State) (n : Nat) (q : AdapterState) (sp : SpaceName) :
    (s.setAdapter n q).spaceSize sp = s.spaceSize sp := by cases sp <;> rfl
@[simp] theorem setAdapter_predictor (s : State) (n : Nat) (q : AdapterState) (ch : Chan) :
    (s.setAdapter n q).predictor ch = s.predictor ch := by cases ch <;> rfl
@[simp] theorem setAdapter_hasChannel (s : State) (n : Nat) (q : AdapterState) (ch : Chan) :
    (s.setAdapter n q).hasChannel ch = s.hasChannel ch := rfl
@[simp] theorem setAdapter_gin (s : State) (n : Nat) (q : AdapterState) : (s.setAdapter n q).gin = s.gin := rfl
@[simp] theorem setAdapter_gout (s : State) (n : Nat) (q : AdapterState) : (s.setAdapter n q).gout = s.gout := rfl

end Sys2Proof.Laws
end

