-- ==== Sys2Proof/Laws/Memory.lean ====
section
/-! SUPPORT. What the operations over byte spaces can do: one byte, a list of bytes, and the canonical form. -/

namespace Sys2Proof.Laws

open Sys2Proof Sys2Proof.Machine

/-! ### One byte -/

@[simp] theorem read_nil (a : Nat) : Memory.read [] a = none := rfl

/-- A read after a write: the byte written at its offset, every other byte as before. -/
theorem read_write (m : Memory) (a b : Nat) (v : Byte) :
    (Memory.write m a v).read b = if b = a then some v else m.read b := by
  induction m with
  | nil => simp [Memory.write, Memory.read, eq_comm]
  | cons c m ih =>
    obtain ⟨k, x⟩ := c
    by_cases h1 : a < k
    · simp [Memory.write, h1, Memory.read, eq_comm]
    · by_cases h2 : a = k
      · subst h2
        by_cases h3 : b = a
        · simp [Memory.write, Memory.read, h3]
        · simp [Memory.write, Memory.read, h3, Ne.symm h3]
      · simp only [Memory.write, h1, h2, if_false, Memory.read, ih]
        by_cases h3 : k = b
        · have h4 : b ≠ a := by omega
          simp [h3, h4]
        · simp [h3]

/-- The offsets of a written memory are the offset written and the old ones. -/
theorem mem_write {m : Memory} {a : Nat} {v : Byte} {c : Host.Cell} (h : c ∈ Memory.write m a v) :
    c = (a, v) ∨ c ∈ m := by
  induction m with
  | nil => simpa [Memory.write] using h
  | cons d m ih =>
    obtain ⟨k, x⟩ := d
    simp only [Memory.write] at h
    split at h
    · simpa using h
    · split at h
      · rcases List.mem_cons.1 h with h | h
        · exact .inl h
        · exact .inr (List.mem_cons_of_mem _ h)
      · rcases List.mem_cons.1 h with h | h
        · exact .inr (by simp [h])
        · rcases ih h with h | h
          · exact .inl h
          · exact .inr (List.mem_cons_of_mem _ h)

/-- A write keeps the canonical form. -/
theorem write_wf {m : Memory} (h : Memory.wf m) (a : Nat) (v : Byte) : Memory.wf (Memory.write m a v) := by
  induction m with
  | nil => simp [Memory.wf, Memory.write]
  | cons d m ih =>
    obtain ⟨k, x⟩ := d
    rw [Memory.wf, List.pairwise_cons] at h
    simp only [Memory.write]
    split
    · rename_i hk
      refine List.Pairwise.cons ?_ (List.Pairwise.cons h.1 h.2)
      intro c hc
      rcases List.mem_cons.1 hc with rfl | hc
      · exact hk
      · exact lt_trans hk (h.1 c hc)
    · split
      · rename_i _ hk
        exact List.Pairwise.cons (fun c hc => hk ▸ h.1 c hc) h.2
      · rename_i hk1 hk2
        refine List.Pairwise.cons ?_ (ih h.2)
        intro c hc
        rcases mem_write hc with rfl | hc
        · show k < a; omega
        · exact h.1 c hc

/-! ### Lists of bytes -/

@[simp] theorem writeList_nil (m : Memory) (a : Nat) : Memory.writeList m a [] = m := rfl

/-- Writing two lists one after the other is writing their concatenation. -/
theorem writeList_append (m : Memory) (a : Nat) (xs ys : List Byte) :
    Memory.writeList m a (xs ++ ys) = Memory.writeList (Memory.writeList m a xs) (a + xs.length) ys := by
  induction xs generalizing m a with
  | nil => simp
  | cons x xs ih => simp only [List.cons_append, Memory.writeList, ih, List.length_cons]; congr 1; omega

/-- A read after writing a list: the list's byte inside it, every other byte as before. -/
theorem read_writeList (m : Memory) (a b : Nat) (vs : List Byte) :
    (Memory.writeList m a vs).read b = if a ≤ b ∧ b < a + vs.length then vs[b - a]? else m.read b := by
  induction vs generalizing m a with
  | nil =>
    simp
  | cons v vs ih =>
    simp only [Memory.writeList, ih, read_write, List.length_cons]
    by_cases h1 : a + 1 ≤ b ∧ b < a + 1 + vs.length
    · have h2 : a ≤ b ∧ b < a + (vs.length + 1) := by omega
      have h3 : b - a = (b - (a + 1)) + 1 := by omega
      simp [h1, h2, h3]
    · by_cases h4 : b = a
      · simp [h4]
      · have h2 : ¬ (a ≤ b ∧ b < a + (vs.length + 1)) := by omega
        rw [if_neg h1, if_neg h2, if_neg h4]

/-- Writing a list keeps the canonical form. -/
theorem writeList_wf {m : Memory} (h : Memory.wf m) (a : Nat) (vs : List Byte) : Memory.wf (Memory.writeList m a vs) := by
  induction vs generalizing m a with
  | nil => exact h
  | cons v vs ih => exact ih (write_wf h a v) (a + 1)

/-- The offsets after writing a list are old ones and the list's. -/
theorem mem_writeList {m : Memory} {a : Nat} {vs : List Byte} {c : Host.Cell} (h : c ∈ Memory.writeList m a vs) :
    c ∈ m ∨ (a ≤ c.1 ∧ c.1 < a + vs.length) := by
  induction vs generalizing m a with
  | nil => exact .inl h
  | cons v vs ih =>
    rcases ih h with h | h
    · rcases mem_write h with rfl | h
      · exact .inr ⟨le_rfl, by simp⟩
      · exact .inl h
    · exact .inr (by simp only [List.length_cons]; omega)

/-- The bytes of a space filled from offset 0 on. -/
theorem read_ofBytes (vs : List Byte) (a : Nat) : (Memory.ofBytes vs).read a = vs[a]? := by
  rw [Memory.ofBytes, read_writeList]
  by_cases h : a < vs.length
  · simp [h]
  · simp [h]

/-- A space the host fills is canonical. -/
theorem ofBytes_wf (vs : List Byte) : Memory.wf (Memory.ofBytes vs) := writeList_wf List.Pairwise.nil 0 vs

/-- A space the host fills lists offsets below the number of bytes. -/
theorem mem_ofBytes {vs : List Byte} {c : Host.Cell} (h : c ∈ Memory.ofBytes vs) : c.1 < vs.length := by
  rcases mem_writeList h with h | h
  · cases h
  · omega

/-! ### Reads of a state -/

/-- A one-byte read answers exactly the byte the space holds inside its size. -/
theorem readByte_ok {s : State} {sp : SpaceName} {a : Nat} {v : Byte} :
    readByte s sp a = .ok v ↔ a < s.spaceSize sp ∧ s.byteAt sp a = some v := by
  unfold readByte
  split
  · rename_i h
    cases hb : s.byteAt sp a <;> simp [h]
  · rename_i h
    simp [h]

/-- Reading `n` bytes answers exactly the `n` bytes the space holds there. -/
theorem readBytes_ok {s : State} {sp : SpaceName} {a n : Nat} {vs : List Byte} :
    readBytes s sp a n = .ok vs ↔
      vs.length = n ∧ ∀ j < n, a + j < s.spaceSize sp ∧ s.byteAt sp (a + j) = vs[j]? := by
  induction n generalizing a vs with
  | zero =>
    simp only [readBytes]
    constructor
    · intro h; injection h with h; subst h; simp
    · intro h; rw [List.length_eq_zero_iff.1 h.1]
  | succ n ih =>
    simp only [readBytes]
    constructor
    · intro h
      split at h
      · cases h
      · rename_i v hv
        split at h
        · cases h
        · rename_i ws hw
          injection h with h
          subst h
          obtain ⟨hl, hj⟩ := ih.1 hw
          refine ⟨by simp [hl], fun j hj' => ?_⟩
          cases j with
          | zero => simpa using readByte_ok.1 hv
          | succ j =>
            have := hj j (by omega)
            rw [show a + 1 + j = a + (j + 1) by omega] at this
            simpa using this
    · rintro ⟨hl, hj⟩
      cases vs with
      | nil => simp at hl
      | cons v ws =>
        have h0 := hj 0 (by omega)
        have hv : readByte s sp a = .ok v := readByte_ok.2 (by simpa using h0)
        have hw : readBytes s sp (a + 1) n = .ok ws := by
          refine ih.2 ⟨by simpa using hl, fun j hj' => ?_⟩
          have := hj (j + 1) (by omega)
          rw [show a + (j + 1) = a + 1 + j by omega] at this
          simpa using this
        simp [hv, hw]

/-- Bytes that are there can be read. -/
theorem readBytes_total {s : State} {sp : SpaceName} {a n : Nat}
    (h : ∀ j < n, a + j < s.spaceSize sp ∧ (s.byteAt sp (a + j)).isSome = true) :
    ∃ vs, readBytes s sp a n = .ok vs := by
  induction n generalizing a with
  | zero => exact ⟨[], rfl⟩
  | succ n ih =>
    obtain ⟨h1, h2⟩ := h 0 (by omega)
    obtain ⟨v, hv⟩ := Option.isSome_iff_exists.1 h2
    obtain ⟨ws, hw⟩ := ih (a := a + 1) (fun j hj => by
      have := h (j + 1) (by omega)
      rwa [show a + (j + 1) = a + 1 + j by omega] at this)
    have hv' : readByte s sp a = .ok v := readByte_ok.2 ⟨by simpa using h1, by simpa using hv⟩
    exact ⟨v :: ws, by simp [readBytes, hv', hw]⟩

/-- A read sees only the bytes it reads and the size of the space. -/
theorem readBytes_congr {s t : State} {sp sp' : SpaceName} {a a' n : Nat}
    (h : ∀ j < n, readByte t sp' (a' + j) = readByte s sp (a + j)) : readBytes t sp' a' n = readBytes s sp a n := by
  induction n generalizing a a' with
  | zero => rfl
  | succ n ih =>
    have h0 := h 0 (by omega)
    have h1 := ih (a := a + 1) (a' := a' + 1) (fun j hj => by
      have := h (j + 1) (by omega)
      rwa [show a + (j + 1) = a + 1 + j by omega, show a' + (j + 1) = a' + 1 + j by omega] at this)
    simp only [Nat.add_zero] at h0
    simp only [readBytes, h0, h1]

/-! ### Writes of a state -/

/-- Writing bytes answers the state with exactly those bytes written, where they fit. -/
theorem writeBytes_ok {s t : State} {sp : SpaceName} {a : Nat} {vs : List Byte} :
    writeBytes s sp a vs = .ok t ↔
      (vs.length = 0 ∨ a + vs.length ≤ s.spaceSize sp) ∧ t = s.setMem sp (Memory.writeList (s.mem sp) a vs) := by
  unfold writeBytes
  by_cases h : vs.length = 0 ∨ a + vs.length ≤ s.spaceSize sp
  · rw [if_pos h, Except.ok.injEq]
    exact ⟨fun e => ⟨h, e.symm⟩, fun e => e.2.symm⟩
  · rw [if_neg h]
    exact ⟨fun e => (nomatch e), fun e => absurd e.1 h⟩

/-- The bytes after a write. -/
theorem byteAt_setMem_writeList (s : State) (sp sp' : SpaceName) (a b : Nat) (vs : List Byte) :
    (s.setMem sp (Memory.writeList (s.mem sp) a vs)).byteAt sp' b =
      if sp' = sp ∧ a ≤ b ∧ b < a + vs.length then vs[b - a]? else s.byteAt sp' b := by
  unfold State.byteAt
  by_cases h : sp' = sp
  · subst h; simp [read_writeList]
  · simp [setMem_mem_ne s _ h, h]

/-- The bytes of a space after its memory is replaced: other spaces keep theirs. -/
theorem byteAt_setMem_ne (s : State) (m : Memory) {sp sp' : SpaceName} (h : sp' ≠ sp) (b : Nat) :
    (s.setMem sp m).byteAt sp' b = s.byteAt sp' b := by simp [State.byteAt, setMem_mem_ne s m h]

end Sys2Proof.Laws
end

