-- ==== Sys2Proof/Laws/Datapath.lean ====
section
/-! SUPPORT. What the symbol, packet and block operations can do: one lemma per shared operation saying exactly when it
answers and what. -/

namespace Sys2Proof.Laws

open Sys2Proof Sys2Proof.Machine Sys2Proof.Safety

/-! ### Outcomes -/

/-- A meaning answers a next state exactly when its operation answers that state. -/
@[simp] theorem outcome_next {r : Run State} {t : State} : outcome r = .next t ↔ r = .ok t := by
  rcases r with (_ | _) | s <;> simp [outcome]

/-- A meaning faults exactly when its operation does. -/
@[simp] theorem outcome_fault {r : Run State} {f : Fault} : outcome r = .fault f ↔ r = .error (.fault f) := by
  rcases r with (_ | _) | s <;> simp [outcome]

/-- A meaning refuses exactly when its operation does. -/
@[simp] theorem outcome_refused {r : Run State} {f : Refusal} :
    outcome r = .refused f ↔ r = .error (.refused f) := by
  rcases r with (_ | _) | s <;> simp [outcome]

/-- Meanings of one shape differ only in their operations. -/
theorem outcome_ok (t : State) : outcome (.ok t) = .next t := rfl

/-! ### Symbols -/

/-- A symbol operation answers exactly where its channel exists, with the stepped Predictor State and the sample. -/
theorem runSymbol_ok {step : Predictor → Predictor × I32} {ch : Chan} {s t : State} :
    runSymbol step ch s = .ok t ↔ s.hasChannel ch = true ∧
      t = (s.setPredictor ch (step (s.predictor ch)).1).respond (.sample (step (s.predictor ch)).2) := by
  unfold runSymbol
  by_cases h : s.hasChannel ch = true
  · simp [h, eq_comm]
  · simp [h]

/-- A step leaves sample1 and sample2 (R118). -/
theorem coefficientStep_samples (reply : I16 × I16) (ps : Predictor) :
    (coefficientStep reply ps).1.sample1 = ps.sample1 ∧ (coefficientStep reply ps).1.sample2 = ps.sample2 :=
  ⟨rfl, rfl⟩

/-- A step stores what it returns (R118 step 7). -/
theorem coefficientStep_lastStep (reply : I16 × I16) (ps : Predictor) :
    (coefficientStep reply ps).1.lastStep = (coefficientStep reply ps).2 := rfl

/-- What a step returns is clamped (R118 step 5). -/
theorem coefficientStep_within (reply : I16 × I16) (ps : Predictor) : Within15 (coefficientStep reply ps).2 :=
  clamp_within _

/-- Every symbol is one Coefficient Step from one table reply (R116). -/
theorem stepSymbol_eq (t : Tables) (sym : Symbol) (ps : Predictor) :
    ∃ reply, stepSymbol t sym ps = coefficientStep reply ps := by
  cases sym with
  | three code => exact ⟨_, rfl⟩
  | two code => exact ⟨_, rfl⟩

/-! ### Items decoded one after the other -/

@[simp] theorem runAll_nil {σ α : Type} (f : σ → α → σ × List Byte) (w : σ) : runAll f w [] = (w, []) := rfl

@[simp] theorem runAll_cons {σ α : Type} (f : σ → α → σ × List Byte) (w : σ) (x : α) (xs : List α) :
    runAll f w (x :: xs) = ((runAll f (f w x).1 xs).1, (f w x).2 ++ (runAll f (f w x).1 xs).2) := rfl

/-- Decoding a concatenation is decoding the first part and then, from what that leaves, the second. -/
theorem runAll_append {σ α : Type} (f : σ → α → σ × List Byte) (w : σ) (xs ys : List α) :
    runAll f w (xs ++ ys) = ((runAll f (runAll f w xs).1 ys).1, (runAll f w xs).2 ++ (runAll f (runAll f w xs).1 ys).2) := by
  induction xs generalizing w with
  | nil => rfl
  | cons x xs ih => simp [ih]

/-- If every item gives `k` bytes, `n` items give `k * n`. -/
theorem runAll_length {σ α : Type} {f : σ → α → σ × List Byte} {k : Nat} {P : α → Prop}
    (h : ∀ w x, P x → (f w x).2.length = k) (w : σ) (xs : List α) (hx : ∀ x ∈ xs, P x) :
    (runAll f w xs).2.length = k * xs.length := by
  induction xs generalizing w with
  | nil => simp
  | cons x xs ih =>
    have h1 := h w x (hx x (by simp))
    have h2 := ih (f w x).1 (fun y hy => hx y (by simp [hy]))
    simp only [runAll_cons, List.length_append, h1, h2, List.length_cons]; ring

/-- What every item keeps, a list of items keeps. -/
theorem runAll_keeps {σ α : Type} {f : σ → α → σ × List Byte} {I : σ → Prop}
    (h : ∀ w x, I w → I (f w x).1) {w : σ} (hw : I w) (xs : List α) : I (runAll f w xs).1 := by
  induction xs generalizing w with
  | nil => exact hw
  | cons x xs ih => exact ih (h w x hw)

/-- Output bytes of one symbol. -/
def bytesPerSymbol : Codec → Nat
  | .mace6 => 2
  | .mace3 => 1

/-- A symbol gives its codec's number of bytes (R145, R146). -/
theorem codecSymbol_length (codec : Codec) (t : Tables) (w : Working) (sym : Symbol) :
    (codecSymbol codec t w sym).2.length = bytesPerSymbol codec := by cases codec <;> rfl

/-- A byte has three symbols (R80, R81). -/
theorem orderedSymbols_length (codec : Codec) (order : SymOrder) (x : Byte) :
    (orderedSymbols codec order x).length = 3 := by cases codec <;> cases order <;> rfl

/-- A packet's bytes have three symbols each. -/
theorem flatMap_symbols_length (codec : Codec) (order : SymOrder) (bytes : List Byte) :
    (bytes.flatMap (orderedSymbols codec order)).length = 3 * bytes.length := by
  induction bytes with
  | nil => rfl
  | cons x xs ih => rw [List.flatMap_cons, List.length_append, ih, orderedSymbols_length, List.length_cons]; ring

/-- A packet gives six bytes (R80, R81). -/
theorem packet_length {codec : Codec} {bytes : List Byte} (h : bytes.length = packetBytes codec) (order : SymOrder)
    (t : Tables) (w : Working) : (packet codec order t w bytes).2.length = 6 := by
  unfold packet
  rw [runAll_length (k := bytesPerSymbol codec) (P := fun _ => True)
    (fun w x _ => codecSymbol_length codec t w x) w _ (fun _ _ => trivial), flatMap_symbols_length, h]
  cases codec <;> rfl

/-- A packet never touches the two sample fields of the Predictor State (R145, R148). -/
theorem packet_samples (codec : Codec) (order : SymOrder) (t : Tables) (w : Working) (bytes : List Byte) :
    (packet codec order t w bytes).1.ps.sample1 = w.ps.sample1 ∧
      (packet codec order t w bytes).1.ps.sample2 = w.ps.sample2 := by
  unfold packet
  refine runAll_keeps (I := fun v : Working => v.ps.sample1 = w.ps.sample1 ∧ v.ps.sample2 = w.ps.sample2)
    (fun v sym hv => ?_) ⟨rfl, rfl⟩ _
  obtain ⟨reply, hr⟩ := stepSymbol_eq t sym v.ps
  cases codec <;> simp only [codecSymbol, mace6Symbol, mace3Symbol, hr] <;> exact hv

/-- A packet operation answers exactly where its channel exists and the destination has room. -/
theorem runPacket_ok {codec : Codec} {bytes : List Byte} {o : PktOps} {s t : State}
    (hb : bytes.length = packetBytes codec) :
    runPacket codec bytes o s = .ok t ↔
      s.hasChannel o.ch = true ∧ o.d + 6 ≤ s.spaceSize o.dst.space ∧
      ∃ r, r = packet codec s.symOrder3 s.rom ⟨s.predictor o.ch, o.s1, o.s2⟩ bytes ∧
        t = ((s.setMem o.dst.space (Memory.writeList (s.mem o.dst.space) o.d r.2)).setPredictor o.ch r.1.ps).respond
          (.history r.1.s1 r.1.s2) := by
  unfold runPacket
  by_cases h : s.hasChannel o.ch = true
  · simp only [h, if_true, true_and]
    have hl := packet_length hb s.symOrder3 s.rom ⟨s.predictor o.ch, o.s1, o.s2⟩
    by_cases hd : o.d + 6 ≤ s.spaceSize o.dst.space
    · rw [writeBytes_ok.2 ⟨.inr (by rw [hl]; exact hd), rfl⟩]
      simp [hd, eq_comm]
    · cases hw : writeBytes s o.dst.space o.d
        (packet codec s.symOrder3 s.rom ⟨s.predictor o.ch, o.s1, o.s2⟩ bytes).2 with
      | error e => simp [hd]
      | ok s' => rw [writeBytes_ok, hl] at hw; omega
  · simp [h]

/-! ### Blocks -/

/-- Packets decoded from a Predictor State, none of them. -/
theorem decodePackets_nil (codec : Codec) (order : SymOrder) (t : Tables) (ps : Predictor) :
    decodePackets codec order t ps [] = (ps, []) := rfl

/-- Decoding packets in two parts (R156): the history is persisted and loaded again in between, unchanged. -/
theorem decodePackets_append (codec : Codec) (order : SymOrder) (t : Tables) (ps : Predictor) (xs ys : List (List Byte)) :
    decodePackets codec order t ps (xs ++ ys) =
      ((decodePackets codec order t (decodePackets codec order t ps xs).1 ys).1,
       (decodePackets codec order t ps xs).2 ++
         (decodePackets codec order t (decodePackets codec order t ps xs).1 ys).2) := by
  have key : ∀ (zs : List (List Byte)) (w : Working),
      (runAll (packet codec order t) (loadHistory (storeHistory w)) zs).2 = (runAll (packet codec order t) w zs).2 ∧
      storeHistory (runAll (packet codec order t) (loadHistory (storeHistory w)) zs).1 =
        storeHistory (runAll (packet codec order t) w zs).1 := by
    intro zs
    have same : ∀ (v w : Working) (x : List Byte), v.s1 = w.s1 → v.s2 = w.s2 →
        { v.ps with sample1 := 0, sample2 := 0 } = { w.ps with sample1 := 0, sample2 := 0 } →
        (packet codec order t v x).2 = (packet codec order t w x).2 ∧
        (packet codec order t v x).1.s1 = (packet codec order t w x).1.s1 ∧
        (packet codec order t v x).1.s2 = (packet codec order t w x).1.s2 ∧
        { (packet codec order t v x).1.ps with sample1 := 0, sample2 := 0 } =
          { (packet codec order t w x).1.ps with sample1 := 0, sample2 := 0 } := by
      intro v w x
      unfold packet
      generalize x.flatMap (orderedSymbols codec order) = syms
      induction syms generalizing v w with
      | nil => intro h1 h2 h3; exact ⟨rfl, h1, h2, h3⟩
      | cons sym syms ih =>
        intro h1 h2 h3
        obtain ⟨⟨a1, a2, a3, a4, a5, a6⟩, va, vb⟩ := v
        obtain ⟨⟨b1, b2, b3, b4, b5, b6⟩, wa, wb⟩ := w
        simp only [Predictor.mk.injEq, and_true] at h1 h2 h3
        obtain ⟨rfl, rfl, rfl, rfl⟩ := h3
        subst h1 h2
        have := ih (codecSymbol codec t ⟨⟨a1, a2, a3, a4, a5, a6⟩, va, vb⟩ sym).1
          (codecSymbol codec t ⟨⟨a1, a2, a3, a4, b5, b6⟩, va, vb⟩ sym).1
          (by cases codec <;> cases sym <;> rfl) (by cases codec <;> cases sym <;> rfl)
          (by cases codec <;> cases sym <;> rfl)
        refine ⟨?_, this.2⟩
        have h0 : (codecSymbol codec t ⟨⟨a1, a2, a3, a4, a5, a6⟩, va, vb⟩ sym).2 =
            (codecSymbol codec t ⟨⟨a1, a2, a3, a4, b5, b6⟩, va, vb⟩ sym).2 := by cases codec <;> cases sym <;> rfl
        simp only [runAll_cons, h0, this.1]
    have gen : ∀ (v w : Working), v.s1 = w.s1 → v.s2 = w.s2 →
        { v.ps with sample1 := 0, sample2 := 0 } = { w.ps with sample1 := 0, sample2 := 0 } →
        (runAll (packet codec order t) v zs).2 = (runAll (packet codec order t) w zs).2 ∧
        storeHistory (runAll (packet codec order t) v zs).1 = storeHistory (runAll (packet codec order t) w zs).1 := by
      induction zs with
      | nil =>
        intro v w h1 h2 h3
        refine ⟨rfl, ?_⟩
        simp only [Predictor.mk.injEq, and_true] at h3
        simp only [runAll_nil, storeHistory, h1, h2, Predictor.mk.injEq, and_true]
        exact h3
      | cons z zs ih =>
        intro v w h1 h2 h3
        obtain ⟨e0, e1, e2, e3⟩ := same v w z h1 h2 h3
        obtain ⟨f0, f1⟩ := ih _ _ e1 e2 e3
        exact ⟨by simp only [runAll_cons, e0, f0], f1⟩
    exact fun w => gen _ _ rfl rfl rfl
  have k := key ys (runAll (packet codec order t) (loadHistory ps) xs).1
  simp only [decodePackets, runAll_append]
  exact Prod.ext k.2.symm (by simp only; rw [k.1])

/-- Packets of the right width give six bytes each. -/
theorem decodePackets_length {codec : Codec} {packets : List (List Byte)}
    (h : ∀ x ∈ packets, x.length = packetBytes codec) (order : SymOrder) (t : Tables) (ps : Predictor) :
    (decodePackets codec order t ps packets).2.length = 6 * packets.length :=
  runAll_length (P := fun x : List Byte => x.length = packetBytes codec)
    (fun w _ hx => packet_length hx order t w) _ _ h

/-- The packets read are `n`, each of the codec's width, with the bytes at the channel's offsets. -/
theorem readPackets_ok {codec : Codec} {o : BlockOps} {s : State} {p n : Nat} {xs : List (List Byte)} :
    readPackets codec o s p n = .ok xs ↔
      xs.length = n ∧ ∀ q < n, ∃ x, xs[q]? = some x ∧
        readBytes s o.src.space (packetOffset codec o.b o.cc o.ci (p + q)) (packetBytes codec) = .ok x := by
  induction n generalizing p xs with
  | zero =>
    simp only [readPackets]
    constructor
    · intro h; injection h with h; subst h; simp
    · intro h; rw [List.length_eq_zero_iff.1 h.1]
  | succ n ih =>
    simp only [readPackets]
    constructor
    · intro h
      split at h
      · cases h
      · rename_i x hx
        split at h
        · cases h
        · rename_i ys hy
          injection h with h
          subst h
          obtain ⟨hl, hq⟩ := ih.1 hy
          refine ⟨by simp [hl], fun q hq' => ?_⟩
          cases q with
          | zero => exact ⟨x, rfl, hx⟩
          | succ q =>
            obtain ⟨y, h1, h2⟩ := hq q (by omega)
            refine ⟨y, by simpa using h1, ?_⟩
            rwa [show p + 1 + q = p + (q + 1) by omega] at h2
    · rintro ⟨hl, hq⟩
      cases xs with
      | nil => simp at hl
      | cons x ys =>
        obtain ⟨x', h1, h2⟩ := hq 0 (by omega)
        simp only [List.getElem?_cons_zero, Option.some.injEq] at h1
        subst h1
        have hy : readPackets codec o s (p + 1) n = .ok ys := by
          refine ih.2 ⟨by simpa using hl, fun q hq' => ?_⟩
          obtain ⟨y, h1, h2⟩ := hq (q + 1) (by omega)
          refine ⟨y, by simpa using h1, ?_⟩
          rwa [show p + (q + 1) = p + 1 + q by omega] at h2
        rw [Nat.add_zero] at h2
        simp [h2, hy]

/-- Every packet read has the codec's width. -/
theorem readPackets_width {codec : Codec} {o : BlockOps} {s : State} {p n : Nat} {xs : List (List Byte)}
    (h : readPackets codec o s p n = .ok xs) : ∀ x ∈ xs, x.length = packetBytes codec := by
  intro x hx
  obtain ⟨hl, hq⟩ := readPackets_ok.1 h
  obtain ⟨q, hq1, hq2⟩ := List.getElem_of_mem hx
  obtain ⟨y, h1, h2⟩ := hq q (by omega)
  rw [List.getElem?_eq_getElem hq1, hq2] at h1
  injection h1 with h1
  rw [h1]
  exact (readBytes_ok.1 h2).1

/-- Packets whose bytes are there can be read. -/
theorem readPackets_total {codec : Codec} {o : BlockOps} {s : State} {p n : Nat}
    (h : ∀ q < n, ∃ x, readBytes s o.src.space (packetOffset codec o.b o.cc o.ci (p + q)) (packetBytes codec) = .ok x) :
    ∃ xs, readPackets codec o s p n = .ok xs := by
  induction n generalizing p with
  | zero => exact ⟨[], rfl⟩
  | succ n ih =>
    obtain ⟨x, hx⟩ := h 0 (by omega)
    rw [Nat.add_zero] at hx
    obtain ⟨xs, hxs⟩ := ih (p := p + 1) (fun q hq => by
      have := h (q + 1) (by omega)
      rwa [show p + (q + 1) = p + 1 + q by omega] at this)
    exact ⟨x :: xs, by simp [readPackets, hx, hxs]⟩

/-- Packets read see only the bytes at their offsets. -/
theorem readPackets_congr {codec : Codec} {o o' : BlockOps} {s s' : State} {p p' n : Nat}
    (h : ∀ q < n, readBytes s' o'.src.space (packetOffset codec o'.b o'.cc o'.ci (p' + q)) (packetBytes codec) =
      readBytes s o.src.space (packetOffset codec o.b o.cc o.ci (p + q)) (packetBytes codec)) :
    readPackets codec o' s' p' n = readPackets codec o s p n := by
  induction n generalizing p p' with
  | zero => rfl
  | succ n ih =>
    have h0 := h 0 (by omega)
    have h1 := ih (p := p + 1) (p' := p' + 1) (fun q hq => by
      have := h (q + 1) (by omega)
      rwa [show p' + (q + 1) = p' + 1 + q by omega, show p + (q + 1) = p + 1 + q by omega] at this)
    simp only [Nat.add_zero] at h0
    simp only [readPackets, h0, h1]

/-- Packets read in two parts. -/
theorem readPackets_add {codec : Codec} {o : BlockOps} {s : State} {p m n : Nat} {xs ys : List (List Byte)}
    (hx : readPackets codec o s p m = .ok xs) (hy : readPackets codec o s (p + m) n = .ok ys) :
    readPackets codec o s p (m + n) = .ok (xs ++ ys) := by
  obtain ⟨lx, qx⟩ := readPackets_ok.1 hx
  obtain ⟨ly, qy⟩ := readPackets_ok.1 hy
  refine readPackets_ok.2 ⟨by simp [lx, ly], fun q hq => ?_⟩
  by_cases hqm : q < m
  · obtain ⟨x, h1, h2⟩ := qx q hqm
    exact ⟨x, by rw [List.getElem?_append_left (by omega)]; exact h1, h2⟩
  · obtain ⟨x, h1, h2⟩ := qy (q - m) (by omega)
    refine ⟨x, by rw [List.getElem?_append_right (by omega), lx]; exact h1, ?_⟩
    rwa [show p + m + (q - m) = p + q by omega] at h2

/-- A block decode is inside its contract exactly so (R149, R26). -/
theorem blockRefusal_none {codec : Codec} {o : BlockOps} {s : State} :
    blockRefusal codec o s = none ↔
      (1 ≤ o.ci ∧ o.ci ≤ o.cc) ∧ o.ch.number = o.ci ∧ s.hasChannel o.ch = true ∧
      sourceEnd codec o.b o.cc o.ci o.n ≤ s.spaceSize o.src.space ∧
      (o.n = 0 ∨ o.d + 6 * o.n ≤ s.spaceSize o.dst.space) := by
  unfold blockRefusal samplesPerPacket
  constructor
  · intro h
    repeat' split at h
    all_goals cases h
    exact ⟨by omega, by omega, by simp_all, by omega, by omega⟩
  · rintro ⟨h1, h2, h3, h4, h5⟩
    rw [if_neg (by omega), if_neg (by omega), if_neg (by simp [h3]), if_neg (by omega), if_neg (by omega)]

/-- A block decode answers exactly where it is inside its contract and its bytes are there: the packets are decoded from
the channel's Predictor State, their output written, the state persisted (R150, R151). -/
theorem runBlock_ok {codec : Codec} {o : BlockOps} {s t : State} :
    runBlock codec o s = .ok t ↔
      blockRefusal codec o s = none ∧
      ∃ packets r, readPackets codec o s 0 o.n = .ok packets ∧
        r = decodePackets codec s.symOrder3 s.rom (s.predictor o.ch) packets ∧
        t = (s.setMem o.dst.space (Memory.writeList (s.mem o.dst.space) o.d r.2)).setPredictor o.ch r.1 := by
  unfold runBlock
  cases hc : blockRefusal codec o s with
  | some r => simp
  | none =>
    cases hp : readPackets codec o s 0 o.n with
    | error e => simp
    | ok packets =>
      have hl := decodePackets_length (readPackets_width hp) s.symOrder3 s.rom (s.predictor o.ch)
      have hn := (readPackets_ok.1 hp).1
      have hd := (blockRefusal_none.1 hc).2.2.2.2
      have hw := (writeBytes_ok (s := s) (sp := o.dst.space) (a := o.d)
        (vs := (decodePackets codec s.symOrder3 s.rom (s.predictor o.ch) packets).2)).2
        ⟨by rw [hl, hn]; omega, rfl⟩
      simp only [hw, Except.ok.injEq, true_and]
      constructor
      · intro h; exact ⟨packets, _, rfl, rfl, h.symm⟩
      · rintro ⟨_, _, rfl, rfl, h⟩; exact h.symm

end Sys2Proof.Laws
end

