-- ==== Sys2Proof/Laws/Adapter.lean ====
section
/-! SUPPORT. What the Streaming Adapter's operations can do: the frames of a channel pair, one lemma per adapter state,
and the loop. -/

namespace Sys2Proof.Laws

open Sys2Proof Sys2Proof.Machine Sys2Proof.Safety

/-! ### Frame sizes -/

theorem gin_pos (s : State) : 0 < s.gin := by
  unfold State.gin Machine.gin; cases s.codec <;> cases s.channels <;> decide

theorem gin_le (s : State) : s.gin ≤ 4 := by
  unfold State.gin Machine.gin; cases s.codec <;> cases s.channels <;> decide

theorem gout_pos (s : State) : 0 < s.gout := by
  unfold State.gout Machine.gout; cases s.channels <;> decide

theorem gout_le (s : State) : s.gout ≤ 12 := by
  unfold State.gout Machine.gout; cases s.channels <;> decide

/-! ### The interleave -/

/-- Two lanes of one length give twice that length (R58). -/
theorem interleave_length_of_eq {l r : List Byte} (h : l.length = r.length) :
    (interleave l r).length = 2 * l.length := by
  induction l generalizing r with
  | nil => cases r <;> simp_all [interleave]
  | cons x xs ih =>
    cases r with
    | nil => simp at h
    | cons y ys =>
      have := ih (r := ys) (by simpa using h)
      simp only [interleave, List.length_cons, this]; omega

/-- The interleave of two concatenations, lane lengths equal part by part. -/
theorem interleave_append {l r l' r' : List Byte} (h : l.length = r.length) :
    interleave (l ++ l') (r ++ r') = interleave l r ++ interleave l' r' := by
  induction l generalizing r with
  | nil =>
    cases r with
    | nil => rfl
    | cons y ys => simp at h
  | cons x xs ih =>
    cases r with
    | nil => simp at h
    | cons y ys => simp only [List.cons_append, interleave, ih (r := ys) (by simpa using h)]

/-! ### Frames -/

/-- A mono frame decode is the left channel's block decode. -/
theorem monoFrames_ok {src : Src} {b : Nat} {dst : Dst} {d m : Nat} {s t : State} :
    monoFrames src b dst d m s = .ok t ↔
      runBlock s.codec ⟨src, b, dst, d, m, .left, 1, 1⟩ s = .ok t := Iff.rfl

/-- A stereo frame decode answers exactly where both block decodes do, the interleaved bytes fit: both channels
decoded, each output left in its scratch buffer, the interleave written (R175). -/
theorem stereoFrames_ok {src : Src} {b : Nat} {dst : Dst} {d m : Nat} {s t : State} :
    stereoFrames src b dst d m s = .ok t ↔
      ∃ s1 s2 tl tr,
        runBlock s.codec ⟨src, b, .scratchL, 0, m, .left, 2, 1⟩ s = .ok s1 ∧
        runBlock s1.codec ⟨src, b, .scratchR, 0, m, .right, 2, 2⟩ s1 = .ok s2 ∧
        readBytes s2 .scratchL 0 (6 * m) = .ok tl ∧ readBytes s2 .scratchR 0 (6 * m) = .ok tr ∧
        writeBytes s2 dst.space d (interleave tl tr) = .ok t := by
  unfold stereoFrames samplesPerPacket
  constructor
  · intro h
    split at h
    · cases h
    · rename_i s1 h1
      split at h
      · cases h
      · rename_i s2 h2
        split at h
        · cases h
        · rename_i tl h3
          split at h
          · cases h
          · rename_i tr h4
            exact ⟨s1, s2, tl, tr, h1, h2, h3, h4, h⟩
  · rintro ⟨s1, s2, tl, tr, h1, h2, h3, h4, h5⟩
    simp only [h1, h2, h3, h4, h5]

/-! ### The adapter's states -/

/-- Where `Init` leaves the cursors (R173). -/
def afterDirect (c : Cursor) (s : State) : Cursor :=
  ⟨c.ic + directCount c s * s.gin, c.oc + directCount c s * s.gout⟩

/-- `Init` halts exactly with no input left and goes to `FillingCache` otherwise (R173). -/
theorem initState_ok {c : Cursor} {s : State} {r : Turn} :
    initState c s = .ok r ↔
      ∃ s', (if 0 < directCount c s then direct c (directCount c s) s else .ok s) = .ok s' ∧
        r = if 0 < s.ilen - (afterDirect c s).ic then
            .goOn (s'.setAdapter 0 .fillingCache) (afterDirect c s)
          else .halt s' (afterDirect c s) := by
  unfold initState afterDirect
  constructor
  · intro h
    dsimp only at h
    split at h
    · cases h
    · rename_i s' hs
      refine ⟨s', hs, ?_⟩
      split at h <;> rename_i hc <;> injection h with h
      · rw [if_pos hc]; exact h.symm
      · rw [if_neg hc]; exact h.symm
  · rintro ⟨s', hs, hr⟩
    dsimp only
    rw [hs, hr]
    dsimp only
    split <;> rfl

/-- The bytes `FillingCache` takes (R177). -/
def fillCount (c : Cursor) (s : State) : Nat := min (s.ilen - c.ic) (s.gin - s.cacheSize)

/-- `FillingCache` appends the bytes it takes to the cache and goes on exactly when the frame is complete (R177). -/
theorem fillingCacheState_ok {c : Cursor} {s : State} {r : Turn} :
    fillingCacheState c s = .ok r ↔
      s.cacheSize ≤ s.gin ∧ ∃ vs s', readBytes s .input c.ic (fillCount c s) = .ok vs ∧
        writeBytes s .icache s.cacheSize vs = .ok s' ∧
        r = if s.cacheSize + fillCount c s = s.gin then
            .goOn (s'.setAdapter (s.cacheSize + fillCount c s) .processCache)
              ⟨c.ic + fillCount c s, c.oc⟩
          else .halt (s'.setCacheSize (s.cacheSize + fillCount c s)) ⟨c.ic + fillCount c s, c.oc⟩ := by
  unfold fillingCacheState
  by_cases hg : s.gin < s.cacheSize
  · rw [if_pos hg]
    exact ⟨fun e => (nomatch e), fun e => by omega⟩
  · rw [if_neg hg]
    constructor
    · intro h
      dsimp only at h
      refine ⟨by omega, ?_⟩
      split at h
      · cases h
      · rename_i vs hv
        split at h
        · cases h
        · rename_i s' hs
          refine ⟨vs, s', hv, hs, ?_⟩
          unfold fillCount
          split at h <;> rename_i hc <;> injection h with h
          · rw [if_pos hc]; exact h.symm
          · rw [if_neg hc]; exact h.symm
    · rintro ⟨-, vs, s', hv, hs, hr⟩
      unfold fillCount at hv hr
      dsimp only
      rw [hv, hr]
      dsimp only
      rw [hs]
      dsimp only
      split <;> rfl

/-- `ProcessCache` decodes the cached frame into the output cache and always goes on (R178). -/
theorem processCacheState_ok {c : Cursor} {s : State} {r : Turn} :
    processCacheState c s = .ok r ↔
      ∃ s', ((s.channels = .mono ∧ monoFrames .icache 0 .ocache 0 1 s = .ok s') ∨
          (s.channels = .stereo ∧ stereoFrames .icache 0 .ocache 0 1 s = .ok s')) ∧
        r = .goOn (s'.setAdapter s.gout .cacheFull) c := by
  unfold processCacheState
  cases hch : s.channels with
  | mono =>
    cases hm : monoFrames .icache 0 .ocache 0 1 s with
    | error e => simp
    | ok s' => simp [eq_comm]
  | stereo =>
    cases hm : stereoFrames .icache 0 .ocache 0 1 s with
    | error e => simp
    | ok s' => simp [eq_comm]

/-- The bytes `CacheFull` delivers (R179). -/
def drainCount (c : Cursor) (s : State) : Nat := min (s.olen - c.oc) s.cacheSize

/-- `CacheFull` delivers the oldest bytes still due and goes back to `Init` exactly when none is left (R179). -/
theorem cacheFullState_ok {c : Cursor} {s : State} {r : Turn} :
    cacheFullState c s = .ok r ↔
      s.cacheSize ≤ s.gout ∧ ∃ vs s',
        readBytes s .ocache (s.gout - s.cacheSize) (drainCount c s) = .ok vs ∧
        writeBytes s .output c.oc vs = .ok s' ∧
        r = if s.cacheSize - drainCount c s = 0 then
            .goOn (s'.setAdapter 0 .init) ⟨c.ic, c.oc + drainCount c s⟩
          else .halt (s'.setCacheSize (s.cacheSize - drainCount c s)) ⟨c.ic, c.oc + drainCount c s⟩ := by
  unfold cacheFullState
  by_cases hg : s.gout < s.cacheSize
  · rw [if_pos hg]
    exact ⟨fun e => (nomatch e), fun e => by omega⟩
  · rw [if_neg hg]
    constructor
    · intro h
      dsimp only at h
      refine ⟨by omega, ?_⟩
      split at h
      · cases h
      · rename_i vs hv
        split at h
        · cases h
        · rename_i s' hs
          refine ⟨vs, s', hv, hs, ?_⟩
          unfold drainCount
          split at h <;> rename_i hc <;> injection h with h
          · rw [if_pos hc]; exact h.symm
          · rw [if_neg hc]; exact h.symm
    · rintro ⟨-, vs, s', hv, hs, hr⟩
      unfold drainCount at hv hr
      dsimp only
      rw [hv, hr]
      dsimp only
      rw [hs]
      dsimp only
      split <;> rfl

/-! ### The loop -/

/-- The loop answers where a turn halts, or where it goes on and the rest of the loop answers (R172). -/
theorem adapterLoop_ok {k : Nat} {c c' : Cursor} {s t : State} :
    adapterLoop (k + 1) c s = .ok (t, c') ↔
      adapterTurn c s = .ok (.halt t c') ∨
        ∃ s1 c1, adapterTurn c s = .ok (.goOn s1 c1) ∧ adapterLoop k c1 s1 = .ok (t, c') := by
  simp only [adapterLoop]
  cases h : adapterTurn c s with
  | error e => simp
  | ok r => cases r <;> simp

/-- A relation that every turn keeps and every halt ends in holds of the whole loop. -/
theorem adapterLoop_keeps {I : State → Cursor → Prop}
    (goOn : ∀ s c s' c', I s c → adapterTurn c s = .ok (.goOn s' c') → I s' c')
    (halt : ∀ s c s' c', I s c → adapterTurn c s = .ok (.halt s' c') → I s' c')
    {k : Nat} {c c' : Cursor} {s t : State} (h : I s c) (hl : adapterLoop k c s = .ok (t, c')) : I t c' := by
  induction k generalizing s c with
  | zero => cases hl
  | succ k ih =>
    rcases adapterLoop_ok.1 hl with hh | ⟨s1, c1, hg, hr⟩
    · exact halt s c t c' h hh
    · exact ih (goOn s c s1 c1 h hg) hr

/-- A PROCESS inside its contract answers exactly where its loop does, with the report (R180 to R182). -/
theorem runProcess_ok {s t : State} :
    runProcess s = .ok t ↔ ∃ u c, adapterLoop maxTurns ⟨0, 0⟩ s = .ok (u, c) ∧ t = report u c := by
  unfold runProcess
  cases h : adapterLoop maxTurns ⟨0, 0⟩ s with
  | error e => simp
  | ok r => obtain ⟨u, c⟩ := r; simp [eq_comm]

/-- The configuration inputs stand as the last reset sampled them (R247). -/
theorem configurationKept_iff {s : State} : s.configurationKept = true ↔ ConfigurationStands s := by
  simp [State.configurationKept, ConfigurationStands]

/-- NOP answers a next state exactly where the configuration stands, and it is the same state (R185, R247). -/
theorem execNop_next {s t : State} : execNop s = .next t ↔ ConfigurationStands s ∧ t = s := by
  unfold execNop
  by_cases h : s.configurationKept = true
  · simp [h, configurationKept_iff.1 h, eq_comm]
  · simp [h, mt configurationKept_iff.2 h]

/-- TOTALS answers a next state exactly where no other command is in progress and the configuration stands (R184, R224,
R247). -/
theorem execTotals_next {s t : State} :
    execTotals s = .next t ↔
      s.lines.breach ≠ some .commandOverlap ∧ ConfigurationStands s ∧ t = s.respond (.totals s.totalIn s.totalOut) := by
  unfold execTotals HostLines.overlapped
  by_cases hb : s.lines.breach = some .commandOverlap
  · simp [hb]
  · by_cases h : s.configurationKept = true
    · simp [hb, h, configurationKept_iff.1 h, eq_comm]
    · simp [hb, h, mt configurationKept_iff.2 h]

/-- RESET answers a next state exactly where no other command is in progress and CHANNELS is driven as 1 or 2 (R183,
R224). -/
theorem execReset_next {s t : State} :
    execReset s = .next t ↔
      s.lines.breach ≠ some .commandOverlap ∧
        ∃ chs : Channels, s.lines.channels = chs.number ∧ t = resetSession s.lines.codec chs s := by
  have key : ∀ n chs, channelsOfNumber n = some chs ↔ n = chs.number := by
    intro n chs
    unfold channelsOfNumber
    cases chs <;> split <;> simp_all [Channels.number]
  unfold execReset HostLines.overlapped
  by_cases hb : s.lines.breach = some .commandOverlap
  · simp [hb]
  · cases hc : channelsOfNumber s.lines.channels with
    | none =>
      simp only [hb, decide_false, Bool.false_eq_true, if_false, ne_eq, not_false_eq_true, true_and]
      exact ⟨fun e => (nomatch e), fun ⟨chs, h, _⟩ => by rw [(key _ chs).2 h] at hc; cases hc⟩
    | some chs =>
      simp only [hb, decide_false, Bool.false_eq_true, if_false, ne_eq, not_false_eq_true, true_and]
      constructor
      · intro e; injection e with e; exact ⟨chs, (key _ _).1 hc, e.symm⟩
      · rintro ⟨chs', h, rfl⟩
        rw [(key _ chs').2 h] at hc
        injection hc with hc
        rw [hc]

/-- PROCESS answers a next state exactly where the host keeps its duties and the configuration, and the adapter
answers (R171, R224, R247). -/
theorem execProcess_next {s t : State} :
    execProcess s = .next t ↔
      s.lines.breach = none ∧ s.lines.codec = s.codec ∧ s.lines.channels = s.channels.number ∧
        runProcess s = .ok t := by
  unfold execProcess
  cases hb : s.lines.breach with
  | some b => simp
  | none =>
    by_cases h : s.configurationKept = true
    · obtain ⟨h1, h2⟩ := configurationKept_iff.1 h
      simp [h, h1, h2]
    · have h' := mt configurationKept_iff.2 h
      simp only [h, if_false, true_and, Bool.false_eq_true]
      exact ⟨fun e => (nomatch e), fun e => absurd ⟨e.1, e.2.1⟩ h'⟩

end Sys2Proof.Laws
end

