-- ==== Sys2Proof/Laws/Decode.lean ====
section
/-! SUPPORT. A packet byte and its three codes. -/

namespace Sys2Proof.Laws

open Sys2Proof

/-- The codes as numbers (R80). -/
theorem splitByte_toNat (x : Byte) :
    (splitByte x).a.toNat = x.toNat / 32 ∧ (splitByte x).b.toNat = x.toNat / 8 % 4 ∧
      (splitByte x).c.toNat = x.toNat % 8 := by
  have h := x.isLt
  simp only [splitByte, BitVec.extractLsb'_toNat, Nat.shiftRight_eq_div_pow]
  refine ⟨?_, ?_, ?_⟩ <;> norm_num
  omega

/-- A byte made of three codes splits into them (R90). -/
theorem splitByte_joinByte (f : Fields) : splitByte (joinByte f) = f := by
  obtain ⟨a, b, c⟩ := f
  revert a b c
  decide +kernel

/-- The codes of a byte make that byte (R90). -/
theorem joinByte_splitByte (x : Byte) : joinByte (splitByte x) = x := by
  revert x
  decide +kernel

/-- The word of a code wide at most eight bits gives the code back. -/
theorem codeOfWord_zeroExtend {w : Nat} (hw : w ≤ 8) (r : Reject) (code : BitVec w) :
    codeOfWord w r [code.zeroExtend 8] = .ok code := by
  have h1 : code.toNat < 2 ^ w := code.isLt
  have h2 : (2 : Nat) ^ w ≤ 2 ^ 8 := Nat.pow_le_pow_right (by decide) hw
  have h3 : (code.zeroExtend 8).toNat = code.toNat := by
    simp only [BitVec.truncate_eq_setWidth, BitVec.toNat_setWidth]; exact Nat.mod_eq_of_lt (by omega)
  simp [codeOfWord, h3, h1]

end Sys2Proof.Laws
end

