-- ==== Sys2Proof/Laws/Frames.lean ====
section
/-! SUPPORT. Whole frames: what a block decode, a mono and a stereo frame decode and the stereo passes leave, against the
reference decode of the frames' bytes (Safety.lean). -/

namespace Sys2Proof.Laws

open Sys2Proof Sys2Proof.Machine Sys2Proof.Safety

/-! ### What a decode keeps -/

/-- Everything but the Predictor States and the byte spaces is as before. -/
def Kept (s t : State) : Prop := SameSetting s t ∧ SameSession s t ∧ t.response = s.response

theorem Kept.refl (s : State) : Kept s s := by simp [Kept, SameSetting, SameSession]

theorem Kept.trans {s t u : State} (h : Kept s t) (k : Kept t u) : Kept s u := by
  obtain ⟨⟨a1, a2, a3, a4, a5, a6, a7, a8⟩, ⟨b1, b2, b3, b4⟩, c⟩ := h
  obtain ⟨⟨d1, d2, d3, d4, d5, d6, d7, d8⟩, ⟨e1, e2, e3, e4⟩, f⟩ := k
  simp only [Kept, SameSetting, SameSession, d1, d2, d3, d4, d5, d6, d7, d8, e1, e2, e3, e4, f, a1, a2, a3, a4, a5, a6,
    a7, a8, b1, b2, b3, b4, c, and_self]

theorem Kept.gin {s t : State} (h : Kept s t) : t.gin = s.gin := by simp [State.gin, h.1.1, h.1.2.1]

theorem Kept.gout {s t : State} (h : Kept s t) : t.gout = s.gout := by simp [State.gout, h.1.2.1]

theorem Kept.spaceSize {s t : State} (h : Kept s t) (sp : SpaceName) : t.spaceSize sp = s.spaceSize sp := by
  obtain ⟨⟨-, -, -, -, a5, a6, -, -⟩, -, -⟩ := h
  cases sp <;> simp [a5, a6]

theorem Kept.hasChannel {s t : State} (h : Kept s t) (ch : Chan) : t.hasChannel ch = s.hasChannel ch := by
  simp [State.hasChannel, h.1.2.1]

/-- Writing bytes keeps the rest. -/
theorem kept_setMem (s : State) (sp : SpaceName) (m : Memory) : Kept s (s.setMem sp m) := by
  simp [Kept, SameSetting, SameSession]

/-- Writing a Predictor State keeps the rest. -/
theorem kept_setPredictor (s : State) (ch : Chan) (p : Predictor) : Kept s (s.setPredictor ch p) := by
  simp [Kept, SameSetting, SameSession]

/-- A read sees only the bytes of its space and its size. -/
theorem readBytes_of_same {s t : State} {sp : SpaceName} (hs : t.spaceSize sp = s.spaceSize sp)
    (hb : ∀ a, t.byteAt sp a = s.byteAt sp a) (a n : Nat) : readBytes t sp a n = readBytes s sp a n :=
  readBytes_congr fun j _ => by simp [readByte, hs, hb]

/-- A block decode keeps everything but its channel's Predictor State and its destination bytes. -/
theorem runBlock_keeps {codec : Codec} {o : BlockOps} {s t : State} (h : runBlock codec o s = .ok t) :
    Kept s t ∧ (∀ sp, sp ≠ o.dst.space → ∀ a, t.byteAt sp a = s.byteAt sp a) ∧
      (∀ ch, ch ≠ o.ch → t.predictor ch = s.predictor ch) := by
  obtain ⟨-, xs, r, -, rfl, rfl⟩ := runBlock_ok.1 h
  refine ⟨(kept_setMem _ _ _).trans (kept_setPredictor _ _ _), fun sp hsp a => ?_, fun ch hch => ?_⟩
  · rw [setPredictor_byteAt, byteAt_setMem_ne _ _ hsp]
  · rw [setPredictor_predictor_ne _ _ hch, setMem_predictor]

/-! ### The packets of one lane of a run of frames -/

/-- The packets of lane `i` of `cc` lanes, `m` of them, each of `w` bytes, in a run of frames. -/
def lane (w cc i m : Nat) (bs : List Byte) : List (List Byte) :=
  (List.range m).map fun p => (bs.drop ((p * cc + i) * w)).take w

theorem lane_length (w cc i m : Nat) (bs : List Byte) : (lane w cc i m bs).length = m := by simp [lane]

theorem lane_zero (w cc i : Nat) (bs : List Byte) : lane w cc i 0 bs = [] := rfl

/-- The first packet of a lane, and the lane of the frames after the first. -/
theorem lane_succ (w cc i m : Nat) (bs : List Byte) :
    lane w cc i (m + 1) bs = (bs.drop (i * w)).take w :: lane w cc i m (bs.drop (cc * w)) := by
  simp only [lane, List.range_succ_eq_map, List.map_cons, List.map_map, List.drop_drop]
  congr 1
  · simp
  · apply List.map_congr_left
    intro p _
    simp only [Function.comp_apply]
    congr 2
    simp only [Nat.succ_eq_add_one]; ring

/-- A lane's packets have the width when the frames are there. -/
theorem lane_width {w cc i m : Nat} {bs : List Byte} (hi : i < cc) (hb : bs.length = m * (cc * w)) :
    ∀ x ∈ lane w cc i m bs, x.length = w := by
  intro x hx
  obtain ⟨p, hp, rfl⟩ := List.mem_map.1 hx
  rw [List.mem_range] at hp
  rw [List.length_take, List.length_drop, hb, Nat.min_eq_left]
  have h1 : (p * cc + i + 1) * w ≤ m * cc * w := by
    apply Nat.mul_le_mul_right
    calc p * cc + i + 1 ≤ p * cc + cc := by omega
      _ = (p + 1) * cc := by ring
      _ ≤ m * cc := Nat.mul_le_mul_right _ (by omega)
  have h2 : (p * cc + i + 1) * w = (p * cc + i) * w + w := by ring
  have h3 : m * cc * w = m * (cc * w) := by ring
  omega

/-- The packets a block decode reads are its lane of the frames' bytes (R55, R56). -/
theorem readPackets_lane {codec : Codec} {o : BlockOps} {s : State} {m : Nat} {bs : List Byte}
    (hci : 1 ≤ o.ci) (hcc : o.ci ≤ o.cc)
    (hb : readBytes s o.src.space o.b (m * (o.cc * packetBytes codec)) = .ok bs) :
    readPackets codec o s 0 m = .ok (lane (packetBytes codec) o.cc (o.ci - 1) m bs) := by
  obtain ⟨hl, hj⟩ := readBytes_ok.1 hb
  refine readPackets_ok.2 ⟨lane_length _ _ _ _ _, fun q hq => ?_⟩
  have hq1 : (lane (packetBytes codec) o.cc (o.ci - 1) m bs)[q]? =
      some ((bs.drop ((q * o.cc + (o.ci - 1)) * packetBytes codec)).take (packetBytes codec)) := by
    simp [lane, hq]
  refine ⟨_, hq1, readBytes_ok.2 ⟨lane_width (by omega) hl _ (List.mem_of_getElem? hq1), fun j hj' => ?_⟩⟩
  have h1 : (q * o.cc + (o.ci - 1) + 1) * packetBytes codec ≤ m * o.cc * packetBytes codec := by
    apply Nat.mul_le_mul_right
    calc q * o.cc + (o.ci - 1) + 1 ≤ q * o.cc + o.cc := by omega
      _ = (q + 1) * o.cc := by ring
      _ ≤ m * o.cc := Nat.mul_le_mul_right _ (by omega)
  have h2 : (q * o.cc + (o.ci - 1) + 1) * packetBytes codec =
      (q * o.cc + (o.ci - 1)) * packetBytes codec + packetBytes codec := by ring
  have h3 : m * o.cc * packetBytes codec = m * (o.cc * packetBytes codec) := by ring
  have h4 : packetOffset codec o.b o.cc o.ci (0 + q) + j =
      o.b + ((q * o.cc + (o.ci - 1)) * packetBytes codec + j) := by
    unfold packetOffset; ring
  rw [h4]
  have := hj ((q * o.cc + (o.ci - 1)) * packetBytes codec + j) (by omega)
  refine ⟨this.1, this.2.trans ?_⟩
  rw [List.getElem?_take_of_lt hj', List.getElem?_drop]

/-- A block decode of whole frames that are there, into room enough, completes; its lane is decoded. -/
theorem runBlock_lane {codec : Codec} {o : BlockOps} {s : State} {bs : List Byte}
    (hci : 1 ≤ o.ci) (hcc : o.ci ≤ o.cc) (hps : o.ch.number = o.ci) (hch : s.hasChannel o.ch = true)
    (hb : readBytes s o.src.space o.b (o.n * (o.cc * packetBytes codec)) = .ok bs)
    (hd : o.n = 0 ∨ o.d + 6 * o.n ≤ s.spaceSize o.dst.space) :
    ∃ r, r = decodePackets codec s.symOrder3 s.rom (s.predictor o.ch) (lane (packetBytes codec) o.cc (o.ci - 1) o.n bs) ∧
      r.2.length = 6 * o.n ∧
      runBlock codec o s =
        .ok ((s.setMem o.dst.space (Memory.writeList (s.mem o.dst.space) o.d r.2)).setPredictor o.ch r.1) := by
  have hp := readPackets_lane hci hcc hb
  have hl := decodePackets_length (readPackets_width hp) s.symOrder3 s.rom (s.predictor o.ch)
  rw [lane_length] at hl
  refine ⟨_, rfl, hl, runBlock_ok.2 ⟨blockRefusal_none.2 ⟨⟨hci, hcc⟩, hps, hch, ?_, hd⟩, _, _, hp, rfl, rfl⟩⟩
  unfold sourceEnd
  split
  · omega
  · rename_i hn
    have hw : 0 < packetBytes codec := by cases codec <;> decide
    obtain ⟨-, hj⟩ := readBytes_ok.1 hb
    have h1 : (o.n - 1) * o.cc + (o.ci - 1) + 1 ≤ o.n * o.cc := by
      calc (o.n - 1) * o.cc + (o.ci - 1) + 1 ≤ (o.n - 1) * o.cc + o.cc := by omega
        _ = (o.n - 1 + 1) * o.cc := by ring
        _ = o.n * o.cc := by rw [show o.n - 1 + 1 = o.n by omega]
    have h2 := Nat.mul_le_mul_right (packetBytes codec) h1
    have h3 : ((o.n - 1) * o.cc + (o.ci - 1) + 1) * packetBytes codec =
        packetBytes codec * ((o.ci - 1) + (o.n - 1) * o.cc) + packetBytes codec := by ring
    have h4 : o.n * o.cc * packetBytes codec = o.n * (o.cc * packetBytes codec) := by ring
    unfold packetOffset
    have := (hj (packetBytes codec * ((o.ci - 1) + (o.n - 1) * o.cc) + (packetBytes codec - 1)) (by omega)).1
    omega

/-! ### The reference decode of frames -/

/-- The first frame and the frames after it. -/
theorem referenceFrames_succ {codec : Codec} {chs : Channels} (order : SymOrder) (t : Tables) (k : Nat)
    (ps : Predictor × Predictor) {bs : List Byte} (h : gin codec chs ≤ bs.length) :
    referenceFrames codec chs order t (k + 1) ps bs =
      ((referenceFrames codec chs order t k (referenceFrame codec chs order t ps (bs.take (gin codec chs))).1
          (bs.drop (gin codec chs))).1,
       (referenceFrame codec chs order t ps (bs.take (gin codec chs))).2 ++
        (referenceFrames codec chs order t k (referenceFrame codec chs order t ps (bs.take (gin codec chs))).1
          (bs.drop (gin codec chs))).2) := by
  rw [referenceFrames, if_neg (by omega)]

theorem gin_pos' (codec : Codec) (chs : Channels) : 0 < gin codec chs := by cases codec <;> cases chs <;> decide

/-- More steps than whole frames change nothing. -/
theorem referenceFrames_enough (codec : Codec) (chs : Channels) (order : SymOrder) (t : Tables) {k j : Nat}
    (ps : Predictor × Predictor) (bs : List Byte) (hk : bs.length / gin codec chs ≤ k) (hj : bs.length / gin codec chs ≤ j) :
    referenceFrames codec chs order t k ps bs = referenceFrames codec chs order t j ps bs := by
  have hg := gin_pos' codec chs
  induction k generalizing j ps bs with
  | zero =>
    have h0 : bs.length < gin codec chs := by
      by_contra hc
      have := Nat.div_pos (Nat.le_of_not_lt hc) hg
      omega
    cases j with
    | zero => rfl
    | succ j => rw [referenceFrames, referenceFrames, if_pos h0]
  | succ k ih =>
    by_cases h : bs.length < gin codec chs
    · cases j with
      | zero => rw [referenceFrames, referenceFrames, if_pos h]
      | succ j => rw [referenceFrames, referenceFrames, if_pos h, if_pos h]
    · have hd : (bs.drop (gin codec chs)).length / gin codec chs + 1 = bs.length / gin codec chs := by
        rw [List.length_drop, ← Nat.add_div_right _ hg, Nat.sub_add_cancel (Nat.le_of_not_lt h)]
      rw [← hd] at hk hj
      cases j with
      | zero => exact absurd hj (Nat.not_succ_le_zero _)
      | succ j =>
        rw [referenceFrames_succ _ _ _ _ (by omega), referenceFrames_succ _ _ _ _ (by omega),
          ih (j := j) _ _ (Nat.le_of_succ_le_succ hk) (Nat.le_of_succ_le_succ hj)]

/-- Frames decoded in two parts: the first part whole frames. -/
theorem referenceFrames_append (codec : Codec) (chs : Channels) (order : SymOrder) (t : Tables) {k j : Nat}
    (ps : Predictor × Predictor) {xs : List Byte} (ys : List Byte) (hx : xs.length = k * gin codec chs) :
    referenceFrames codec chs order t (k + j) ps (xs ++ ys) =
      ((referenceFrames codec chs order t j (referenceFrames codec chs order t k ps xs).1 ys).1,
       (referenceFrames codec chs order t k ps xs).2 ++
         (referenceFrames codec chs order t j (referenceFrames codec chs order t k ps xs).1 ys).2) := by
  induction k generalizing ps xs with
  | zero =>
    have : xs = [] := List.length_eq_zero_iff.1 (by omega)
    subst this
    simp [referenceFrames]
  | succ k ih =>
    have hl : gin codec chs ≤ xs.length := by rw [hx, Nat.succ_mul]; omega
    rw [show k + 1 + j = (k + j) + 1 by omega, referenceFrames_succ _ _ _ _ (by rw [List.length_append]; omega),
      referenceFrames_succ _ _ _ _ hl, List.take_append_of_le_length hl, List.drop_append_of_le_length hl,
      ih _ (by rw [List.length_drop, hx, Nat.succ_mul]; omega), List.append_assoc]

/-- The first packet, then the others from the state it leaves. -/
theorem decodePackets_cons (codec : Codec) (order : SymOrder) (t : Tables) (ps : Predictor) (x : List Byte)
    (xs : List (List Byte)) :
    decodePackets codec order t ps (x :: xs) =
      ((decodePackets codec order t (decodePackets codec order t ps [x]).1 xs).1,
        (decodePackets codec order t ps [x]).2 ++
          (decodePackets codec order t (decodePackets codec order t ps [x]).1 xs).2) :=
  decodePackets_append codec order t ps [x] xs

/-- Whole mono frames are the one lane's packets, decoded in order. -/
theorem referenceFrames_mono (codec : Codec) (order : SymOrder) (t : Tables) (m : Nat) (ps : Predictor × Predictor)
    {bs : List Byte} (hb : bs.length = m * gin codec .mono) :
    referenceFrames codec .mono order t m ps bs =
      (((decodePackets codec order t ps.1 (lane (packetBytes codec) 1 0 m bs)).1, ps.2),
        (decodePackets codec order t ps.1 (lane (packetBytes codec) 1 0 m bs)).2) := by
  have hg : gin codec .mono = packetBytes codec := by simp [gin, Channels.number]
  induction m generalizing ps bs with
  | zero => simp [referenceFrames, lane_zero, decodePackets_nil]
  | succ m ih =>
    have hl : gin codec .mono ≤ bs.length := by rw [hb, Nat.succ_mul]; omega
    rw [referenceFrames_succ _ _ _ _ hl, ih _ (by rw [List.length_drop, hb, Nat.succ_mul]; omega), lane_succ,
      decodePackets_cons]
    simp [referenceFrame, hg, List.take_take]

/-- Whole stereo frames are the two lanes' packets, decoded apart and interleaved. -/
theorem referenceFrames_stereo (codec : Codec) (order : SymOrder) (t : Tables) (m : Nat) (ps : Predictor × Predictor)
    {bs : List Byte} (hb : bs.length = m * gin codec .stereo) :
    referenceFrames codec .stereo order t m ps bs =
      (((decodePackets codec order t ps.1 (lane (packetBytes codec) 2 0 m bs)).1,
        (decodePackets codec order t ps.2 (lane (packetBytes codec) 2 1 m bs)).1),
       interleave (decodePackets codec order t ps.1 (lane (packetBytes codec) 2 0 m bs)).2
        (decodePackets codec order t ps.2 (lane (packetBytes codec) 2 1 m bs)).2) := by
  have hg : gin codec .stereo = packetBytes codec * 2 := by simp [gin, Channels.number]
  induction m generalizing ps bs with
  | zero => simp [referenceFrames, lane_zero, decodePackets_nil, interleave]
  | succ m ih =>
    have hl : gin codec .stereo ≤ bs.length := by rw [hb, Nat.succ_mul]; omega
    have h1 : (bs.drop (0 * packetBytes codec)).take (packetBytes codec) =
        (bs.take (gin codec .stereo)).take (packetBytes codec) := by
      rw [List.take_take, Nat.zero_mul, List.drop_zero, hg]; congr 1; omega
    have h2 : (bs.drop (1 * packetBytes codec)).take (packetBytes codec) =
        (bs.take (gin codec .stereo)).drop (packetBytes codec) := by
      rw [List.drop_take, Nat.one_mul, hg]; congr 1; omega
    have w1 : ((bs.take (gin codec .stereo)).take (packetBytes codec)).length = packetBytes codec := by
      rw [List.length_take, List.length_take]; omega
    have w2 : ((bs.take (gin codec .stereo)).drop (packetBytes codec)).length = packetBytes codec := by
      rw [List.length_drop, List.length_take]; omega
    rw [referenceFrames_succ _ _ _ _ hl, ih _ (by rw [List.length_drop, hb, Nat.succ_mul]; omega), lane_succ, lane_succ,
      h1, h2, decodePackets_cons _ _ _ _ (List.take _ _), decodePackets_cons _ _ _ _ (List.drop _ _),
      interleave_append, show 2 * packetBytes codec = gin codec .stereo by rw [hg]; ring]
    · rfl
    · rw [decodePackets_length (by simpa using w1), decodePackets_length (by simpa using w2)]
      rfl

/-- Whole frames give `Gout` bytes each. -/
theorem referenceFrames_length (codec : Codec) (chs : Channels) (order : SymOrder) (t : Tables) (m : Nat)
    (ps : Predictor × Predictor) {bs : List Byte} (hb : bs.length = m * gin codec chs) :
    (referenceFrames codec chs order t m ps bs).2.length = m * gout chs := by
  cases chs with
  | mono =>
    rw [referenceFrames_mono _ _ _ _ _ hb, decodePackets_length (lane_width (by decide) (by
      rw [hb]; simp [gin, Channels.number])), lane_length]
    simp [gout, samplesPerPacket, Channels.number, Nat.mul_comm]
  | stereo =>
    have w : bs.length = m * (2 * packetBytes codec) := by rw [hb]; simp [gin, Channels.number, Nat.mul_comm]
    have l1 := decodePackets_length (lane_width (i := 0) (by decide) w) order t ps.1
    have l2 := decodePackets_length (lane_width (i := 1) (by decide) w) order t ps.2
    rw [lane_length] at l1 l2
    rw [referenceFrames_stereo _ _ _ _ _ hb, interleave_length_of_eq (by rw [l1, l2]), l1]
    simp [gout, samplesPerPacket, Channels.number]; ring

/-! ### Frames decoded by the machine -/

/-- What a decode of `m` frames' bytes `bs` into a space at `d` leaves: the Predictor States and the output bytes of the
reference decode, every other byte but the scratch buffers' as before. -/
structure FramesDone (s t : State) (dst : SpaceName) (d m : Nat) (bs : List Byte) : Prop where
  kept : Kept s t
  left : t.left = (referenceFrames s.codec s.channels s.symOrder3 s.rom m (s.left, s.right) bs).1.1
  right : t.right = (referenceFrames s.codec s.channels s.symOrder3 s.rom m (s.left, s.right) bs).1.2
  bytes : ∀ a, t.byteAt dst a =
    if d ≤ a ∧ a < d + m * s.gout then
      (referenceFrames s.codec s.channels s.symOrder3 s.rom m (s.left, s.right) bs).2[a - d]?
    else s.byteAt dst a
  others : ∀ sp, sp ≠ dst → (s.channels = .stereo → sp ≠ .scratchL ∧ sp ≠ .scratchR) →
    ∀ a, t.byteAt sp a = s.byteAt sp a

/-- Mono frames that are there, into room enough, are decoded (R174, R178). -/
theorem monoFrames_done {src : Src} {b : Nat} {dst : Dst} {d m : Nat} {s : State} {bs : List Byte}
    (hm : s.channels = .mono) (hb : readBytes s src.space b (m * s.gin) = .ok bs)
    (hd : m = 0 ∨ d + m * s.gout ≤ s.spaceSize dst.space) :
    ∃ t, monoFrames src b dst d m s = .ok t ∧ FramesDone s t dst.space d m bs := by
  have hg : s.gin = 1 * packetBytes s.codec := by simp [State.gin, gin, hm, Channels.number]
  have ho : s.gout = 6 := by simp [State.gout, gout, hm, Channels.number, samplesPerPacket]
  have hbl : bs.length = m * gin s.codec .mono := by
    rw [(readBytes_ok.1 hb).1, State.gin, hm]
  rw [ho] at hd
  obtain ⟨r, hr, hl, hrun⟩ := runBlock_lane (codec := s.codec) (o := ⟨src, b, dst, d, m, .left, 1, 1⟩) (s := s)
    (Nat.le_refl 1) (Nat.le_refl 1) rfl (hasChannel_left s) (by rw [← hg]; exact hb)
    (hd.imp id fun h => by rwa [Nat.mul_comm] at h)
  have href := referenceFrames_mono s.codec s.symOrder3 s.rom m (s.left, s.right) hbl
  rw [← hm] at href
  dsimp only at hr hl
  simp only [show (1 : Nat) - 1 = 0 from rfl, predictor_left] at hr
  rw [← hr] at href
  refine ⟨_, hrun, ⟨(kept_setMem _ _ _).trans (kept_setPredictor _ _ _), ?_, ?_, ?_, ?_⟩⟩
  · rw [href]; rfl
  · rw [href]; simp [State.setPredictor]
  · intro a
    rw [setPredictor_byteAt, byteAt_setMem_writeList, href]
    simp only [hl, ho, true_and]
    rw [show 6 * m = m * 6 by ring]
  · intro sp hsp _ a
    rw [setPredictor_byteAt, byteAt_setMem_ne _ _ hsp]

/-- Stereo frames that are there, at most `CHUNK_PKTS` of them, into room enough, are decoded (R175, R178). -/
theorem stereoFrames_done {src : Src} {b : Nat} {dst : Dst} {d m : Nat} {s : State} {bs : List Byte}
    (hm : s.channels = .stereo) (hmax : m ≤ 512) (hdst : dst = .output ∨ dst = .ocache)
    (hb : readBytes s src.space b (m * s.gin) = .ok bs)
    (hd : m = 0 ∨ d + m * s.gout ≤ s.spaceSize dst.space) :
    ∃ t, stereoFrames src b dst d m s = .ok t ∧ FramesDone s t dst.space d m bs := by
  have hg : s.gin = 2 * packetBytes s.codec := by simp [State.gin, gin, hm, Channels.number, Nat.mul_comm]
  have ho : s.gout = 12 := by simp [State.gout, gout, hm, Channels.number, samplesPerPacket]
  have hbl : bs.length = m * gin s.codec .stereo := by
    rw [(readBytes_ok.1 hb).1, State.gin, hm]
  have hsrc : src.space ≠ .scratchL := by cases src <;> decide
  have hdl : dst.space ≠ .scratchL := by rcases hdst with rfl | rfl <;> decide
  have hdr : dst.space ≠ .scratchR := by rcases hdst with rfl | rfl <;> decide
  have hroom : m = 0 ∨ 0 + 6 * m ≤ 3072 := by omega
  rw [ho] at hd
  have href := referenceFrames_stereo s.codec s.symOrder3 s.rom m (s.left, s.right) hbl
  rw [← hm] at href
  obtain ⟨r1, hr1, hl1, hrun1⟩ := runBlock_lane (codec := s.codec) (o := ⟨src, b, .scratchL, 0, m, .left, 2, 1⟩) (s := s)
    (Nat.le_refl 1) (Nat.le_succ 1) rfl (hasChannel_left s) (by rw [← hg]; exact hb) hroom
  dsimp only at hl1 hr1
  simp only [show (1 : Nat) - 1 = 0 from rfl, predictor_left, dst_space_scratchL] at hr1 hrun1
  obtain ⟨k1, kb1, kp1⟩ := runBlock_keeps hrun1
  dsimp only [dst_space_scratchL] at kb1 kp1
  generalize hs1 : (s.setMem .scratchL (Memory.writeList (s.mem .scratchL) 0 r1.2)).setPredictor .left r1.1 = s1
    at hrun1 k1 kb1 kp1
  have hb1 : readBytes s1 src.space b (m * (2 * packetBytes s1.codec)) = .ok bs := by
    rw [k1.1.1, ← hg, readBytes_of_same (k1.spaceSize _) (kb1 _ hsrc)]; exact hb
  obtain ⟨r2, hr2, hl2, hrun2⟩ := runBlock_lane (codec := s1.codec) (o := ⟨src, b, .scratchR, 0, m, .right, 2, 2⟩)
    (s := s1) (Nat.le_succ 1) (Nat.le_refl 2) rfl (hasChannel_of_stereo (by rw [k1.1.2.1, hm]) _) hb1 hroom
  have p1 : s1.right = s.right := kp1 .right (by simp)
  dsimp only at hl2 hr2
  simp only [show (2 : Nat) - 1 = 1 from rfl, predictor_right, k1.1.1, k1.1.2.2.1, k1.1.2.2.2.1, p1]
    at hr2
  simp only [dst_space_scratchR] at hrun2
  rw [← hr1, ← hr2] at href
  obtain ⟨k2, kb2, kp2⟩ := runBlock_keeps hrun2
  dsimp only [dst_space_scratchR] at kb2 kp2
  generalize hs2 : (s1.setMem .scratchR (Memory.writeList (s1.mem .scratchR) 0 r2.2)).setPredictor .right r2.1 = s2
    at hrun2 k2 kb2 kp2
  have k12 := k1.trans k2
  have htl : readBytes s2 .scratchL 0 (6 * m) = .ok r1.2 := by
    refine readBytes_ok.2 ⟨hl1, fun j hj => ⟨show 0 + j < 3072 by omega, ?_⟩⟩
    rw [kb2 .scratchL (by simp), ← hs1, setPredictor_byteAt, byteAt_setMem_writeList, hl1,
      if_pos ⟨rfl, by omega, by omega⟩]
    simp
  have htr : readBytes s2 .scratchR 0 (6 * m) = .ok r2.2 := by
    refine readBytes_ok.2 ⟨hl2, fun j hj => ⟨show 0 + j < 3072 by omega, ?_⟩⟩
    rw [← hs2, setPredictor_byteAt, byteAt_setMem_writeList, hl2, if_pos ⟨rfl, by omega, by omega⟩]
    simp
  have hil : (interleave r1.2 r2.2).length = m * 12 := by
    rw [interleave_length_of_eq (by rw [hl1, hl2]), hl1]; ring
  have hw := (writeBytes_ok (s := s2) (sp := dst.space) (a := d) (vs := interleave r1.2 r2.2)).2
    ⟨by rw [hil, k12.spaceSize]; omega, rfl⟩
  refine ⟨_, stereoFrames_ok.2 ⟨s1, s2, _, _, hrun1, hrun2, htl, htr, hw⟩, ?_⟩
  refine ⟨k12.trans (kept_setMem _ _ _), ?_, ?_, ?_, ?_⟩
  · rw [setMem_left, href]
    have : s2.left = s1.left := kp2 .left (by simp)
    rw [this, ← hs1]; rfl
  · rw [setMem_right, href, ← hs2]; rfl
  · intro a
    rw [byteAt_setMem_writeList, hil, href, ho]
    simp only [true_and]
    split
    · rfl
    · rw [kb2 _ hdr, kb1 _ hdl]
  · intro sp hsp hsc a
    rw [byteAt_setMem_ne _ _ hsp, kb2 _ (hsc hm).2, kb1 _ (hsc hm).1]

end Sys2Proof.Laws
end

