-- ==== Sys2Proof/Laws/Direct.lean ====
section
/-! SUPPORT. The direct path (R173 to R176): whole frames from IN to OUT, in passes when stereo. -/

namespace Sys2Proof.Laws

open Sys2Proof Sys2Proof.Machine Sys2Proof.Safety

/-- A read in two parts. -/
theorem readBytes_add {s : State} {sp : SpaceName} {a m n : Nat} {vs : List Byte} :
    readBytes s sp a (m + n) = .ok vs ↔
      ∃ xs ys, readBytes s sp a m = .ok xs ∧ readBytes s sp (a + m) n = .ok ys ∧ vs = xs ++ ys := by
  constructor
  · intro h
    obtain ⟨hl, hj⟩ := readBytes_ok.1 h
    refine ⟨vs.take m, vs.drop m, readBytes_ok.2 ⟨by rw [List.length_take]; omega, fun j hm => ?_⟩,
      readBytes_ok.2 ⟨by rw [List.length_drop]; omega, fun j hn => ?_⟩, (List.take_append_drop m vs).symm⟩
    · have := hj j (by omega)
      exact ⟨this.1, this.2.trans (List.getElem?_take_of_lt hm).symm⟩
    · have := hj (m + j) (by omega)
      rw [← Nat.add_assoc] at this
      exact ⟨this.1, this.2.trans List.getElem?_drop.symm⟩
  · rintro ⟨xs, ys, hx, hy, rfl⟩
    obtain ⟨lx, jx⟩ := readBytes_ok.1 hx
    obtain ⟨ly, jy⟩ := readBytes_ok.1 hy
    refine readBytes_ok.2 ⟨by simp [lx, ly], fun j hj => ?_⟩
    by_cases h : j < m
    · rw [List.getElem?_append_left (by omega)]; exact jx j h
    · have := jy (j - m) (by omega)
      rw [show a + m + (j - m) = a + j by omega] at this
      rw [List.getElem?_append_right (by omega), lx]; exact this

/-- Nothing decoded. -/
theorem FramesDone.zero (s : State) (dst : SpaceName) (d : Nat) : FramesDone s s dst d 0 [] where
  kept := Kept.refl s
  left := rfl
  right := rfl
  bytes := fun a => by rw [if_neg (by omega)]
  others := fun _ _ _ _ => rfl

/-- Frames decoded in two parts, the second where the first ended. -/
theorem FramesDone.append {s t u : State} {dst : SpaceName} {d m n : Nat} {xs ys : List Byte}
    (h : FramesDone s t dst d m xs) (k : FramesDone t u dst (d + m * s.gout) n ys)
    (hx : xs.length = m * s.gin) : FramesDone s u dst d (m + n) (xs ++ ys) := by
  have hk := h.kept
  have happ := referenceFrames_append s.codec s.channels s.symOrder3 s.rom (j := n) (s.left, s.right) ys hx
  have hlen : (referenceFrames s.codec s.channels s.symOrder3 s.rom m (s.left, s.right) xs).2.length = m * s.gout :=
    referenceFrames_length _ _ _ _ _ _ hx
  have hps : (t.left, t.right) = (referenceFrames s.codec s.channels s.symOrder3 s.rom m (s.left, s.right) xs).1 := by
    rw [h.left, h.right]
  have kl := k.left
  have kr := k.right
  have kb := k.bytes
  rw [hk.1.1, hk.1.2.1, hk.1.2.2.1, hk.1.2.2.2.1, hps] at kl kr kb
  refine ⟨hk.trans k.kept, by rw [happ, kl], by rw [happ, kr], fun a => ?_, fun sp h1 h2 a => ?_⟩
  · rw [kb, happ, hk.gout, h.bytes]
    have e : (m + n) * s.gout = m * s.gout + n * s.gout := Nat.add_mul ..
    by_cases c1 : d ≤ a ∧ a < d + m * s.gout
    · rw [if_neg (by omega), if_pos c1, if_pos (by omega), List.getElem?_append_left (by omega)]
    · by_cases c2 : d + m * s.gout ≤ a ∧ a < d + m * s.gout + n * s.gout
      · rw [if_pos c2, if_pos (by omega), List.getElem?_append_right (by omega), hlen]
        congr 1; omega
      · rw [if_neg c2, if_neg c1, if_neg (by omega)]
  · rw [k.others sp h1 (fun e => h2 (by rw [← hk.1.2.1]; exact e)) a, h.others sp h1 h2 a]

/-- The stereo passes decode all the frames, whatever the size of a pass (R176). -/
theorem stereoPasses_done {k n ic oc : Nat} {s : State} {bs : List Byte} (hm : s.channels = .stereo) (hk : n ≤ k)
    (hb : readBytes s .input ic (n * s.gin) = .ok bs) (hd : n = 0 ∨ oc + n * s.gout ≤ s.olen) :
    ∃ t, stereoPasses k ic oc n s = .ok t ∧ FramesDone s t .output oc n bs := by
  induction k generalizing n ic oc s bs with
  | zero =>
    obtain rfl : n = 0 := by omega
    rw [Nat.zero_mul] at hb
    cases hb
    exact ⟨s, rfl, .zero s _ _⟩
  | succ k ih =>
    by_cases h0 : n = 0
    · subst h0
      rw [Nat.zero_mul] at hb
      cases hb
      exact ⟨s, rfl, .zero s _ _⟩
    · obtain ⟨p, hp⟩ : ∃ p, p = min n Config.chunkPkts := ⟨_, rfl⟩
      have hp' : 0 < p ∧ p ≤ n ∧ p ≤ 512 := by
        have : Config.chunkPkts = 512 := rfl
        omega
      have hn : n * s.gin = p * s.gin + (n - p) * s.gin := by
        rw [← Nat.add_mul]; congr 1; omega
      have ho : n * s.gout = p * s.gout + (n - p) * s.gout := by
        rw [← Nat.add_mul]; congr 1; omega
      rw [hn] at hb
      obtain ⟨xs, ys, hx, hy, rfl⟩ := readBytes_add.1 hb
      obtain ⟨s1, hs1, d1⟩ := stereoFrames_done (src := .input) (dst := .output) (d := oc) hm hp'.2.2 (.inl rfl) hx
        (.inr (by show oc + _ ≤ s.olen; omega))
      have hy' : readBytes s1 .input (ic + p * s.gin) ((n - p) * s1.gin) = .ok ys := by
        rw [d1.kept.gin, readBytes_of_same (d1.kept.spaceSize _) (d1.others .input (by simp) (by simp))]
        exact hy
      have ol : s1.olen = s.olen := d1.kept.spaceSize .output
      obtain ⟨t, ht, d2⟩ := ih (n := n - p) (ic := ic + p * s.gin) (oc := oc + p * s.gout) (s := s1)
        (by rw [d1.kept.1.2.1, hm]) (by omega) hy' (by rw [d1.kept.gout, ol]; omega)
      refine ⟨t, ?_, ?_⟩
      · rw [stereoPasses, if_neg h0, ← hp, hs1]
        exact ht
      · have := d1.append d2 (readBytes_ok.1 hx).1
        rwa [show p + (n - p) = n by omega] at this

/-- The direct path decodes the frames it takes (R173 to R176). -/
theorem direct_done {c : Cursor} {n : Nat} {s : State} {bs : List Byte}
    (hb : readBytes s .input c.ic (n * s.gin) = .ok bs) (hd : n = 0 ∨ c.oc + n * s.gout ≤ s.olen) :
    ∃ t, direct c n s = .ok t ∧ FramesDone s t .output c.oc n bs := by
  unfold direct
  cases hm : s.channels with
  | mono => exact monoFrames_done (src := .input) (dst := .output) hm hb hd
  | stereo => exact stereoPasses_done hm (Nat.le_refl n) hb hd

/-- The direct path of no frames does nothing. -/
theorem direct_or_skip {c : Cursor} {n : Nat} {s : State} {bs : List Byte}
    (hb : readBytes s .input c.ic (n * s.gin) = .ok bs) (hd : n = 0 ∨ c.oc + n * s.gout ≤ s.olen) :
    ∃ t, (if 0 < n then direct c n s else .ok s) = .ok t ∧ FramesDone s t .output c.oc n bs := by
  by_cases h : 0 < n
  · rw [if_pos h]; exact direct_done hb hd
  · obtain rfl : n = 0 := by omega
    rw [Nat.zero_mul] at hb
    cases hb
    exact ⟨s, rfl, .zero s _ _⟩

end Sys2Proof.Laws
end

