-- ==== Sys2Proof/Laws/PerInstr.lean ====
section
/-! SUPPORT. One statement about every operation as syntax, one lemma per constructor. -/

namespace Sys2Proof.Laws.CodedWord

open Sys2Proof

/-- How many bytes an operation's coded word has (R80, R81, R83, R88, R91): a block operation has none, a MACE3 packet
two, every other operation one. -/
def bytes : Instr → Nat
  | .pkt6 _ _ _ _ => 1
  | .pkt3 _ _ _ _ _ _ _ => 2
  | .step3 _ _ => 1
  | .step2 _ _ => 1
  | .block6 _ => 0
  | .block3 _ => 0
  | .nop => 1
  | .reset => 1
  | .process => 1
  | .totals => 1

/-- The encoder gives an operation a word of that many bytes. -/
def Statement (i : Instr) : Prop := (encode i).word.length = bytes i

theorem pkt6 (a : BitVec 3) (b : BitVec 2) (c : BitVec 3) (o : PktOps) : Statement (.pkt6 a b c o) := rfl

theorem pkt3 (a : BitVec 3) (b : BitVec 2) (c d : BitVec 3) (e : BitVec 2) (f : BitVec 3) (o : PktOps) :
    Statement (.pkt3 a b c d e f o) := rfl

theorem step3 (code : BitVec 3) (ch : Chan) : Statement (.step3 code ch) := rfl

theorem step2 (code : BitVec 2) (ch : Chan) : Statement (.step2 code ch) := rfl

theorem block6 (o : BlockOps) : Statement (.block6 o) := rfl

theorem block3 (o : BlockOps) : Statement (.block3 o) := rfl

theorem nop : Statement .nop := rfl

theorem reset : Statement .reset := rfl

theorem process : Statement .process := rfl

theorem totals : Statement .totals := rfl

end Sys2Proof.Laws.CodedWord
end

