-- ==== Sys2Proof/Laws/Turns.lean ====
section
/-! SUPPORT. What each state of the adapter does to the session's place in the stream (R172 to R179): one lemma per
state, each saying that the turn answers, keeps the place, and where it goes on or halts. -/

namespace Sys2Proof.Laws

open Sys2Proof Sys2Proof.Machine Sys2Proof.Safety

/-! ### The reference decode of a stream -/

/-- Whole frames decoded, however many steps are allowed. -/
theorem referenceDecode_frames (s : State) {m : Nat} (ps : Predictor × Predictor) {bs : List Byte}
    (h : bs.length = m * s.gin) :
    referenceDecode s ps bs = referenceFrames s.codec s.channels s.symOrder3 s.rom m ps bs := by
  have hd : bs.length / gin s.codec s.channels = m := by rw [h]; exact Nat.mul_div_cancel _ (gin_pos s)
  exact referenceFrames_enough _ _ _ _ _ _ (Nat.div_le_self _ _) (Nat.le_of_eq hd)

/-- Whole frames, then more. -/
theorem referenceDecode_append (s : State) (ps : Predictor × Predictor) {xs : List Byte} (ys : List Byte)
    (h : xs.length % s.gin = 0) :
    referenceDecode s ps (xs ++ ys) =
      ((referenceDecode s (referenceDecode s ps xs).1 ys).1,
        (referenceDecode s ps xs).2 ++ (referenceDecode s (referenceDecode s ps xs).1 ys).2) := by
  have hx : xs.length = xs.length / s.gin * s.gin := (Nat.div_mul_cancel (Nat.dvd_of_mod_eq_zero h)).symm
  have hy := Nat.div_le_self ys.length (gin s.codec s.channels)
  rw [referenceDecode_frames s ps hx]
  have := referenceFrames_append s.codec s.channels s.symOrder3 s.rom (j := ys.length) ps ys hx
  unfold referenceDecode
  rw [← this]
  refine referenceFrames_enough _ _ _ _ _ _ (Nat.div_le_self _ _) ?_
  have e : (xs ++ ys).length = ys.length + gin s.codec s.channels * (xs.length / s.gin) := by
    rw [List.length_append, Nat.mul_comm]
    show xs.length + _ = _ + xs.length / s.gin * s.gin
    omega
  rw [e, Nat.add_mul_div_left _ _ (gin_pos' _ _)]
  omega

/-- A stream shorter than a frame decodes to nothing. -/
theorem referenceDecode_short (s : State) (ps : Predictor × Predictor) {bs : List Byte} (h : bs.length < s.gin) :
    referenceDecode s ps bs = (ps, []) := by
  unfold referenceDecode
  cases bs with
  | nil => rfl
  | cons b bs => rw [List.length_cons, referenceFrames]; exact if_pos h

/-- The reference decode sees only the configuration and the tables. -/
theorem referenceDecode_congr {s t : State} (h : SameSetting s t) (ps : Predictor × Predictor) (bs : List Byte) :
    referenceDecode t ps bs = referenceDecode s ps bs := by
  unfold referenceDecode
  rw [h.1, h.2.1, h.2.2.1, h.2.2.2.1]

/-- What a decoder that has Predictor States and decoded bytes to start from has after more input. -/
def decodeFrom (s : State) (start : (Predictor × Predictor) × List Byte) (bs : List Byte) :
    (Predictor × Predictor) × List Byte :=
  ((referenceDecode s start.1 bs).1, start.2 ++ (referenceDecode s start.1 bs).2)

theorem decodeFrom_append (s : State) (start : (Predictor × Predictor) × List Byte) {xs : List Byte} (ys : List Byte)
    (h : xs.length % s.gin = 0) :
    decodeFrom s start (xs ++ ys) =
      ((referenceDecode s (decodeFrom s start xs).1 ys).1,
        (decodeFrom s start xs).2 ++ (referenceDecode s (decodeFrom s start xs).1 ys).2) := by
  simp only [decodeFrom, referenceDecode_append s _ ys h, List.append_assoc]

theorem decodeFrom_congr {s t : State} (h : SameSetting s t) (start : (Predictor × Predictor) × List Byte)
    (bs : List Byte) : decodeFrom t start bs = decodeFrom s start bs := by
  simp only [decodeFrom, referenceDecode_congr h]

/-! ### What no turn changes -/

/-- The setting, the totals, the response and the bytes of IN are as before. -/
def KeptTurn (s t : State) : Prop :=
  SameSetting s t ∧ t.totalIn = s.totalIn ∧ t.totalOut = s.totalOut ∧ t.response = s.response ∧
    ∀ a, t.byteAt .input a = s.byteAt .input a

theorem KeptTurn.refl (s : State) : KeptTurn s s := by simp [KeptTurn, SameSetting]

theorem KeptTurn.trans {s t u : State} (h : KeptTurn s t) (k : KeptTurn t u) : KeptTurn s u := by
  obtain ⟨⟨a1, a2, a3, a4, a5, a6, a7, a8⟩, b, c, d, e⟩ := h
  obtain ⟨⟨a1', a2', a3', a4', a5', a6', a7', a8'⟩, b', c', d', e'⟩ := k
  refine ⟨⟨?_, ?_, ?_, ?_, ?_, ?_, ?_, ?_⟩, ?_, ?_, ?_, fun a => ?_⟩ <;>
    simp only [a1, a2, a3, a4, a5, a6, a7, a8, b, c, d, e, a1', a2', a3', a4', a5', a6', a7', a8', b', c', d', e']

/-- What a decode keeps, a turn keeps, when it leaves IN alone. -/
theorem Kept.turn {s t : State} (h : Kept s t) (hi : ∀ a, t.byteAt .input a = s.byteAt .input a) : KeptTurn s t :=
  ⟨h.1, h.2.1.2.2.1, h.2.1.2.2.2, h.2.2, hi⟩

theorem KeptTurn.gin {s t : State} (h : KeptTurn s t) : t.gin = s.gin := by simp [State.gin, h.1.1, h.1.2.1]

theorem KeptTurn.gout {s t : State} (h : KeptTurn s t) : t.gout = s.gout := by simp [State.gout, h.1.2.1]

theorem KeptTurn.ilen {s t : State} (h : KeptTurn s t) : t.ilen = s.ilen := h.1.2.2.2.2.1

theorem KeptTurn.olen {s t : State} (h : KeptTurn s t) : t.olen = s.olen := h.1.2.2.2.2.2.1

theorem KeptTurn.spaceSize {s t : State} (h : KeptTurn s t) (sp : SpaceName) : t.spaceSize sp = s.spaceSize sp := by
  cases sp <;> simp [h.ilen, h.olen]

theorem keptTurn_setAdapter (s : State) (n : Nat) (q : AdapterState) : KeptTurn s (s.setAdapter n q) := by
  simp [KeptTurn, SameSetting]

theorem keptTurn_setCacheSize (s : State) (n : Nat) : KeptTurn s (s.setCacheSize n) := by
  simp [KeptTurn, SameSetting]

theorem keptTurn_setMem (s : State) {sp : SpaceName} (h : sp ≠ .input) (m : Memory) : KeptTurn s (s.setMem sp m) :=
  (kept_setMem s sp m).turn fun a => byteAt_setMem_ne s m h.symm a

/-- The cache size and state are not bytes. -/
theorem readBytes_setAdapter (s : State) (k : Nat) (q : AdapterState) (sp : SpaceName) (a n : Nat) :
    readBytes (s.setAdapter k q) sp a n = readBytes s sp a n :=
  readBytes_of_same (by simp) (by simp) a n

theorem readBytes_setCacheSize (s : State) (k : Nat) (sp : SpaceName) (a n : Nat) :
    readBytes (s.setCacheSize k) sp a n = readBytes s sp a n :=
  readBytes_of_same (by simp) (by simp) a n

/-! ### The place in the stream inside a PROCESS -/

/-- The bytes of an undecoded frame in the input cache. -/
def TurnInput (s : State) (held : List Byte) : Prop :=
  match s.state with
  | .init => held = []
  | .fillingCache => s.cacheSize < s.gin ∧ readBytes s .icache 0 s.cacheSize = .ok held
  | .processCache => s.cacheSize = s.gin ∧ readBytes s .icache 0 s.gin = .ok held
  | .cacheFull => held = []

/-- The decoded bytes not yet delivered. -/
def TurnOutput (s : State) (due : List Byte) : Prop :=
  match s.state with
  | .cacheFull =>
    1 ≤ s.cacheSize ∧ s.cacheSize ≤ s.gout ∧ readBytes s .ocache (s.gout - s.cacheSize) s.cacheSize = .ok due
  | _ => due = []

/-- Where a session stands in the stream between two turns of a PROCESS; `base` is what the stream started from. -/
structure InStream (base : (Predictor × Predictor) × List Byte) (taken given : List Byte) (s : State) (c : Cursor) : Prop where
  ic : c.ic ≤ s.ilen
  oc : c.oc ≤ s.olen
  readable : Readable s .input 0 s.ilen
  place : ∃ ins outs whole held due, readBytes s .input 0 c.ic = .ok ins ∧ readBytes s .output 0 c.oc = .ok outs ∧
    TurnInput s held ∧ TurnOutput s due ∧ taken ++ ins = whole ++ held ∧ whole.length % s.gin = 0 ∧
    decodeFrom s base whole = ((s.left, s.right), given ++ outs ++ due)

/-- IN stays readable. -/
theorem KeptTurn.readable {s t : State} (h : KeptTurn s t) (r : Readable s .input 0 s.ilen) :
    Readable t .input 0 t.ilen := by
  intro j hj
  rw [h.ilen] at hj
  rw [h.spaceSize, h.2.2.2.2]
  exact r j hj

/-- Any part of IN can be read. -/
theorem readInput {s : State} (r : Readable s .input 0 s.ilen) {a n : Nat} (h : a + n ≤ s.ilen) :
    ∃ vs, readBytes s .input a n = .ok vs := by
  refine readBytes_total fun j hj => ?_
  have := r (a + j) (by omega)
  rwa [Nat.zero_add] at this

theorem KeptTurn.readInput {s t : State} (h : KeptTurn s t) (a n : Nat) :
    readBytes t .input a n = readBytes s .input a n :=
  readBytes_of_same (h.spaceSize _) h.2.2.2.2 a n

/-- The turn answers `r`; it keeps the setting and the place, and goes on or halts as told. -/
def TurnTo (base : (Predictor × Predictor) × List Byte) (taken given : List Byte) (s : State) (c : Cursor)
    (goOn halt : State → Cursor → Prop) : Prop :=
  (∃ t d, adapterTurn c s = .ok (.goOn t d) ∧ KeptTurn s t ∧ InStream base taken given t d ∧ goOn t d) ∨
  (∃ t d, adapterTurn c s = .ok (.halt t d) ∧ KeptTurn s t ∧ InStream base taken given t d ∧ halt t d)

/-- Init (R173). -/
theorem init_turn {base : (Predictor × Predictor) × List Byte} {taken given : List Byte} {s : State} {c : Cursor}
    (h : InStream base taken given s c) (hs : s.state = .init) :
    TurnTo base taken given s c
      (fun t d => t.state = .fillingCache ∧ t.cacheSize = 0 ∧ d.ic < s.ilen ∧
        (s.ilen - d.ic < s.gin ∨ s.olen - d.oc < s.gout) ∧ d = afterDirect c s)
      (fun t d => t.state = .init ∧ t.cacheSize = s.cacheSize ∧ d.ic = s.ilen ∧ d = afterDirect c s) := by
  obtain ⟨hic, hoc, hr, ins, outs, whole, held, due, hin, hout, hti, hto, htk, hw, href⟩ := h
  simp only [TurnInput, TurnOutput, hs] at hti hto
  subst hti hto
  have hgi := gin_pos s
  have hgo := gout_pos s
  obtain ⟨n, hn⟩ : ∃ n, n = directCount c s := ⟨_, rfl⟩
  have h1 : n * s.gin ≤ s.ilen - c.ic := by
    rw [hn]; exact (Nat.mul_le_mul_right _ (Nat.min_le_left _ _)).trans (Nat.div_mul_le_self _ _)
  have h2 : n * s.gout ≤ s.olen - c.oc := by
    rw [hn]; exact (Nat.mul_le_mul_right _ (Nat.min_le_right _ _)).trans (Nat.div_mul_le_self _ _)
  have h3 : s.ilen - (c.ic + n * s.gin) < s.gin ∨ s.olen - (c.oc + n * s.gout) < s.gout := by
    rcases Nat.le_total ((s.ilen - c.ic) / s.gin) ((s.olen - c.oc) / s.gout) with hle | hle
    · left
      have e : n = (s.ilen - c.ic) / s.gin := by rw [hn, directCount, Nat.min_eq_left hle]
      have m := Nat.mod_lt (s.ilen - c.ic) hgi
      have d := Nat.div_add_mod (s.ilen - c.ic) s.gin
      rw [← e, Nat.mul_comm] at d
      omega
    · right
      have e : n = (s.olen - c.oc) / s.gout := by rw [hn, directCount, Nat.min_eq_right hle]
      have m := Nat.mod_lt (s.olen - c.oc) hgo
      have d := Nat.div_add_mod (s.olen - c.oc) s.gout
      rw [← e, Nat.mul_comm] at d
      omega
  obtain ⟨bs, hbs⟩ := readInput hr (a := c.ic) (n := n * s.gin) (by omega)
  obtain ⟨t, ht, fd⟩ := direct_or_skip (c := c) (n := n) hbs (by omega)
  have kt : KeptTurn s t := fd.kept.turn (fd.others .input (by simp) (by simp))
  have hd : afterDirect c s = ⟨c.ic + n * s.gin, c.oc + n * s.gout⟩ := by rw [afterDirect, ← hn]
  have hbl : bs.length = n * s.gin := (readBytes_ok.1 hbs).1
  have hpl : ∃ ins' outs', readBytes t .input 0 (c.ic + n * s.gin) = .ok ins' ∧
      readBytes t .output 0 (c.oc + n * s.gout) = .ok outs' ∧ taken ++ ins' = whole ++ bs ∧
      decodeFrom t base (whole ++ bs) = ((t.left, t.right), given ++ outs') := by
    rw [List.append_nil] at htk href
    have hl := referenceFrames_length s.codec s.channels s.symOrder3 s.rom n (s.left, s.right) hbl
    refine ⟨ins ++ bs, outs ++ (referenceFrames s.codec s.channels s.symOrder3 s.rom n (s.left, s.right) bs).2, ?_, ?_, ?_, ?_⟩
    · rw [kt.readInput, readBytes_add]
      exact ⟨ins, bs, hin, by rwa [Nat.zero_add], rfl⟩
    · rw [readBytes_add]
      refine ⟨outs, _, readBytes_ok.2 ⟨(readBytes_ok.1 hout).1, fun j hj => ?_⟩,
        readBytes_ok.2 ⟨hl, fun j hj => ?_⟩, rfl⟩
      · rw [fd.bytes, if_neg (by omega), kt.spaceSize]
        exact (readBytes_ok.1 hout).2 j hj
      · rw [fd.bytes, if_pos (by omega), kt.spaceSize]
        refine ⟨by show _ < s.olen; omega, ?_⟩
        congr 1; omega
    · rw [← List.append_assoc, htk]
    · rw [decodeFrom_congr kt.1, decodeFrom_append s _ _ hw, href, referenceDecode_frames s _ hbl, fd.left,
        fd.right, List.append_assoc]
  obtain ⟨ins', outs', q1, q2, q3, q4⟩ := hpl
  have hw' : (whole ++ bs).length % s.gin = 0 := by
    rw [List.length_append, hbl, Nat.add_mul_mod_self_right, hw]
  have hturn : ∀ r, adapterTurn c s = .ok r ↔ initState c s = .ok r := by intro r; simp only [adapterTurn, hs]
  rw [hn] at ht
  by_cases hg : 0 < s.ilen - (c.ic + n * s.gin)
  · left
    refine ⟨t.setAdapter 0 .fillingCache, ⟨c.ic + n * s.gin, c.oc + n * s.gout⟩, ?_, ?_, ?_, ?_⟩
    · rw [hturn, initState_ok]
      refine ⟨t, ht, by rw [hd, if_pos hg]⟩
    · exact kt.trans (keptTurn_setAdapter _ _ _)
    · have kk := kt.trans (keptTurn_setAdapter t 0 .fillingCache)
      refine ⟨by rw [kk.ilen]; show c.ic + n * s.gin ≤ _; omega, by rw [kk.olen]; show c.oc + n * s.gout ≤ _; omega,
        kk.readable hr, ins', outs', whole ++ bs, [], [],
        (readBytes_setAdapter ..).trans q1, (readBytes_setAdapter ..).trans q2, ?_, ?_, by rw [q3, List.append_nil], ?_, ?_⟩
      · simp only [TurnInput, setAdapter_state]
        exact ⟨by rw [kk.gin]; exact hgi, rfl⟩
      · simp only [TurnOutput, setAdapter_state]
      · rw [kk.gin]; exact hw'
      · rw [decodeFrom_congr (keptTurn_setAdapter t 0 .fillingCache).1, List.append_nil]; exact q4
    · exact ⟨rfl, rfl, by show c.ic + n * s.gin < _; omega, h3, hd.symm⟩
  · right
    refine ⟨t, ⟨c.ic + n * s.gin, c.oc + n * s.gout⟩, ?_, kt, ?_, ?_⟩
    · rw [hturn, initState_ok]
      refine ⟨t, ht, by rw [hd, if_neg hg]⟩
    · have st : t.state = .init := by rw [fd.kept.2.1.1, hs]
      refine ⟨by rw [kt.ilen]; show c.ic + n * s.gin ≤ _; omega, by rw [kt.olen]; show c.oc + n * s.gout ≤ _; omega,
        kt.readable hr, ins', outs', whole ++ bs, [], [], q1, q2, ?_, ?_, by rw [q3, List.append_nil], ?_, ?_⟩
      · simp only [TurnInput, st]
      · simp only [TurnOutput, st]
      · rw [kt.gin]; exact hw'
      · rw [List.append_nil]; exact q4
    · refine ⟨by rw [fd.kept.2.1.1, hs], fd.kept.2.1.2.1, ?_, hd.symm⟩
      show c.ic + n * s.gin = s.ilen
      omega

/-- FillingCache (R177). -/
theorem filling_turn {base : (Predictor × Predictor) × List Byte} {taken given : List Byte} {s : State} {c : Cursor}
    (h : InStream base taken given s c) (hs : s.state = .fillingCache) :
    TurnTo base taken given s c
      (fun t d => t.state = .processCache ∧ d = ⟨c.ic + (s.gin - s.cacheSize), c.oc⟩)
      (fun t d => t.state = .fillingCache ∧ t.cacheSize = s.cacheSize + (s.ilen - c.ic) ∧ d = ⟨s.ilen, c.oc⟩ ∧
        s.ilen - c.ic < s.gin - s.cacheSize ∧ t.left = s.left ∧ t.right = s.right) := by
  obtain ⟨hic, hoc, hr, ins, outs, whole, held, due, hin, hout, hti, hto, htk, hw, href⟩ := h
  simp only [TurnInput, TurnOutput, hs] at hti hto
  obtain ⟨hlt, hti⟩ := hti
  subst hto
  rw [List.append_nil] at href
  obtain ⟨k, hk⟩ : ∃ k, k = fillCount c s := ⟨_, rfl⟩
  have hk1 : k = min (s.ilen - c.ic) (s.gin - s.cacheSize) := hk
  obtain ⟨vs, hvs⟩ := readInput hr (a := c.ic) (n := k) (by omega)
  have hvl := (readBytes_ok.1 hvs).1
  have hgl := gin_le s
  obtain ⟨t, ht⟩ : ∃ t, t = s.setMem .icache (Memory.writeList (s.mem .icache) s.cacheSize vs) := ⟨_, rfl⟩
  have hwr : writeBytes s .icache s.cacheSize vs = .ok t := writeBytes_ok.2 ⟨by rw [hvl, spaceSize_icache]; omega, ht⟩
  have kt : KeptTurn s t := by rw [ht]; exact keptTurn_setMem s (by simp) _
  have hcache : readBytes t .icache 0 (s.cacheSize + k) = .ok (held ++ vs) := by
    rw [readBytes_add]
    refine ⟨held, vs, readBytes_ok.2 ⟨(readBytes_ok.1 hti).1, fun j hj => ?_⟩, readBytes_ok.2 ⟨hvl, fun j hj => ?_⟩, rfl⟩
    · rw [ht, byteAt_setMem_writeList, if_neg (by omega), setMem_spaceSize]
      exact (readBytes_ok.1 hti).2 j hj
    · rw [ht, byteAt_setMem_writeList, if_pos ⟨rfl, by omega, by omega⟩, setMem_spaceSize, spaceSize_icache]
      exact ⟨by omega, by congr 1; omega⟩
  have houtt : readBytes t .output 0 c.oc = .ok outs := by
    rw [readBytes_of_same (kt.spaceSize _) (fun a => by rw [ht]; exact byteAt_setMem_ne s _ (by simp) a)]; exact hout
  have hint : readBytes t .input 0 (c.ic + k) = .ok (ins ++ vs) := by
    rw [kt.readInput, readBytes_add]; exact ⟨ins, vs, hin, by rwa [Nat.zero_add], rfl⟩
  have htk' : taken ++ (ins ++ vs) = whole ++ (held ++ vs) := by
    rw [← List.append_assoc, htk, List.append_assoc]
  have hps : t.left = s.left ∧ t.right = s.right := by rw [ht]; simp
  have href' : decodeFrom t base whole = ((t.left, t.right), given ++ outs ++ []) := by
    rw [decodeFrom_congr kt.1, href, hps.1, hps.2, List.append_nil]
  have hturn : ∀ r, adapterTurn c s = .ok r ↔ fillingCacheState c s = .ok r := by intro r; simp only [adapterTurn, hs]
  by_cases hg : s.cacheSize + k = s.gin
  · left
    have kk := kt.trans (keptTurn_setAdapter t (s.cacheSize + k) .processCache)
    refine ⟨t.setAdapter (s.cacheSize + k) .processCache, ⟨c.ic + k, c.oc⟩, ?_, kk, ?_, ?_⟩
    · rw [hturn, fillingCacheState_ok, ← hk]
      exact ⟨by omega, vs, t, hvs, hwr, by rw [if_pos hg]⟩
    · refine ⟨by rw [kk.ilen]; show c.ic + k ≤ _; omega, by rw [kk.olen]; exact hoc, kk.readable hr, ins ++ vs, outs,
        whole, held ++ vs, [], (readBytes_setAdapter ..).trans hint, (readBytes_setAdapter ..).trans houtt, ?_, ?_, htk', by rw [kk.gin]; exact hw,
        (decodeFrom_congr (keptTurn_setAdapter t _ _).1 _ _).trans href'⟩
      · simp only [TurnInput, setAdapter_state]
        exact ⟨by rw [kk.gin]; exact hg, by rw [kk.gin, readBytes_setAdapter, ← hg]; exact hcache⟩
      · simp only [TurnOutput, setAdapter_state]
    · refine ⟨rfl, ?_⟩
      rw [show k = s.gin - s.cacheSize by omega]
  · right
    have kk := kt.trans (keptTurn_setCacheSize t (s.cacheSize + k))
    have st : (t.setCacheSize (s.cacheSize + k)).state = .fillingCache := by rw [ht]; simpa using hs
    refine ⟨t.setCacheSize (s.cacheSize + k), ⟨c.ic + k, c.oc⟩, ?_, kk, ?_, ?_⟩
    · rw [hturn, fillingCacheState_ok, ← hk]
      exact ⟨by omega, vs, t, hvs, hwr, by rw [if_neg hg]⟩
    · refine ⟨by rw [kk.ilen]; show c.ic + k ≤ _; omega, by rw [kk.olen]; exact hoc, kk.readable hr, ins ++ vs, outs,
        whole, held ++ vs, [], (readBytes_setCacheSize ..).trans hint, (readBytes_setCacheSize ..).trans houtt, ?_, ?_, htk', by rw [kk.gin]; exact hw,
        (decodeFrom_congr (keptTurn_setCacheSize t _).1 _ _).trans href'⟩
      · simp only [TurnInput, st]
        exact ⟨by rw [kk.gin]; show s.cacheSize + k < _; omega, (readBytes_setCacheSize ..).trans hcache⟩
      · simp only [TurnOutput, st]
    · refine ⟨st, ?_, ?_, by omega, hps.1, hps.2⟩
      · show s.cacheSize + k = _; omega
      · rw [show c.ic + k = s.ilen by omega]

/-- ProcessCache (R178). -/
theorem process_turn {base : (Predictor × Predictor) × List Byte} {taken given : List Byte} {s : State} {c : Cursor}
    (h : InStream base taken given s c) (hs : s.state = .processCache) :
    TurnTo base taken given s c (fun t d => t.state = .cacheFull ∧ t.cacheSize = s.gout ∧ d = c)
      (fun _ _ => False) := by
  obtain ⟨hic, hoc, hr, ins, outs, whole, held, due, hin, hout, hti, hto, htk, hw, href⟩ := h
  simp only [TurnInput, TurnOutput, hs] at hti hto
  obtain ⟨hlt, hti⟩ := hti
  subst hto
  rw [List.append_nil] at href
  have hgo := gout_le s
  have hgp := gout_pos s
  have hhl : held.length = 1 * s.gin := by rw [Nat.one_mul]; exact (readBytes_ok.1 hti).1
  have hti1 : readBytes s Src.icache.space 0 (1 * s.gin) = .ok held := by rw [Nat.one_mul]; exact hti
  obtain ⟨t, ht, fd⟩ : ∃ t, ((s.channels = .mono ∧ monoFrames .icache 0 .ocache 0 1 s = .ok t) ∨
      (s.channels = .stereo ∧ stereoFrames .icache 0 .ocache 0 1 s = .ok t)) ∧
      FramesDone s t .ocache 0 1 held := by
    cases hm : s.channels with
    | mono =>
      obtain ⟨t, ht, fd⟩ := monoFrames_done (src := .icache) (dst := .ocache) (d := 0) hm hti1
        (.inr (by show 0 + 1 * s.gout ≤ 12; omega))
      exact ⟨t, .inl ⟨rfl, ht⟩, fd⟩
    | stereo =>
      obtain ⟨t, ht, fd⟩ := stereoFrames_done (src := .icache) (dst := .ocache) (d := 0) hm (by omega) (.inr rfl) hti1
        (.inr (by show 0 + 1 * s.gout ≤ 12; omega))
      exact ⟨t, .inr ⟨rfl, ht⟩, fd⟩
  have kt : KeptTurn s t := fd.kept.turn (fd.others .input (by simp) (by simp))
  have kk := kt.trans (keptTurn_setAdapter t s.gout .cacheFull)
  have hl := referenceFrames_length s.codec s.channels s.symOrder3 s.rom 1 (s.left, s.right) hhl
  left
  refine ⟨t.setAdapter s.gout .cacheFull, c, ?_, kk, ?_, rfl, rfl, rfl⟩
  · simp only [adapterTurn, hs]
    rw [processCacheState_ok]
    exact ⟨t, ht, rfl⟩
  · refine ⟨by rw [kk.ilen]; exact hic, by rw [kk.olen]; exact hoc, kk.readable hr, ins, outs, whole ++ held, [],
      (referenceFrames s.codec s.channels s.symOrder3 s.rom 1 (s.left, s.right) held).2, ?_, ?_, ?_, ?_, ?_, ?_, ?_⟩
    · rw [kk.readInput]; exact hin
    · exact (readBytes_setAdapter ..).trans
        ((readBytes_of_same (kt.spaceSize _) (fd.others .output (by simp) (by simp)) _ _).trans hout)
    · simp only [TurnInput, setAdapter_state]
    · simp only [TurnOutput, setAdapter_state]
      refine ⟨by show 1 ≤ s.gout; omega, by rw [kk.gout]; exact Nat.le_refl _, ?_⟩
      rw [kk.gout, readBytes_setAdapter]
      show readBytes t .ocache (s.gout - s.gout) s.gout = _
      refine readBytes_ok.2 ⟨hl.trans (Nat.one_mul _), fun j hj => ?_⟩
      rw [fd.bytes, if_pos (by omega), spaceSize_ocache]
      exact ⟨by omega, by congr 1; omega⟩
    · rw [List.append_nil]; exact htk
    · rw [kk.gin, List.length_append, hhl, Nat.add_mul_mod_self_right, hw]
    · rw [decodeFrom_congr kk.1, decodeFrom_append s _ _ hw, href, referenceDecode_frames s _ hhl]
      show _ = ((t.left, t.right), _)
      rw [fd.left, fd.right]

/-- CacheFull (R179). -/
theorem full_turn {base : (Predictor × Predictor) × List Byte} {taken given : List Byte} {s : State} {c : Cursor}
    (h : InStream base taken given s c) (hs : s.state = .cacheFull) :
    TurnTo base taken given s c
      (fun t d => t.state = .init ∧ t.cacheSize = 0 ∧ s.cacheSize ≤ s.olen - c.oc ∧ d = ⟨c.ic, c.oc + s.cacheSize⟩)
      (fun t d => t.state = .cacheFull ∧ t.cacheSize = s.cacheSize - (s.olen - c.oc) ∧ d = ⟨c.ic, s.olen⟩ ∧
        s.olen - c.oc < s.cacheSize ∧ t.left = s.left ∧ t.right = s.right) := by
  obtain ⟨hic, hoc, hr, ins, outs, whole, held, due, hin, hout, hti, hto, htk, hw, href⟩ := h
  simp only [TurnInput, TurnOutput, hs] at hti hto
  obtain ⟨h1, hle, hto⟩ := hto
  subst hti
  obtain ⟨k, hk⟩ : ∃ k, k = drainCount c s := ⟨_, rfl⟩
  have hk1 : k = min (s.olen - c.oc) s.cacheSize := hk
  have hsplit : s.cacheSize = k + (s.cacheSize - k) := by omega
  rw [hsplit] at hto
  obtain ⟨vs, rest, hvs', hrest, rfl⟩ := readBytes_add.1 hto
  rw [← hsplit] at hvs' hrest
  have hvl := (readBytes_ok.1 hvs').1
  obtain ⟨t, ht⟩ : ∃ t, t = s.setMem .output (Memory.writeList (s.mem .output) c.oc vs) := ⟨_, rfl⟩
  have hwr : writeBytes s .output c.oc vs = .ok t := writeBytes_ok.2 ⟨by rw [hvl, spaceSize_output]; omega, ht⟩
  have kt : KeptTurn s t := by rw [ht]; exact keptTurn_setMem s (by simp) _
  have houtt : readBytes t .output 0 (c.oc + k) = .ok (outs ++ vs) := by
    rw [readBytes_add]
    refine ⟨outs, vs, readBytes_ok.2 ⟨(readBytes_ok.1 hout).1, fun j hj => ?_⟩, readBytes_ok.2 ⟨hvl, fun j hj => ?_⟩, rfl⟩
    · rw [ht, byteAt_setMem_writeList, if_neg (by omega), setMem_spaceSize]
      exact (readBytes_ok.1 hout).2 j hj
    · rw [ht, byteAt_setMem_writeList, if_pos ⟨rfl, by omega, by omega⟩, setMem_spaceSize, spaceSize_output]
      exact ⟨by omega, by congr 1; omega⟩
  have hint : readBytes t .input 0 c.ic = .ok ins := by rw [kt.readInput]; exact hin
  have hps : t.left = s.left ∧ t.right = s.right := by rw [ht]; simp
  have href' : decodeFrom t base whole = ((t.left, t.right), given ++ (outs ++ vs) ++ rest) := by
    rw [decodeFrom_congr kt.1, href, hps.1, hps.2]; simp only [List.append_assoc]
  have hturn : ∀ r, adapterTurn c s = .ok r ↔ cacheFullState c s = .ok r := by intro r; simp only [adapterTurn, hs]
  by_cases hg : s.cacheSize - k = 0
  · left
    have kk := kt.trans (keptTurn_setAdapter t 0 .init)
    refine ⟨t.setAdapter 0 .init, ⟨c.ic, c.oc + k⟩, ?_, kk, ?_, ?_⟩
    · rw [hturn, cacheFullState_ok, ← hk]
      exact ⟨by omega, vs, t, hvs', hwr, by rw [if_pos hg]⟩
    · rw [hg] at hrest
      cases hrest
      refine ⟨by rw [kk.ilen]; exact hic, by rw [kk.olen]; show c.oc + k ≤ _; omega, kk.readable hr, ins, outs ++ vs,
        whole, [], [], (readBytes_setAdapter ..).trans hint, (readBytes_setAdapter ..).trans houtt, ?_, ?_, htk, by rw [kk.gin]; exact hw,
        (decodeFrom_congr (keptTurn_setAdapter t _ _).1 _ _).trans href'⟩
      · simp only [TurnInput, setAdapter_state]
      · simp only [TurnOutput, setAdapter_state]
    · refine ⟨rfl, rfl, by omega, ?_⟩
      rw [show k = s.cacheSize by omega]
  · right
    have kk := kt.trans (keptTurn_setCacheSize t (s.cacheSize - k))
    have st : (t.setCacheSize (s.cacheSize - k)).state = .cacheFull := by rw [ht]; simpa using hs
    refine ⟨t.setCacheSize (s.cacheSize - k), ⟨c.ic, c.oc + k⟩, ?_, kk, ?_, ?_⟩
    · rw [hturn, cacheFullState_ok, ← hk]
      exact ⟨by omega, vs, t, hvs', hwr, by rw [if_neg hg]⟩
    · refine ⟨by rw [kk.ilen]; exact hic, by rw [kk.olen]; show c.oc + k ≤ _; omega, kk.readable hr, ins, outs ++ vs,
        whole, [], rest, (readBytes_setCacheSize ..).trans hint, (readBytes_setCacheSize ..).trans houtt, ?_, ?_, htk, by rw [kk.gin]; exact hw,
        (decodeFrom_congr (keptTurn_setCacheSize t _).1 _ _).trans href'⟩
      · simp only [TurnInput, st]
      · simp only [TurnOutput, st]
        refine ⟨by show 1 ≤ s.cacheSize - k; omega, by rw [kk.gout]; show s.cacheSize - k ≤ _; omega, ?_⟩
        rw [kk.gout, readBytes_setCacheSize]
        show readBytes t .ocache (s.gout - (s.cacheSize - k)) (s.cacheSize - k) = _
        rw [readBytes_of_same (kt.spaceSize _) (fun a => by rw [ht]; exact byteAt_setMem_ne s _ (by simp) a),
          show s.gout - (s.cacheSize - k) = s.gout - s.cacheSize + k by omega]
        exact hrest
    · refine ⟨st, ?_, ?_, by omega, hps.1, hps.2⟩
      · show s.cacheSize - k = _; omega
      · rw [show c.oc + k = s.olen by omega]

/-! ### A whole PROCESS -/

/-- The loop answers within `k` turns, keeps the place, ends outside ProcessCache and has used IN or OUT up. -/
def LoopDone (base : (Predictor × Predictor) × List Byte) (taken given : List Byte) (k : Nat) (s : State) (c : Cursor) : Prop :=
  ∃ t d, adapterLoop k c s = .ok (t, d) ∧ KeptTurn s t ∧ InStream base taken given t d ∧
    t.state ≠ .processCache ∧ (d.ic = s.ilen ∨ d.oc = s.olen)

/-- One turn, then the rest of the loop. -/
theorem loopDone_turn {base : (Predictor × Predictor) × List Byte} {taken given : List Byte} {k : Nat} {s : State} {c : Cursor}
    {goOn halt : State → Cursor → Prop} (h : TurnTo base taken given s c goOn halt)
    (hh : ∀ t d, halt t d → t.state ≠ .processCache ∧ (d.ic = s.ilen ∨ d.oc = s.olen))
    (hg : ∀ t d, goOn t d → KeptTurn s t → InStream base taken given t d → LoopDone base taken given k t d) :
    LoopDone base taken given (k + 1) s c := by
  rcases h with ⟨t, d, ht, kt, it, g⟩ | ⟨t, d, ht, kt, it, g⟩
  · obtain ⟨u, e, hu, ku, iu, su, eu⟩ := hg t d g kt it
    refine ⟨u, e, adapterLoop_ok.2 (.inr ⟨t, d, ht, hu⟩), kt.trans ku, iu, su, ?_⟩
    rwa [← kt.ilen, ← kt.olen]
  · exact ⟨t, d, adapterLoop_ok.2 (.inl ht), kt, it, hh t d g⟩

/-- With less room than the cached frame, CacheFull halts. -/
theorem full_last {base : (Predictor × Predictor) × List Byte} {taken given : List Byte} {s : State} {c : Cursor} (k : Nat)
    (h : InStream base taken given s c) (hs : s.state = .cacheFull) (hr : s.olen - c.oc < s.cacheSize) :
    LoopDone base taken given (k + 1) s c :=
  loopDone_turn (full_turn h hs) (fun _ _ g => ⟨by rw [g.1]; simp, .inr (by rw [g.2.2.1])⟩)
    fun _ _ g => by have := g.2.2.1; omega

/-- With less room than a frame, ProcessCache is followed by the halt in CacheFull. -/
theorem process_last {base : (Predictor × Predictor) × List Byte} {taken given : List Byte} {s : State} {c : Cursor} (k : Nat)
    (h : InStream base taken given s c) (hs : s.state = .processCache) (hr : s.olen - c.oc < s.gout) :
    LoopDone base taken given (k + 2) s c :=
  loopDone_turn (process_turn h hs) (fun _ _ g => g.elim) fun t d g kt it =>
    full_last k it g.1 (by rw [kt.olen, g.2.1, g.2.2]; exact hr)

/-- With less input or less room than a frame, an empty FillingCache leads to a halt. -/
theorem filling_last {base : (Predictor × Predictor) × List Byte} {taken given : List Byte} {s : State} {c : Cursor} (k : Nat)
    (h : InStream base taken given s c) (hs : s.state = .fillingCache) (h0 : s.cacheSize = 0)
    (hr : s.ilen - c.ic < s.gin ∨ s.olen - c.oc < s.gout) : LoopDone base taken given (k + 3) s c :=
  loopDone_turn (filling_turn h hs) (fun _ _ g => ⟨by rw [g.1]; simp, .inl (by rw [g.2.2.1])⟩)
    fun t d g kt it => process_last k it g.1 (by
      have hi := it.ic
      rw [kt.ilen, g.2] at hi
      have hi' : c.ic + (s.gin - s.cacheSize) ≤ s.ilen := hi
      have := h.ic
      have := gin_pos s
      rw [kt.olen, kt.gout, g.2]
      show s.olen - c.oc < s.gout
      omega)

/-- From Init the loop halts within four turns. -/
theorem init_done {base : (Predictor × Predictor) × List Byte} {taken given : List Byte} {s : State} {c : Cursor} (k : Nat)
    (h : InStream base taken given s c) (hs : s.state = .init) : LoopDone base taken given (k + 4) s c :=
  loopDone_turn (init_turn h hs) (fun _ _ g => ⟨by rw [g.1]; simp, .inl g.2.2.1⟩) fun t d g kt it =>
    filling_last k it g.1 g.2.1 (by rw [kt.ilen, kt.olen, kt.gin, kt.gout]; exact g.2.2.2.1)

/-- From CacheFull the loop halts within five turns. -/
theorem full_done {base : (Predictor × Predictor) × List Byte} {taken given : List Byte} {s : State} {c : Cursor} (k : Nat)
    (h : InStream base taken given s c) (hs : s.state = .cacheFull) : LoopDone base taken given (k + 5) s c :=
  loopDone_turn (full_turn h hs) (fun _ _ g => ⟨by rw [g.1]; simp, .inr (by rw [g.2.2.1])⟩)
    fun _ _ g _ it => init_done k it g.1

/-- From ProcessCache the loop halts within six turns. -/
theorem process_done {base : (Predictor × Predictor) × List Byte} {taken given : List Byte} {s : State} {c : Cursor} (k : Nat)
    (h : InStream base taken given s c) (hs : s.state = .processCache) : LoopDone base taken given (k + 6) s c :=
  loopDone_turn (process_turn h hs) (fun _ _ g => g.elim) fun _ _ g _ it => full_done k it g.1

/-- From every place in a stream the loop halts within seven turns, keeps the place, and has used IN or OUT up (R186). -/
theorem adapterLoop_done {base : (Predictor × Predictor) × List Byte} {taken given : List Byte} {s : State} {c : Cursor}
    (h : InStream base taken given s c) : LoopDone base taken given maxTurns s c := by
  cases hs : s.state with
  | init => exact init_done 3 h hs
  | fillingCache =>
    exact loopDone_turn (filling_turn h hs) (fun _ _ g => ⟨by rw [g.1]; simp, .inl (by rw [g.2.2.1])⟩)
      fun _ _ g _ it => process_done 0 it g.1
  | processCache => exact process_done 1 h hs
  | cacheFull => exact full_done 2 h hs

/-- A session that stands at a place in a stream starts a PROCESS there. -/
theorem inStream_of_streamAt {s : State} {base : Predictor × Predictor} {taken given : List Byte}
    (h : StreamAt s base taken given) (hr : Readable s .input 0 s.ilen) : InStream (base, []) taken given s ⟨0, 0⟩ := by
  obtain ⟨whole, held, due, hi, ho, ht, hw, hd⟩ := h
  refine ⟨Nat.zero_le _, Nat.zero_le _, hr, [], [], whole, held, due, rfl, rfl, ?_, ?_, by rw [List.append_nil, ht], hw, ?_⟩
  · unfold HeldInput at hi
    unfold TurnInput
    unfold HeldOutput at ho
    cases hs : s.state <;> rw [hs] at hi ho
    · exact hi
    · exact ⟨hi.2.1 ▸ hi.1, hi.2.2⟩
    · exact ho.elim
    · exact hi
  · unfold HeldOutput at ho
    unfold TurnOutput
    cases hs : s.state <;> rw [hs] at ho
    · exact ho
    · exact ho
    · exact ho.elim
    · exact ⟨ho.1, ho.2.1, ho.2.2.2⟩
  · simp only [decodeFrom, hd, List.nil_append, List.append_nil]

/-- A consistent session starts a PROCESS at the place it stands at. -/
theorem inStream_of_consistent {s : State} (h : SessionConsistent s) (hr : Readable s .input 0 s.ilen) :
    ∃ held due, InStream ((s.left, s.right), due) held [] s ⟨0, 0⟩ := by
  unfold SessionConsistent at h
  cases hs : s.state <;> rw [hs] at h
  · refine ⟨[], [], Nat.zero_le _, Nat.zero_le _, hr, [], [], [], [], [], rfl, rfl, ?_, ?_, rfl, rfl, rfl⟩ <;>
      simp [TurnInput, TurnOutput, hs]
  · obtain ⟨held, hh⟩ := readBytes_total h.2
    refine ⟨held, [], Nat.zero_le _, Nat.zero_le _, hr, [], [], [], held, [], rfl, rfl, ?_, ?_, by simp, rfl, rfl⟩
    · simp only [TurnInput, hs]; exact ⟨h.1, hh⟩
    · simp [TurnOutput, hs]
  · exact h.elim
  · obtain ⟨due, hh⟩ := readBytes_total h.2.2
    refine ⟨[], due, Nat.zero_le _, Nat.zero_le _, hr, [], [], [], [], due, rfl, rfl, ?_, ?_, rfl, rfl, ?_⟩
    · simp [TurnInput, hs]
    · simp only [TurnOutput, hs]; exact ⟨h.1, h.2.1, hh⟩
    · simp [decodeFrom, referenceDecode, referenceFrames]

/-- A PROCESS within the host's duties, from a place in a stream, completes: its loop's last state with the report. -/
theorem process_runs {base : (Predictor × Predictor) × List Byte} {taken given : List Byte} {s : State}
    (ha : ProcessAllowed s) (h : InStream base taken given s ⟨0, 0⟩) :
    ∃ t d, exec .process s = .next (report t d) ∧ adapterLoop maxTurns ⟨0, 0⟩ s = .ok (t, d) ∧ KeptTurn s t ∧
      InStream base taken given t d ∧ t.state ≠ .processCache ∧ (d.ic = s.ilen ∨ d.oc = s.olen) := by
  obtain ⟨t, d, hl, hk, hi, hs, he⟩ := adapterLoop_done h
  exact ⟨t, d, execProcess_next.2 ⟨ha.1, ha.2.1, ha.2.2.1, runProcess_ok.2 ⟨t, d, hl, rfl⟩⟩, hl, hk, hi, hs, he⟩

end Sys2Proof.Laws
end

