-- ==== Sys2Proof/Laws/TurnFrames.lean ====
section
/-! SUPPORT. What every turn of the adapter that answers leaves alone, from any state, consistent or not. -/

namespace Sys2Proof.Laws

open Sys2Proof Sys2Proof.Machine Sys2Proof.Safety

/-- What a decode of frames into a space keeps: all but the Predictor States, that space and the scratch buffers; in a
mono session the scratch buffers and PS[2] too. -/
structure DecodeKeeps (s t : State) (dst : SpaceName) : Prop where
  kept : Kept s t
  others : ∀ sp, sp ≠ dst → sp ≠ .scratchL → sp ≠ .scratchR → ∀ a, t.byteAt sp a = s.byteAt sp a
  mono : s.channels = .mono → t.right = s.right ∧ ∀ sp, sp ≠ dst → ∀ a, t.byteAt sp a = s.byteAt sp a

theorem DecodeKeeps.refl (s : State) (dst : SpaceName) : DecodeKeeps s s dst :=
  ⟨Kept.refl s, fun _ _ _ _ _ => rfl, fun _ => ⟨rfl, fun _ _ _ => rfl⟩⟩

theorem DecodeKeeps.trans {s t u : State} {dst : SpaceName} (h : DecodeKeeps s t dst) (k : DecodeKeeps t u dst) :
    DecodeKeeps s u dst :=
  ⟨h.kept.trans k.kept, fun sp a b c x => (k.others sp a b c x).trans (h.others sp a b c x), fun hm => by
    have hm' : t.channels = .mono := by rw [h.kept.1.2.1, hm]
    exact ⟨(k.mono hm').1.trans (h.mono hm).1, fun sp a x => ((k.mono hm').2 sp a x).trans ((h.mono hm).2 sp a x)⟩⟩

theorem monoFrames_keeps {src : Src} {b : Nat} {dst : Dst} {d m : Nat} {s t : State}
    (h : monoFrames src b dst d m s = .ok t) : DecodeKeeps s t dst.space := by
  obtain ⟨k, kb, kp⟩ := runBlock_keeps (monoFrames_ok.1 h)
  exact ⟨k, fun sp a _ _ x => kb sp a x, fun _ => ⟨kp .right (by simp), fun sp a x => kb sp a x⟩⟩

theorem stereoFrames_keeps {src : Src} {b : Nat} {dst : Dst} {d m : Nat} {s t : State} (hm : s.channels = .stereo)
    (h : stereoFrames src b dst d m s = .ok t) : DecodeKeeps s t dst.space := by
  obtain ⟨s1, s2, tl, tr, h1, h2, -, -, hw⟩ := stereoFrames_ok.1 h
  obtain ⟨k1, b1, -⟩ := runBlock_keeps h1
  obtain ⟨k2, b2, -⟩ := runBlock_keeps h2
  obtain ⟨-, rfl⟩ := writeBytes_ok.1 hw
  exact ⟨(k1.trans k2).trans (kept_setMem _ _ _),
    fun sp a l r x => by rw [byteAt_setMem_ne _ _ a, b2 sp r, b1 sp l], fun e => by rw [hm] at e; cases e⟩

theorem stereoPasses_keeps {k ic oc n : Nat} {s t : State} (hm : s.channels = .stereo)
    (h : stereoPasses k ic oc n s = .ok t) : DecodeKeeps s t .output := by
  induction k generalizing ic oc n s with
  | zero => cases h; exact .refl _ _
  | succ k ih =>
    rw [stereoPasses] at h
    split at h
    · cases h; exact .refl _ _
    · split at h
      · cases h
      · rename_i s1 h1
        have d := stereoFrames_keeps hm h1
        exact d.trans (ih (by rw [d.kept.1.2.1, hm]) h)

theorem direct_keeps {c : Cursor} {n : Nat} {s t : State} (h : direct c n s = .ok t) : DecodeKeeps s t .output := by
  unfold direct at h
  cases hm : s.channels with
  | mono => rw [hm] at h; exact monoFrames_keeps h
  | stereo => rw [hm] at h; exact stereoPasses_keeps hm h

/-- What a turn that answers keeps. -/
structure TurnKeeps (s t : State) (c d : Cursor) : Prop where
  kept : KeptTurn s t
  mono : s.channels = .mono → t.right = s.right ∧ (∀ a, t.byteAt .scratchL a = s.byteAt .scratchL a) ∧
    (∀ a, t.byteAt .scratchR a = s.byteAt .scratchR a)

/-- The state and the cursors a turn leaves. -/
def Turn.state : Turn → State
  | .goOn t _ => t
  | .halt t _ => t

def Turn.cursor : Turn → Cursor
  | .goOn _ d => d
  | .halt _ d => d

theorem turn_keeps {c : Cursor} {s : State} {r : Turn} (h : adapterTurn c s = .ok r) :
    TurnKeeps s (Turn.state r) c (Turn.cursor r) := by
  cases hs : s.state with
  | init =>
    simp only [adapterTurn, hs] at h
    obtain ⟨t, ht, rfl⟩ := initState_ok.1 h
    have d : DecodeKeeps s t .output := by
      split at ht
      · exact direct_keeps ht
      · cases ht; exact .refl _ _
    have kt := d.kept.turn (d.others .input (by simp) (by simp) (by simp))
    have m : s.channels = .mono → t.right = s.right ∧ (∀ a, t.byteAt .scratchL a = s.byteAt .scratchL a) ∧
      (∀ a, t.byteAt .scratchR a = s.byteAt .scratchR a) := fun hm =>
      ⟨(d.mono hm).1, (d.mono hm).2 .scratchL (by simp), (d.mono hm).2 .scratchR (by simp)⟩
    split
    · exact ⟨kt.trans (keptTurn_setAdapter _ _ _), m⟩
    · exact ⟨kt, m⟩
  | fillingCache =>
    simp only [adapterTurn, hs] at h
    obtain ⟨-, vs, t, -, hw, rfl⟩ := fillingCacheState_ok.1 h
    obtain ⟨-, rfl⟩ := writeBytes_ok.1 hw
    split
    · exact ⟨(keptTurn_setMem s (by simp) _).trans (keptTurn_setAdapter _ _ _), fun _ => ⟨rfl, fun _ => rfl, fun _ => rfl⟩⟩
    · exact ⟨(keptTurn_setMem s (by simp) _).trans (keptTurn_setCacheSize _ _), fun _ => ⟨rfl, fun _ => rfl, fun _ => rfl⟩⟩
  | processCache =>
    simp only [adapterTurn, hs] at h
    obtain ⟨t, ht, rfl⟩ := processCacheState_ok.1 h
    have d : DecodeKeeps s t .ocache := by
      rcases ht with ⟨hm, ht⟩ | ⟨hm, ht⟩
      · exact monoFrames_keeps ht
      · exact stereoFrames_keeps hm ht
    exact ⟨(d.kept.turn (d.others .input (by simp) (by simp) (by simp))).trans (keptTurn_setAdapter _ _ _), fun hm =>
      ⟨(d.mono hm).1, (d.mono hm).2 .scratchL (by simp), (d.mono hm).2 .scratchR (by simp)⟩⟩
  | cacheFull =>
    simp only [adapterTurn, hs] at h
    obtain ⟨-, vs, t, -, hw, rfl⟩ := cacheFullState_ok.1 h
    obtain ⟨-, rfl⟩ := writeBytes_ok.1 hw
    split
    · exact ⟨(keptTurn_setMem s (by simp) _).trans (keptTurn_setAdapter _ _ _), fun _ => ⟨rfl, fun _ => rfl, fun _ => rfl⟩⟩
    · exact ⟨(keptTurn_setMem s (by simp) _).trans (keptTurn_setCacheSize _ _), fun _ => ⟨rfl, fun _ => rfl, fun _ => rfl⟩⟩

end Sys2Proof.Laws
end

