-- ==== Sys2Proof/Tests/Slice0.lean ====
section
/-! SUPPORT. The author's own tests: ill-formed operations, words written out from the encoding, vectors of
spec/95_test_vectors.md under its made-up tables TCFG-T, and a witness for the hypotheses of every obligation that has
some. Every expected value comes from the spec's text. -/

namespace Sys2Proof.Tests

open Sys2Proof Sys2Proof.Machine Sys2Proof.Safety

/-! ### The bench -/

/-- `n` values of a function from `i` on. -/
def tabulate (f : Nat → I16) : Nat → Nat → List I16
  | 0, _ => []
  | n + 1, i => f i :: tabulate f n (i + 1)

theorem tabulate_length (f : Nat → I16) (n i : Nat) : (tabulate f n i).length = n := by
  induction n generalizing i with
  | zero => rfl
  | succ n ih => simp [tabulate, ih]

/-- `T8B` of TCFG-T (95_test_vectors.md section 2). -/
def big8Entry (i : Nat) : I16 :=
  if i % 8 < 4 then BitVec.ofInt 16 ((i % 8 + 1 : Nat) * (60 * (i / 8) + 32 : Nat))
  else BitVec.ofInt 16 (-((8 - i % 8 : Nat) * (60 * (i / 8) + 32 : Nat)) - 1)

/-- `T4B` of TCFG-T. -/
def big4Entry (i : Nat) : I16 :=
  if i % 4 < 2 then BitVec.ofInt 16 ((i % 4 + 1 : Nat) * (120 * (i / 4) + 64 : Nat))
  else BitVec.ofInt 16 (-((4 - i % 4 : Nat) * (120 * (i / 4) + 64 : Nat)) - 1)

/-- The tables TCFG-T. -/
def tcfg : Tables where
  t4s := #v[-20, 150, 150, -20]
  t4b := ⟨(tabulate big4Entry 512 0).toArray, by rw [List.size_toArray, tabulate_length]⟩
  t8s := #v[-15, 10, 80, 230, 230, 80, 10, -15]
  t8b := ⟨(tabulate big8Entry 1024 0).toArray, by rw [List.size_toArray, tabulate_length]⟩

/-- A freshly reset session under a configuration, with TCFG-T. -/
def bench (codec : Codec) (chs : Channels) : State :=
  { State.reset with
    rom := tcfg, codec := codec, channels := chs, lines := { codec := codec, channels := chs.number, breach := none } }

/-- The two arrays a host hands over: `OUT` holds `A5` throughout. -/
def buf (input : List Byte) (olen : Nat) : Handover := { input := input, output := List.replicate olen 0xA5 }

/-- The bench with `IN` and `OUT` handed over. -/
def benchIn (codec : Codec) (chs : Channels) (input : List Byte) (olen : Nat) : State :=
  (bench codec chs).handOver (some (buf input olen))

/-- The state an outcome leaves, or the given one. -/
def after (s : State) : Host.Outcome State Fault Refusal → State
  | .next t => t
  | _ => s

/-- Whether an outcome is a next state. -/
def isNext : Host.Outcome State Fault Refusal → Bool
  | .next _ => true
  | _ => false

theorem next_of_isNext {r : Host.Outcome State Fault Refusal} (h : isNext r = true) : ∃ t, r = .next t := by
  cases r with
  | next t => exact ⟨t, rfl⟩
  | fault f => cases h
  | refused f => cases h

/-- The six fields of a Predictor State as integers, in the order of the spec's vectors. -/
def fields (p : Predictor) : List Int :=
  [p.tableIndex.toInt, p.lastStep.toInt, p.lastAmplitude.toInt, p.lastSlope.toInt, p.sample1.toInt, p.sample2.toInt]

/-- The first `n` bytes of a space as numbers. -/
def bytesOf (s : State) (sp : SpaceName) (n : Nat) : List (Option Nat) :=
  (List.range n).map fun a => (s.byteAt sp a).map BitVec.toNat

/-- A Predictor State from its fields. -/
def pred (ti ls la sl s1 s2 : Int) : Predictor :=
  { tableIndex := BitVec.ofInt 32 ti, lastStep := BitVec.ofInt 32 ls, lastAmplitude := BitVec.ofInt 32 la,
    lastSlope := BitVec.ofInt 32 sl, sample1 := BitVec.ofInt 32 s1, sample2 := BitVec.ofInt 32 s2 }

/-! ### WellFormed -/

/-- A channel count of 0 is refused (R149). -/
theorem test_wellFormed_cc :
    (Instr.block6 ⟨.input, 0, .output, 0, 1, .left, 0, 1⟩).wellFormed = false := by decide

/-- A channel index of 0 is refused (R149). -/
theorem test_wellFormed_ci_zero :
    (Instr.block3 ⟨.input, 0, .output, 0, 1, .left, 1, 0⟩).wellFormed = false := by decide

/-- A channel index above the channel count is refused (R149). -/
theorem test_wellFormed_ci_above :
    (Instr.block6 ⟨.input, 0, .output, 0, 1, .left, 2, 3⟩).wellFormed = false := by decide

/-- A Predictor State of another channel, and a channel index that has none, are refused (R149). -/
theorem test_wellFormed_ch :
    (Instr.block6 ⟨.input, 0, .output, 0, 1, .left, 2, 2⟩).wellFormed = false ∧
    (Instr.block3 ⟨.input, 0, .output, 0, 1, .right, 3, 3⟩).wellFormed = false := by decide

/-- The adapter's own operands are well formed (R149). -/
theorem test_wellFormed_stereo :
    (Instr.block6 ⟨.input, 0, .scratchR, 0, 1, .right, 2, 2⟩).wellFormed = true := by decide

/-! ### Words written out bit by bit -/

/-- R90: `P6 3,3,3` is `7B` = 011 11 011. -/
theorem test_decode_pkt6 : decode (.packet6 [0b01111011#8] bareOperands) = .ok (.pkt6 3 3 3 bareOperands) := by decide

/-- R90: `P3 3,0,4 0,2,3` is `64 13` = 011 00 100, 000 10 011. -/
theorem test_decode_pkt3 :
    decode (.packet3 [0b01100100#8, 0b00010011#8] bareOperands) = .ok (.pkt3 3 0 4 0 2 3 bareOperands) := by decide

/-- R83: a 3-bit code. -/
theorem test_decode_step3 : decode (.symbol3 [0b00000111#8] .left) = .ok (.step3 7 .left) := by decide

/-- R83: a 2-bit code. -/
theorem test_decode_step2 : decode (.symbol2 [0b00000010#8] .right) = .ok (.step2 2 .right) := by decide

/-- R88: the four command codes. -/
theorem test_decode_commands :
    decode (.command [0b00000000#8]) = .ok .nop ∧ decode (.command [0b00000001#8]) = .ok .reset ∧
    decode (.command [0b00000010#8]) = .ok .process ∧ decode (.command [0b00000011#8]) = .ok .totals := by decide

/-- R91: a block operation has no word. -/
theorem test_decode_blocks :
    decode (.block6 ⟨.input, 0, .output, 0, 1, .left, 1, 1⟩) = .ok (.block6 ⟨.input, 0, .output, 0, 1, .left, 1, 1⟩) ∧
    decode (.block3 ⟨.input, 0, .output, 0, 1, .left, 1, 1⟩) = .ok (.block3 ⟨.input, 0, .output, 0, 1, .left, 1, 1⟩) := by
  decide

/-- Bare table words: the host's code 10 and the two bytes `64 13`, the first byte the least significant (log 11). -/
theorem test_decode_table :
    decodeTableWord 8 2 = some .process ∧ decodeTableWord 16 0x1364 = some (.pkt3 3 0 4 0 2 3 bareOperands) := by decide

/-- Words that are no instruction are refused by name. -/
theorem test_decode_rejects :
    decode (.command [0x04#8]) = .error .commandBitsAboveCode ∧ decode (.symbol3 [0x08#8] .left) = .error .codeTooWide ∧
    decode (.packet3 [0x64#8] bareOperands) = .error .wordTooShort ∧
    decode (.packet6 [0x64#8, 0x13#8] bareOperands) = .error .wordTooLong := by decide

/-! ### Vectors of 95_test_vectors.md -/

/-- The state after a STEP3 from a Predictor State. -/
def step3From (p : Predictor) (code : BitVec 3) : Predictor × I32 := step3 tcfg code p

/-- The state after a STEP2 from a Predictor State. -/
def step2From (p : Predictor) (code : BitVec 2) : Predictor × I32 := step2 tcfg code p

/-- Vector S7: both clamps reached. -/
theorem test_step3_S7 :
    fields (step3From (pred 2032 20000 32766 32667 0 0) 3).1 = [2199, 32767, 32766, 32767, 0, 0] ∧
    (step3From (pred 2032 20000 32766 32667 0 0) 3).2.toInt = 32767 := by decide +kernel

/-- Vectors S11 and S14: the index wraps, and the direction test reads bit 15 and not the sign. -/
theorem test_step3_S11_S14 :
    fields (step3From (pred 2147483647 0 0 0 0 0) 3).1 = [2080375014, 30608, 28590, 506, 0, 0] ∧
    fields (step3From (pred 16 98304 0 0 0 0) 0).1 = [1, 92, 0, -314, 0, 0] := by decide +kernel

/-- Vectors S2 and S6. -/
theorem test_step2_S2_S6 :
    fields (step2From (pred 0 0 0 0 0 0) 3).1 = [0, -65, 0, -314, 0, 0] ∧
    fields (step2From (pred 1232 100 50 1000 0 0) 2).1 = [1344, -18559, 10511, 686, 0, 0] := by decide +kernel

/-- Vector S12: a negative index selects row 127. -/
theorem test_step2_S12 : fields (step2From (pred (-1) 0 0 0 0 0) 0).1 = [0, 15304, 7147, 506, 0, 0] := by decide +kernel

/-- Section 4: `pcm`. -/
theorem test_pcm :
    [pcm 0, pcm 255, pcm 256, pcm (-1), pcm (-256), pcm (-257), pcm 4660, pcm (-4660), pcm 32767, pcm (-32767)] =
      [0x80, 0x80, 0x81, 0x7F, 0x7F, 0x7E, 0x92, 0x6D, 0xFF, 0x00] := by decide

/-- Section 4: the two mixes of `1000, -2000, 3000` and of `7, 1, 5`, and the clamp. -/
theorem test_mix :
    [(mix0 1000 (-2000) 3000).toInt, (mix1 1000 (-2000) 3000).toInt, (mix0 7 1 5).toInt, (mix1 7 1 5).toInt,
      (mix0 (-32767) (-32767) (-32767)).toInt] = [250, -250, 1, 2, -32767] := by decide

/-- Section 5: `7B` from the fresh state. -/
theorem test_pkt6_7B :
    bytesOf (after (bench .mace6 .mono) (exec (.pkt6 3 3 3 bareOperands) (bench .mace6 .mono))) .ocache 6 =
      [some 0x80, some 0x80, some 0x7F, some 0x7D, some 0x7E, some 0x81] := by decide +kernel

/-- Section 6: `64 13` from the fresh state, msb_first. -/
theorem test_pkt3_6413 :
    bytesOf (after (bench .mace3 .mono) (exec (.pkt3 3 0 4 0 2 3 bareOperands) (bench .mace3 .mono))) .ocache 6 =
      [some 0x80, some 0x86, some 0x74, some 0x87, some 0x69, some 0xA3] := by decide +kernel

/-- Section 6: `64 13` from the fresh state, lsb_first. -/
theorem test_pkt3_lsb_first :
    bytesOf (after (bench .mace3 .mono)
      (exec (.pkt3 3 0 4 0 2 3 bareOperands) { bench .mace3 .mono with symOrder3 := .lsbFirst })) .ocache 6 =
      [some 0x7F, some 0x86, some 0x8C, some 0x9A, some 0x5F, some 0x93] := by decide +kernel

/-- Section 7: channel 2 of `7B 00 9C FF` with a channel count of two. -/
theorem test_block6_channel2 :
    fields (after (bench .mace6 .stereo) (exec (.block6 ⟨.input, 0, .scratchR, 0, 2, .right, 2, 2⟩)
      (benchIn .mace6 .stereo [0x7B, 0x00, 0x9C, 0xFF] 0))).right = [0, -33, 0, 2216, -33, -65] := by decide +kernel

/-- Section 6: BLOCK3 over `7B 9C 64 13` with sample1 = 1234. -/
theorem test_block3 :
    fields (after (bench .mace3 .mono) (exec (.block3 ⟨.input, 0, .output, 0, 2, .left, 1, 1⟩)
      { benchIn .mace3 .mono [0x7B, 0x9C, 0x64, 0x13] 12 with left := pred 0 0 0 0 1234 0 })).left =
      [1427, 25816, 20338, -488, 1234, 22589] := by decide +kernel

/-- Program P2 (a): the first four bytes of a frame delivered through the caches. -/
theorem test_process_P2a :
    bytesOf (after (bench .mace6 .mono) (exec .process (benchIn .mace6 .mono [0x7B] 4))) .output 5 =
      [some 0x80, some 0x80, some 0x7F, some 0x7D, none] ∧
    (after (bench .mace6 .mono) (exec .process (benchIn .mace6 .mono [0x7B] 4))).response = .process 1 4 .ok := by
  decide +kernel

/-- R245: bytes of OUT from `produced` on keep what the host's buffer held. -/
theorem test_process_keeps_rest_of_out :
    bytesOf (after (bench .mace6 .mono) (exec .process (benchIn .mace6 .mono [0x7B] 8))) .output 8 =
      [some 0x80, some 0x80, some 0x7F, some 0x7D, some 0x7E, some 0x81, some 0xA5, some 0xA5] := by decide +kernel

/-- The session P5 (a) leaves: one byte of a stereo frame held. -/
def heldP5 : State :=
  { bench .mace6 .stereo with state := .fillingCache, cacheSize := 1, icache := [(0, 0x7B)], totalIn := 1 }

/-- Program P5 (b): seven state executions, the second frame left in the output cache. -/
theorem test_process_P5b :
    (after heldP5 (exec .process (heldP5.handOver (some (buf [0x00, 0x9C, 0xFF] 12))))).response = .process 3 12 .ok ∧
    bytesOf (after heldP5 (exec .process (heldP5.handOver (some (buf [0x00, 0x9C, 0xFF] 12))))) .ocache 12 =
      [some 0x80, some 0x80, some 0x7C, some 0x80, some 0x76, some 0x7F, some 0x70, some 0x7F, some 0x6B, some 0x7F,
        some 0x69, some 0x7F] := by decide +kernel

/-- Program P7 (d): RESET zeroes the session and leaves the input cache alone. -/
theorem test_reset :
    (after heldP5 (exec .reset { heldP5 with left := pred 751 9069 2509 (-244) 0 7936 })).left = Predictor.zero ∧
    (after heldP5 (exec .reset heldP5)).state = .init ∧ (after heldP5 (exec .reset heldP5)).totalIn = 0 ∧
    (after heldP5 (exec .reset heldP5)).icache = [(0, 0x7B)] := by decide +kernel

/-- Program P3 (e): TOTALS, input first. -/
theorem test_totals :
    (after heldP5 (exec .totals { heldP5 with totalIn := 4, totalOut := 12 })).response = .totals 4 12 := by
  decide +kernel

/-- NOP changes nothing (R185). -/
theorem test_nop : exec .nop heldP5 = .next heldP5 := rfl

/-- A step runs a bare table word as the first thing after reset (log 2). -/
theorem test_step_table_word :
    (after State.reset (step (State.reset.withFetchWord 8 3))).response = .totals 0 0 := by decide +kernel

/-! ### Witnesses: states and operands that meet the hypotheses of the obligations -/

/-- Block operands with a channel of its own. -/
def blockOps (n : Nat) : BlockOps := ⟨.input, 0, .output, 0, n, .left, 1, 1⟩

/-- A stereo MACE3 bench with one frame in IN. -/
def stereo3 : State := benchIn .mace3 .stereo [0x7B, 0x9C, 0x00, 0xFF] 12

/-- The session P2 (a) leaves: two decoded bytes due. -/
def dueP2 : State :=
  { bench .mace6 .mono with
    state := .cacheFull, cacheSize := 2, icache := [(0, 0x7B)], left := pred 427 3100 293 (-122) 3100 (-1745)
    ocache := [(0, 0x80), (1, 0x80), (2, 0x7F), (3, 0x7D), (4, 0x7E), (5, 0x81)] }

/-- What `Readable` says, as a decidable check. -/
def readableB (s : State) (sp : SpaceName) (a n : Nat) : Bool :=
  (List.range n).all fun j => decide (a + j < s.spaceSize sp) && (s.byteAt sp (a + j)).isSome

theorem readable_of {s : State} {sp : SpaceName} {a n : Nat} (h : readableB s sp a n = true) : Readable s sp a n := by
  intro j hj
  have := List.all_eq_true.1 h j (List.mem_range.2 hj)
  simpa using this

/-- The bench's host keeps its duties. -/
theorem allowed_handOver {s : State} (h : Handover) (h1 : s.lines.breach = none) (h2 : s.lines.codec = s.codec)
    (h3 : s.lines.channels = s.channels.number) (h4 : readableB (s.handOver (some h)) .input 0 h.input.length = true) :
    ProcessAllowed (s.handOver (some h)) := ⟨h1, h2, h3, readable_of h4⟩

theorem witness_StepRunsTheIssuedOperation :
    (∃ s t rest i h, State.pending s = t :: rest ∧ decode t.request = .ok i ∧ t.handover = some h ∧
      t.request.isCommand = true) ∧
    (∃ s t rest i, State.pending s = t :: rest ∧ decode t.request = .ok i ∧ t.handover = none ∧
      t.request.isCommand = false) ∧
    (∃ s t rest why, State.pending s = t :: rest ∧ decode t.request = .error why) ∧
    (∃ s, State.pending s = [] ∧ ConfigurationStands s) :=
  ⟨⟨{ heldP5 with pending := [⟨.command [0x02], heldP5.lines, some (buf [0x00] 12)⟩] }, _, _, .process, _, rfl, by decide,
      rfl, rfl⟩,
    ⟨State.reset.withFetchWord 8 0x7B, _, _, .pkt6 3 3 3 bareOperands, rfl, by decide, rfl, rfl⟩,
    ⟨{ heldP5 with pending := [⟨.command [0x04], heldP5.lines, none⟩] }, _, _, .commandBitsAboveCode, rfl, by decide⟩,
    ⟨State.reset, rfl, rfl, rfl⟩⟩

theorem witness_ResetZeroesTheSession :
    heldP5.lines.breach ≠ some .commandOverlap ∧ heldP5.lines.channels = Channels.stereo.number ∧
    (bench .mace3 .mono).lines.channels = Channels.mono.number := by decide

theorem witness_ResetCommandEqualsPowerOn :
    { heldP5 with lines := State.reset.lines }.lines = State.reset.lines := rfl

theorem witness_TotalsAndNopComplete :
    heldP5.lines.breach ≠ some .commandOverlap ∧ ConfigurationStands heldP5 := ⟨by decide, rfl, rfl⟩

theorem witness_StepFollowsTheCommonAlgorithm :
    (bench .mace6 .mono).hasChannel .left = true ∧ (bench .mace6 .stereo).hasChannel .right = true := by decide

/-- The step meets every premise of the last two clauses at their bounds. -/
theorem witness_InvariantsAfterAnyStep :
    (∃ t, exec (.step3 7 .left) { bench .mace6 .mono with left := pred 1048575 0 0 32767 0 0 } = .next t) ∧
    (∃ t, exec (.step2 3 .left) { bench .mace6 .mono with left := pred 0 0 0 (-32767) 0 0 } = .next t) ∧
    (pred 1048575 0 0 32767 0 0).tableIndex.toInt ≤ 1048575 ∧ (pred 0 0 0 (-32767) 0 0).lastSlope.toInt = -32767 :=
  ⟨next_of_isNext (by decide +kernel), next_of_isNext (by decide +kernel), by decide, by decide⟩

theorem witness_DirectionIsTheSignWithinSixteenBits :
    (-32768 ≤ (-32768 : I32).toInt ∧ (32767 : I32).toInt ≤ 32767) ∧ directionChanged (-32768) 32767 = true ∧
    directionChanged 0 (-1) = true ∧ directionChanged (-1) 0 = true ∧ directionChanged 0 0 = false := by decide

theorem witness_PcmByteIsTheOffsetTopByte :
    Within15 (-32767) ∧ Within15 32767 := by unfold Within15; decide

theorem witness_MixClampNeverChangesAByte :
    Within15 (-32767) ∧ Within15 0 ∧ Within15 32767 := by unfold Within15; decide

theorem witness_Pkt6Result :
    (bench .mace6 .mono).hasChannel .left = true ∧ 0 + 6 ≤ (bench .mace6 .mono).spaceSize Dst.ocache.space ∧
    6 + 6 ≤ (bench .mace6 .stereo).spaceSize Dst.ocache.space ∧ (bench .mace6 .stereo).hasChannel .right = true := by
  decide

theorem witness_Pkt3Result :
    (bench .mace3 .mono).hasChannel .left = true ∧ 3066 + 6 ≤ (bench .mace3 .mono).spaceSize Dst.scratchL.space := by decide

theorem witness_PacketFrame :
    (∃ t, exec (.pkt6 7 3 7 ⟨.right, 1, 2, .ocache, 6⟩) (bench .mace6 .stereo) = .next t) ∧
    (∃ t, exec (.pkt3 7 3 7 7 3 7 ⟨.left, 1, 2, .scratchL, 3066⟩) (bench .mace3 .mono) = .next t) :=
  ⟨next_of_isNext (by decide +kernel), next_of_isNext (by decide +kernel)⟩

/-- One byte of room too few. -/
theorem witness_PacketWithoutRoomFaults :
    (bench .mace6 .mono).hasChannel .left = true ∧ (bench .mace6 .mono).spaceSize Dst.ocache.space < 7 + 6 := by decide

/-- One packet at the very end of IN and OUT. -/
theorem contract6_one : Block6Contract (blockOps 1) (benchIn .mace6 .mono [0x7B] 6) :=
  ⟨by decide, by decide, by decide, by decide, by decide, fun p hp => by
    obtain rfl : p = 0 := by have : p < 1 := hp; omega
    exact readable_of (by decide)⟩

theorem contract6_two : Block6Contract (blockOps (1 + 1)) (benchIn .mace6 .mono [0x7B, 0x9C] 12) :=
  ⟨by decide, by decide, by decide, by decide, by decide, fun p hp => by
    have hp2 : p < 2 := hp
    interval_cases p <;> exact readable_of (by decide)⟩

theorem contract3_one : Block3Contract (blockOps 1) (benchIn .mace3 .mono [0x7B, 0x9C] 6) :=
  ⟨by decide, by decide, by decide, by decide, by decide, fun p hp => by
    obtain rfl : p = 0 := by have : p < 1 := hp; omega
    exact readable_of (by decide)⟩

theorem contract3_two : Block3Contract (blockOps (1 + 1)) (benchIn .mace3 .mono [0x7B, 0x9C, 0x64, 0x13] 12) :=
  ⟨by decide, by decide, by decide, by decide, by decide, fun p hp => by
    have hp2 : p < 2 := hp
    interval_cases p <;> exact readable_of (by decide)⟩

theorem contract6_zero : Block6Contract { blockOps 1 with n := 0 } (bench .mace6 .mono) :=
  ⟨by decide, by decide, by decide, by decide, by decide, fun _ hp => absurd hp (Nat.not_lt_zero _)⟩

theorem contract3_zero : Block3Contract { blockOps 1 with n := 0 } (bench .mace3 .mono) :=
  ⟨by decide, by decide, by decide, by decide, by decide, fun _ hp => absurd hp (Nat.not_lt_zero _)⟩

theorem witness_BlocksComplete :
    (∃ o s, Block6Contract o s) ∧ ∃ o s, Block3Contract o s := ⟨⟨_, _, contract6_one⟩, ⟨_, _, contract3_one⟩⟩

theorem witness_Block6FollowsItsPseudocode :
    (∃ (o : BlockOps) (s : State), Block6Contract { o with n := 0 } s) ∧
    ∃ (o : BlockOps) (n : Nat) (s : State) (x : Byte), Block6Contract { o with n := n + 1 } s ∧ s.byteAt o.src.space (o.b + (o.ci - 1)) = some x :=
  ⟨⟨_, _, contract6_zero⟩, ⟨blockOps 2, 1, _, 0x7B, contract6_two, by decide⟩⟩

theorem witness_Block3IsPkt3ThenTheRest :
    ∃ (o : BlockOps) (n : Nat) (s : State) (x y : Byte), Block3Contract { o with n := n + 1 } s ∧ s.byteAt o.src.space (o.b + 2 * (o.ci - 1)) = some x ∧
      s.byteAt o.src.space (o.b + 2 * (o.ci - 1) + 1) = some y :=
  ⟨blockOps 2, 1, _, 0x7B, 0x9C, contract3_two, by decide, by decide⟩

theorem witness_BlockOfNoPacketsChangesNothing :
    (blockOps 0).n = 0 ∧ 1 ≤ (blockOps 0).ci ∧ (blockOps 0).ci ≤ (blockOps 0).cc ∧
    (blockOps 0).ch.number = (blockOps 0).ci ∧ (bench .mace6 .mono).hasChannel (blockOps 0).ch = true := by decide

theorem witness_BlockConcatenation :
    Block6Contract { blockOps 2 with n := 1 + 1 } (benchIn .mace6 .mono [0x7B, 0x9C] 12) ∧
    Block6Contract { blockOps 2 with n := 0 + 0 } (bench .mace6 .mono) ∧
    Block3Contract { blockOps 2 with n := 1 + 1 } (benchIn .mace3 .mono [0x7B, 0x9C, 0x64, 0x13] 12) ∧
    Block3Contract { blockOps 2 with n := 0 + 0 } (bench .mace3 .mono) :=
  ⟨contract6_two, contract6_zero, contract3_two, contract3_zero⟩

theorem witness_BlockFrame :
    (∃ t, exec (.block6 (blockOps 1)) (benchIn .mace6 .mono [0x7B] 6) = .next t) ∧
    (∃ t, exec (.block3 (blockOps 1)) (benchIn .mace3 .mono [0x7B, 0x9C] 6) = .next t) :=
  ⟨next_of_isNext (by decide +kernel), next_of_isNext (by decide +kernel)⟩

/-- The left block of a stereo frame, with the other channel's state and bytes different in the second state. -/
theorem witness_BlockReadsOnlyItsChannel6 :
    ∃ s s' t t' o, exec (.block6 o) s = .next t ∧ exec (.block6 o) s' = .next t' ∧ s'.rom = s.rom ∧
      s'.predictor o.ch = s.predictor o.ch ∧ s'.right ≠ s.right ∧
      ∀ p < o.n, s'.byteAt o.src.space (offset6 o p) = s.byteAt o.src.space (offset6 o p) := by
  obtain ⟨t, ht⟩ := next_of_isNext (r := exec (.block6 ⟨.input, 0, .output, 0, 1, .left, 2, 1⟩)
    (benchIn .mace6 .stereo [0x7B, 0x00] 6)) (by decide +kernel)
  obtain ⟨t', ht'⟩ := next_of_isNext (r := exec (.block6 ⟨.input, 0, .output, 0, 1, .left, 2, 1⟩)
    { benchIn .mace6 .stereo [0x7B, 0xFF] 6 with right := pred 1 0 0 0 0 0 }) (by decide +kernel)
  exact ⟨_, _, t, t', _, ht, ht', rfl, rfl, by decide, by decide⟩

theorem witness_BlockReadsOnlyItsChannel3 :
    ∃ s s' t t' o, exec (.block3 o) s = .next t ∧ exec (.block3 o) s' = .next t' ∧ s'.rom = s.rom ∧
      s'.symOrder3 = s.symOrder3 ∧ s'.predictor o.ch = s.predictor o.ch ∧ s'.right ≠ s.right ∧
      ∀ p < o.n, s'.byteAt o.src.space (offset3 o p) = s.byteAt o.src.space (offset3 o p) ∧
        s'.byteAt o.src.space (offset3 o p + 1) = s.byteAt o.src.space (offset3 o p + 1) := by
  obtain ⟨t, ht⟩ := next_of_isNext (r := exec (.block3 ⟨.input, 0, .output, 0, 1, .left, 2, 1⟩)
    (benchIn .mace3 .stereo [0x7B, 0x9C, 0x00, 0xFF] 6)) (by decide +kernel)
  obtain ⟨t', ht'⟩ := next_of_isNext (r := exec (.block3 ⟨.input, 0, .output, 0, 1, .left, 2, 1⟩)
    { benchIn .mace3 .stereo [0x7B, 0x9C, 0x64, 0x13] 6 with right := pred 1 0 0 0 0 0 }) (by decide +kernel)
  exact ⟨_, _, t, t', _, ht, ht', rfl, rfl, rfl, by decide, by decide⟩

/-- One clause each, at the first operand outside the contract. -/
theorem witness_OutsideTheContractIsRefused :
    ¬ (1 ≤ 0 ∧ 0 ≤ 1) ∧ ¬ (1 ≤ 2 ∧ 2 ≤ 1) ∧ Chan.left.number ≠ 2 ∧ Chan.right.number ≠ 3 ∧
    Chan.left.number = 1 ∧ Chan.right.number = 2 ∧
    (bench .mace6 .mono).spaceSize .icache ≤ offset6 ⟨.icache, 4, .ocache, 0, 1, .left, 1, 1⟩ 0 ∧
    (bench .mace3 .mono).spaceSize .icache ≤ offset3 ⟨.icache, 3, .ocache, 0, 1, .left, 1, 1⟩ 0 + 1 ∧
    (bench .mace6 .mono).spaceSize .ocache < 7 + 6 * 1 ∧
    offset6 ⟨.icache, 3, .ocache, 7, 1, .left, 1, 1⟩ 0 < (bench .mace6 .mono).spaceSize .icache ∧
    offset3 ⟨.icache, 2, .ocache, 7, 1, .left, 1, 1⟩ 0 + 1 < (bench .mace3 .mono).spaceSize .icache ∧
    (bench .mace6 .mono).hasChannel .left = true ∧ (bench .mace6 .mono).channels = .mono := by decide

theorem witness_InterleavePutsLeftFirst : [0x01#8, 0x02#8].length = [0x03#8, 0x04#8].length ∧ 1 < [0x01#8, 0x02#8].length := by
  decide

theorem reset_consistent (codec : Codec) (chs : Channels) (input : List Byte) (olen : Nat) :
    SessionConsistent (benchIn codec chs input olen) := rfl

theorem heldP5_consistent (h : Handover) : SessionConsistent (heldP5.handOver (some h)) :=
  ⟨(by decide : 1 < 2), readable_of (sp := .icache) (a := 0) (n := 1) rfl⟩

theorem dueP2_consistent (h : Handover) : SessionConsistent (dueP2.handOver (some h)) :=
  ⟨(by decide : 1 ≤ 2), (by decide : 2 ≤ 6), readable_of (sp := .ocache) (a := 4) (n := 2) rfl⟩

/-- A consistent session in each of the three states a command can start in, the host keeping its duties. -/
theorem witness_ProcessCompletesWithStatus :
    (SessionConsistent (benchIn .mace6 .mono [0x7B] 4) ∧ ProcessAllowed (benchIn .mace6 .mono [0x7B] 4)) ∧
    (SessionConsistent (heldP5.handOver (some (buf [0x00, 0x9C, 0xFF] 12))) ∧
      ProcessAllowed (heldP5.handOver (some (buf [0x00, 0x9C, 0xFF] 12)))) ∧
    (SessionConsistent (dueP2.handOver (some (buf [] 4))) ∧ ProcessAllowed (dueP2.handOver (some (buf [] 4)))) :=
  ⟨⟨rfl, allowed_handOver _ rfl rfl rfl (by decide)⟩,
    ⟨heldP5_consistent _, allowed_handOver _ rfl rfl rfl (by decide)⟩,
    ⟨dueP2_consistent _, allowed_handOver _ rfl rfl rfl (by decide)⟩⟩

theorem witness_ProcessFrame :
    (∃ t, exec .process (benchIn .mace6 .mono [0x7B] 4) = .next t) ∧
    (∃ t, exec .process (heldP5.handOver (some (buf [0x00, 0x9C, 0xFF] 12))) = .next t) :=
  ⟨next_of_isNext (by decide +kernel), next_of_isNext (by decide +kernel)⟩

/-- The session of P2 (a) stands at `7B` taken and `80 80 7F 7D` given. -/
theorem witness_ProcessContinuesTheStream :
    StreamAt (dueP2.handOver (some (buf [0x9C] 4))) (Predictor.zero, Predictor.zero) [0x7B] [0x80, 0x80, 0x7F, 0x7D] ∧
    ProcessAllowed (dueP2.handOver (some (buf [0x9C] 4))) :=
  ⟨⟨[0x7B], [], [0x7E, 0x81], rfl, ⟨by decide, by decide, rfl, rfl⟩, rfl, by decide, by decide +kernel⟩,
    allowed_handOver _ rfl rfl rfl (by decide)⟩

/-- A run of hand-overs from its consumed and produced bytes and last state. -/
theorem feed_of {hs : List Handover} {s : State} {ins outs : List Byte} {q : AdapterState}
    (h : (feed hs s).map (fun r => (r.2.1, r.2.2, r.1.state)) = some (ins, outs, q)) :
    ∃ u, feed hs s = some (u, ins, outs) ∧ u.state = q := by
  cases hf : feed hs s with
  | none => rw [hf] at h; cases h
  | some r =>
    rw [hf] at h
    obtain ⟨u, is, os⟩ := r
    cases h
    exact ⟨u, rfl, rfl⟩

/-- P2 and P1: the byte `7B` with capacity four and a drain, and with capacity six. -/
theorem witness_ChunkingInvariance :
    ∃ u u' ins outs outs', feed [buf [0x7B] 4, buf [] 4] (bench .mace6 .mono) = some (u, ins, outs) ∧
      feed [buf [0x7B] 6] (bench .mace6 .mono) = some (u', ins, outs') ∧ u.state ≠ .cacheFull ∧ u'.state ≠ .cacheFull ∧
      (bench .mace6 .mono).state = .init ∧ (bench .mace6 .mono).cacheSize = 0 := by
  obtain ⟨u, hu, su⟩ := feed_of (hs := [buf [0x7B] 4, buf [] 4]) (s := bench .mace6 .mono) (ins := [0x7B])
    (outs := [0x80, 0x80, 0x7F, 0x7D, 0x7E, 0x81]) (q := .init) (by decide +kernel)
  obtain ⟨u', hu', su'⟩ := feed_of (hs := [buf [0x7B] 6]) (s := bench .mace6 .mono) (ins := [0x7B])
    (outs := [0x80, 0x80, 0x7F, 0x7D, 0x7E, 0x81]) (q := .init) (by decide +kernel)
  exact ⟨u, u', _, _, _, hu, hu', by rw [su]; decide, by rw [su']; decide, rfl, rfl⟩

theorem witness_OneCommandDecodesTheWholeStream :
    (bench .mace6 .stereo).state = .init ∧ (bench .mace6 .stereo).cacheSize = 0 ∧
    (bench .mace6 .stereo).lines.breach = none ∧ ConfigurationStands (bench .mace6 .stereo) ∧
    (buf [0x7B, 0x00, 0x9C] 12).input.length / (bench .mace6 .stereo).gin * (bench .mace6 .stereo).gout ≤
      (buf [0x7B, 0x00, 0x9C] 12).output.length := ⟨rfl, rfl, rfl, ⟨rfl, rfl⟩, by decide⟩

/-- A step that issues a PROCESS with room to spare. -/
theorem witness_OutputBeyondProducedIsKept :
    decode (.command [0x02]) = .ok .process ∧
    ∃ t, step { bench .mace6 .mono with
      pending := [⟨.command [0x02], (bench .mace6 .mono).lines, some (buf [0x7B] 8)⟩] } = .next t :=
  ⟨by decide, next_of_isNext (by decide +kernel)⟩

theorem witness_StereoSymmetry :
    stereo3.state = .init ∧ stereo3.channels = .stereo ∧ ProcessAllowed stereo3 ∧ stereo3.ilen = 1 * stereo3.gin ∧
    stereo3.olen = 1 * stereo3.gout ∧ stereo3.codec = .mace3 ∧
    (∃ tl, exec (.block3 ⟨.input, 0, .output, 0, 1, .left, 2, 1⟩) stereo3 = .next tl) ∧
    (∃ tr, exec (.block3 ⟨.input, 0, .output, 0, 1, .right, 2, 2⟩) stereo3 = .next tr) :=
  ⟨rfl, rfl, allowed_handOver _ rfl rfl rfl (by decide), by decide, by decide, rfl, next_of_isNext (by decide +kernel),
    next_of_isNext (by decide +kernel)⟩

/-- The same for MACE6. -/
theorem witness_StereoSymmetry6 :
    ∃ tl tr, exec (.block6 ⟨.input, 0, .output, 0, 1, .left, 2, 1⟩) (benchIn .mace6 .stereo [0x7B, 0x00] 12) = .next tl ∧
      exec (.block6 ⟨.input, 0, .output, 0, 1, .right, 2, 2⟩) (benchIn .mace6 .stereo [0x7B, 0x00] 12) = .next tr := by
  obtain ⟨tl, hl⟩ := next_of_isNext (r := exec (.block6 ⟨.input, 0, .output, 0, 1, .left, 2, 1⟩)
    (benchIn .mace6 .stereo [0x7B, 0x00] 12)) (by decide +kernel)
  obtain ⟨tr, hr⟩ := next_of_isNext (r := exec (.block6 ⟨.input, 0, .output, 0, 1, .right, 2, 2⟩)
    (benchIn .mace6 .stereo [0x7B, 0x00] 12)) (by decide +kernel)
  exact ⟨tl, tr, hl, hr⟩

/-- No input in Init and in FillingCache, no output space in CacheFull; with and without the other. -/
theorem witness_ProcessAtTheBoundaries :
    (SessionConsistent (benchIn .mace6 .mono [] 0) ∧ ProcessAllowed (benchIn .mace6 .mono [] 0) ∧
      (benchIn .mace6 .mono [] 0).ilen = 0 ∧ (benchIn .mace6 .mono [] 0).state = .init) ∧
    (SessionConsistent (heldP5.handOver (some (buf [] 1))) ∧ ProcessAllowed (heldP5.handOver (some (buf [] 1))) ∧
      (heldP5.handOver (some (buf [] 1))).ilen = 0 ∧ (heldP5.handOver (some (buf [] 1))).state = .fillingCache) ∧
    (SessionConsistent (dueP2.handOver (some (buf [0x9C] 0))) ∧ ProcessAllowed (dueP2.handOver (some (buf [0x9C] 0))) ∧
      (dueP2.handOver (some (buf [0x9C] 0))).olen = 0 ∧ (dueP2.handOver (some (buf [0x9C] 0))).state = .cacheFull) :=
  ⟨⟨rfl, allowed_handOver _ rfl rfl rfl (by decide), rfl, rfl⟩,
    ⟨heldP5_consistent _, allowed_handOver _ rfl rfl rfl (by decide), rfl, rfl⟩,
    ⟨dueP2_consistent _, allowed_handOver _ rfl rfl rfl (by decide), rfl, rfl⟩⟩

/-- P4a (a): exactly a frame of input and more than one. -/
theorem witness_NoOutputSpaceTakesOneFrame :
    SessionConsistent (benchIn .mace6 .mono [0x7B, 0x9C] 0) ∧ ProcessAllowed (benchIn .mace6 .mono [0x7B, 0x9C] 0) ∧
    (benchIn .mace6 .mono [0x7B, 0x9C] 0).olen = 0 ∧ (benchIn .mace6 .mono [0x7B, 0x9C] 0).state = .init ∧
    (benchIn .mace6 .mono [0x7B, 0x9C] 0).gin ≤ (benchIn .mace6 .mono [0x7B, 0x9C] 0).ilen :=
  ⟨rfl, allowed_handOver _ rfl rfl rfl (by decide), rfl, rfl, by decide⟩

/-- P3 (a): three bytes of a four-byte frame. -/
theorem witness_PartialFrameIsHeld :
    SessionConsistent (benchIn .mace3 .stereo [0x7B, 0x9C, 0x00] 12) ∧
    ProcessAllowed (benchIn .mace3 .stereo [0x7B, 0x9C, 0x00] 12) ∧
    (benchIn .mace3 .stereo [0x7B, 0x9C, 0x00] 12).state = .init ∧ 0 < (benchIn .mace3 .stereo [0x7B, 0x9C, 0x00] 12).ilen ∧
    (benchIn .mace3 .stereo [0x7B, 0x9C, 0x00] 12).ilen < (benchIn .mace3 .stereo [0x7B, 0x9C, 0x00] 12).gin :=
  ⟨rfl, allowed_handOver _ rfl rfl rfl (by decide), rfl, by decide, by decide⟩

/-- P2 (b) with exactly the room needed. -/
theorem witness_DrainDeliversEveryCachedByte :
    SessionConsistent (dueP2.handOver (some (buf [] 2))) ∧ ProcessAllowed (dueP2.handOver (some (buf [] 2))) ∧
    (dueP2.handOver (some (buf [] 2))).state = .cacheFull ∧ (dueP2.handOver (some (buf [] 2))).ilen = 0 ∧
    (dueP2.handOver (some (buf [] 2))).cacheSize ≤ (dueP2.handOver (some (buf [] 2))).olen :=
  ⟨dueP2_consistent _, allowed_handOver _ rfl rfl rfl (by decide), rfl, rfl, by decide⟩

/-- The host's lines with a breach or a number of channels of our choice. -/
def withLines (codec : Codec) (channels : Nat) (breach : Option Breach) : State :=
  { bench .mace6 .mono with lines := { codec := codec, channels := channels, breach := breach } }

/-- A breach of each kind that a clause names; CODEC changed, CHANNELS changed; CHANNELS 0 and 3. -/
theorem witness_BrokenDutiesAreRefused :
    (withLines .mace6 1 (some .inputWritten)).lines.breach = some .inputWritten ∧
    (withLines .mace6 1 (some .commandOverlap)).lines.breach = some .commandOverlap ∧
    ((withLines .mace3 1 none).lines.breach = none ∧ ¬ ConfigurationStands (withLines .mace3 1 none)) ∧
    ¬ ConfigurationStands (withLines .mace6 2 none) ∧
    ((withLines .mace6 0 none).lines.channels ≠ 1 ∧ (withLines .mace6 0 none).lines.channels ≠ 2) ∧
    ((withLines .mace6 3 none).lines.channels ≠ 1 ∧ (withLines .mace6 3 none).lines.channels ≠ 2) := by
  unfold ConfigurationStands; decide

/-- An operation and a step that answer a next state, which three obligations assume. -/
theorem witness_next :
    (∃ t, exec .process (benchIn .mace6 .mono [0x7B] 4) = .next t) ∧
    (∃ t, step { heldP5 with pending := [⟨.command [0x02], heldP5.lines, some (buf [0x00] 12)⟩] } = .next t) :=
  ⟨next_of_isNext (by decide +kernel), next_of_isNext (by decide +kernel)⟩

theorem witness_RightUnusedWhenMono : (benchIn .mace6 .mono [0x7B] 4).channels = .mono ∧ Instr.process ≠ .reset := by
  decide

/-- A canonical state with a byte at the last offset of its space, and a step from it. -/
theorem witness_StepKeepsMemoryCanonical :
    MemoryCanonical (bench .mace6 .mono) ∧
    ∃ t, step { bench .mace6 .mono with pending := [⟨.command [0x02], (bench .mace6 .mono).lines, some (buf [0x7B] 4)⟩] } =
      .next t :=
  ⟨fun sp => by cases sp <;> exact ⟨List.Pairwise.nil, fun _ h => (nomatch h)⟩, next_of_isNext (by decide +kernel)⟩

theorem witness_StepKeepsSessionConsistent :
    SessionConsistent { heldP5 with pending := [⟨.command [0x02], heldP5.lines, some (buf [0x00] 12)⟩] } :=
  ⟨(by decide : 1 < 2), readable_of (sp := .icache) (a := 0) (n := 1) rfl⟩

/-- A RESET that changes both inputs, and a symbol operation under which the lines of the transaction are not driven. -/
theorem witness_StepKeepsConfiguration :
    ConfigurationStands heldP5 ∧
    (∃ t, step { heldP5 with pending := [⟨.command [0x01], (bench .mace3 .mono).lines, none⟩] } = .next t ∧
      t.codec ≠ heldP5.codec) ∧
    ∃ t, step { heldP5 with pending := [⟨.symbol3 [0x07] .left, (bench .mace3 .mono).lines, none⟩] } = .next t :=
  ⟨⟨rfl, rfl⟩, ⟨_, rfl, by decide⟩, next_of_isNext (by decide +kernel)⟩

theorem witness_WhichOperationsWriteTheSession :
    (∃ t, exec (.block6 (blockOps 1)) (benchIn .mace6 .mono [0x7B] 6) = .next t) ∧
    mayWriteOutputCache (.block6 (blockOps 1)) = false ∧ mayWritePredictor .right (.block6 (blockOps 1)) = false :=
  ⟨next_of_isNext (by decide +kernel), by decide, by decide⟩

theorem witness_StepKeepsPredictorsInRange :
    PredictorInRange (pred 1048575 (-32767) 32766 32767 (-32767) 32767) ∧ PredictorInRange Predictor.zero ∧
    ∃ t, step { bench .mace6 .mono with
      left := pred 1048575 (-32767) 32766 32767 (-32767) 32767
      pending := [⟨.symbol3 [0x07] .left, (bench .mace6 .mono).lines, none⟩] } = .next t := by
  refine ⟨?_, ?_, next_of_isNext (by decide +kernel)⟩ <;> unfold PredictorInRange Within15 <;> decide

theorem witness_SessionIsReusableIndefinitely :
    ∃ s t, SessionConsistent s ∧ step s = .next t ∧ Relation.ReflTransGen (fun a b : State => step a = .next b) s t ∧
      ProcessAllowed t :=
  ⟨benchIn .mace6 .mono [0x7B] 4, _, rfl, rfl, .refl, allowed_handOver _ rfl rfl rfl (by decide)⟩

end Sys2Proof.Tests
end

/-! PROOFS. R26: in a mono session PS[2] takes no part in any operation but RESET. Replacing PS[2] commutes with every
operation of the machine, from the byte accesses up to the adapter's loop: the operation answers the same, with the
replacement made to the state it leaves. -/

namespace Sys2Proof.Proofs

open Sys2Proof Sys2Proof.Machine Sys2Proof.Safety Sys2Proof.Laws

/-! ### Byte accesses: no Predictor State takes part -/

@[simp] theorem readBytes_setPredictor (s : State) (ch : Chan) (p : Predictor) (sp : SpaceName) (a n : Nat) :
    readBytes (s.setPredictor ch p) sp a n = readBytes s sp a n :=
  readBytes_of_same (by simp) (by simp) a n

@[simp] theorem readPackets_setPredictor (codec : Codec) (o : BlockOps) (s : State) (ch : Chan) (p : Predictor)
    (q n : Nat) : readPackets codec o (s.setPredictor ch p) q n = readPackets codec o s q n :=
  readPackets_congr fun _ _ => readBytes_setPredictor ..

@[simp] theorem writeBytes_setPredictor (s : State) (ch : Chan) (p : Predictor) (sp : SpaceName) (a : Nat)
    (vs : List Byte) :
    writeBytes (s.setPredictor ch p) sp a vs = (writeBytes s sp a vs).map (·.setPredictor ch p) := by
  unfold writeBytes
  rw [setPredictor_spaceSize, setPredictor_mem, apply_ite (Except.map _)]
  simp only [Except.map, setPredictor_setMem]

@[simp] theorem blockRefusal_setPredictor (codec : Codec) (o : BlockOps) (s : State) (ch : Chan) (p : Predictor) :
    blockRefusal codec o (s.setPredictor ch p) = blockRefusal codec o s := by
  simp only [blockRefusal, setPredictor_hasChannel, setPredictor_spaceSize]

@[simp] theorem configurationKept_setPredictor (s : State) (ch : Chan) (p : Predictor) :
    (s.setPredictor ch p).configurationKept = s.configurationKept := by
  simp only [State.configurationKept, setPredictor_lines, setPredictor_codec, setPredictor_channels]

/-! ### Turns of the adapter that decode nothing: no Predictor State takes part -/

/-- A turn with a Predictor State replaced in the state it leaves. -/
def turnSetPredictor (ch : Chan) (p : Predictor) : Turn → Turn
  | .goOn s c => .goOn (s.setPredictor ch p) c
  | .halt s c => .halt (s.setPredictor ch p) c

theorem setAdapter_setPredictor (s : State) (ch : Chan) (p : Predictor) (n : Nat) (q : AdapterState) :
    (s.setPredictor ch p).setAdapter n q = (s.setAdapter n q).setPredictor ch p := by cases ch <;> rfl

theorem setCacheSize_setPredictor (s : State) (ch : Chan) (p : Predictor) (n : Nat) :
    (s.setPredictor ch p).setCacheSize n = (s.setCacheSize n).setPredictor ch p := by cases ch <;> rfl

theorem fillingCacheState_setPredictor (c : Cursor) (s : State) (ch : Chan) (p : Predictor) :
    fillingCacheState c (s.setPredictor ch p) = (fillingCacheState c s).map (turnSetPredictor ch p) := by
  simp only [fillingCacheState, setPredictor_ilen, setPredictor_gin, setPredictor_cacheSize, readBytes_setPredictor,
    writeBytes_setPredictor]
  split
  · rfl
  · cases readBytes s .input c.ic _ with
    | error e => rfl
    | ok vs =>
      simp only
      cases writeBytes s .icache s.cacheSize vs with
      | error e => rfl
      | ok t =>
        simp only [Except.map, setAdapter_setPredictor, setCacheSize_setPredictor]
        split <;> rfl

theorem cacheFullState_setPredictor (c : Cursor) (s : State) (ch : Chan) (p : Predictor) :
    cacheFullState c (s.setPredictor ch p) = (cacheFullState c s).map (turnSetPredictor ch p) := by
  simp only [cacheFullState, setPredictor_olen, setPredictor_gout, setPredictor_cacheSize, readBytes_setPredictor,
    writeBytes_setPredictor]
  split
  · rfl
  · cases readBytes s .ocache _ _ with
    | error e => rfl
    | ok vs =>
      simp only
      cases writeBytes s .output c.oc vs with
      | error e => rfl
      | ok t =>
        simp only [Except.map, setAdapter_setPredictor, setCacheSize_setPredictor]
        split <;> rfl

/-! ### Mono sessions -/

/-- A change that commutes with an operation commutes with the meaning made of it. -/
theorem outcome_of_eq_map {f : State → State} {r r' : Run State} (h : r' = r.map f) :
    outcome r' = mapNext f (outcome r) := by
  subst h
  rcases r with (_ | _) | _ <;> rfl

/-- The only channel of a mono session is the left one (R26). -/
theorem eq_left_of_hasChannel {s : State} (hm : s.channels = .mono) {ch : Chan} (h : s.hasChannel ch = true) :
    ch = .left := by
  cases ch with
  | left => rfl
  | right => rw [hasChannel_right_of_mono hm] at h; cases h

section Mono
variable {s : State} (hm : s.channels = .mono) (p : Predictor)
include hm

/-! ### Datapath operations -/

theorem runSymbol_setRight (step : Predictor → Predictor × I32) (ch : Chan) :
    runSymbol step ch (s.setPredictor .right p) = (runSymbol step ch s).map (·.setPredictor .right p) := by
  unfold runSymbol
  rw [setPredictor_hasChannel]
  by_cases h : s.hasChannel ch = true
  · obtain rfl := eq_left_of_hasChannel hm h
    rw [if_pos h, if_pos h]; rfl
  · rw [if_neg h, if_neg h]; rfl

theorem runPacket_setRight (codec : Codec) (bytes : List Byte) (o : PktOps) :
    runPacket codec bytes o (s.setPredictor .right p) = (runPacket codec bytes o s).map (·.setPredictor .right p) := by
  unfold runPacket
  rw [setPredictor_hasChannel]
  by_cases h : s.hasChannel o.ch = true
  · have hl := eq_left_of_hasChannel hm h
    have hp : (s.setPredictor .right p).predictor o.ch = s.predictor o.ch :=
      setPredictor_predictor_ne s p (by simp [hl])
    simp only [if_pos h, hp, setPredictor_symOrder3, setPredictor_rom, writeBytes_setPredictor]
    cases writeBytes s o.dst.space o.d _ with
    | error e => rfl
    | ok t => simp only [Except.map, hl]; rfl
  · rw [if_neg h, if_neg h]; rfl

theorem runBlock_setRight (codec : Codec) (o : BlockOps) :
    runBlock codec o (s.setPredictor .right p) = (runBlock codec o s).map (·.setPredictor .right p) := by
  unfold runBlock
  rw [blockRefusal_setPredictor, readPackets_setPredictor]
  cases hr : blockRefusal codec o s with
  | some r => rfl
  | none =>
    obtain ⟨-, -, hch, -⟩ := blockRefusal_none.1 hr
    have hl := eq_left_of_hasChannel hm hch
    have hp : (s.setPredictor .right p).predictor o.ch = s.predictor o.ch :=
      setPredictor_predictor_ne s p (by simp [hl])
    cases readPackets codec o s 0 o.n with
    | error e => rfl
    | ok packets =>
      simp only [hp, setPredictor_symOrder3, setPredictor_rom, writeBytes_setPredictor]
      cases writeBytes s o.dst.space o.d _ with
      | error e => rfl
      | ok t => simp only [Except.map, hl]; rfl

theorem monoFrames_setRight (src : Src) (b : Nat) (dst : Dst) (d m : Nat) :
    monoFrames src b dst d m (s.setPredictor .right p) =
      (monoFrames src b dst d m s).map (·.setPredictor .right p) :=
  runBlock_setRight hm p ..

theorem direct_setRight (c : Cursor) (n : Nat) :
    direct c n (s.setPredictor .right p) = (direct c n s).map (·.setPredictor .right p) := by
  simp only [direct, setPredictor_channels, hm]
  exact monoFrames_setRight hm p ..

/-! ### The adapter -/

theorem initState_setRight (c : Cursor) :
    initState c (s.setPredictor .right p) = (initState c s).map (turnSetPredictor .right p) := by
  have hd : (if 0 < directCount c s then direct c (directCount c s) (s.setPredictor .right p)
        else .ok (s.setPredictor .right p)) =
      Except.map (·.setPredictor .right p) (if 0 < directCount c s then direct c (directCount c s) s else .ok s) := by
    rw [direct_setRight hm, apply_ite (Except.map _)]; rfl
  have hn : directCount c (s.setPredictor .right p) = directCount c s := rfl
  simp only [initState, hn, hd, setPredictor_ilen, setPredictor_gin, setPredictor_gout]
  cases (if 0 < directCount c s then direct c (directCount c s) s else .ok s) with
  | error e => rfl
  | ok t =>
    simp only [Except.map, setAdapter_setPredictor]
    split <;> rfl

theorem processCacheState_setRight (c : Cursor) :
    processCacheState c (s.setPredictor .right p) = (processCacheState c s).map (turnSetPredictor .right p) := by
  simp only [processCacheState, setPredictor_channels, hm, monoFrames_setRight hm, setPredictor_gout]
  cases monoFrames .icache 0 .ocache 0 1 s with
  | error e => rfl
  | ok t => rfl

theorem adapterTurn_setRight (c : Cursor) :
    adapterTurn c (s.setPredictor .right p) = (adapterTurn c s).map (turnSetPredictor .right p) := by
  simp only [adapterTurn, setPredictor_state]
  cases s.state with
  | init => exact initState_setRight hm p c
  | fillingCache => exact fillingCacheState_setPredictor ..
  | processCache => exact processCacheState_setRight hm p c
  | cacheFull => exact cacheFullState_setPredictor ..

theorem adapterLoop_setRight (k : Nat) (c : Cursor) :
    adapterLoop k c (s.setPredictor .right p) =
      (adapterLoop k c s).map fun r => (r.1.setPredictor .right p, r.2) := by
  induction k generalizing s c with
  | zero => rfl
  | succ k ih =>
    simp only [adapterLoop, adapterTurn_setRight hm]
    cases ht : adapterTurn c s with
    | error e => rfl
    | ok r =>
      cases r with
      | halt t d => rfl
      | goOn t d =>
        obtain ⟨-, hc, -⟩ := (turn_keeps ht).kept.1
        exact ih (hc.trans hm) d

theorem runProcess_setRight :
    runProcess (s.setPredictor .right p) = (runProcess s).map (·.setPredictor .right p) := by
  simp only [runProcess, adapterLoop_setRight hm]
  cases adapterLoop maxTurns ⟨0, 0⟩ s with
  | error e => rfl
  | ok r => rfl

/-! ### Operations -/

theorem exec_setRight {i : Instr} (hi : i ≠ .reset) :
    exec i (s.setPredictor .right p) = mapNext (·.setPredictor .right p) (exec i s) := by
  cases i with
  | pkt6 a b c o => exact outcome_of_eq_map (runPacket_setRight hm p ..)
  | pkt3 a b c d e f o => exact outcome_of_eq_map (runPacket_setRight hm p ..)
  | step3 code ch => exact outcome_of_eq_map (runSymbol_setRight hm p ..)
  | step2 code ch => exact outcome_of_eq_map (runSymbol_setRight hm p ..)
  | block6 o => exact outcome_of_eq_map (runBlock_setRight hm p ..)
  | block3 o => exact outcome_of_eq_map (runBlock_setRight hm p ..)
  | nop =>
    simp only [exec, execNop, configurationKept_setPredictor]
    split <;> rfl
  | reset => exact absurd rfl hi
  | process =>
    simp only [exec, execProcess, setPredictor_lines, configurationKept_setPredictor]
    cases s.lines.breach with
    | some b => rfl
    | none =>
      simp only [outcome_of_eq_map (runProcess_setRight hm p)]
      split <;> rfl
  | totals =>
    simp only [exec, execTotals, setPredictor_lines, configurationKept_setPredictor]
    split
    · rfl
    · split <;> rfl

end Mono

/-- Settles O40: replacing PS[2] commutes with every operation but RESET; PS[2] as it stands before is the replacement
that changes nothing, so it is also kept. -/
theorem rightUnusedWhenMono : Obligations.RightUnusedWhenMono :=
  fun _ _ p hm hi => exec_setRight hm p hi

end Sys2Proof.Proofs

/-! PROOFS. R87: the packet decoders answer on every byte, by splitting it into its three codes; which numbers the codes
are is `splitByte_toNat`. -/

namespace Sys2Proof.Proofs

open Sys2Proof Sys2Proof.Laws

@[simp] theorem decodePacket6_cons (x : Byte) (rest : List Byte) :
    decodePacket6 (x :: rest) = .ok (splitByte x, rest) := rfl

@[simp] theorem decodePacket3_cons_cons (x y : Byte) (rest : List Byte) :
    decodePacket3 (x :: y :: rest) = .ok ((splitByte x, splitByte y), rest) := rfl

@[simp] theorem decode_packet6_singleton (x : Byte) (o : PktOps) :
    decode (.packet6 [x] o) = .ok (.pkt6 (splitByte x).a (splitByte x).b (splitByte x).c o) := rfl

@[simp] theorem decode_packet3_pair (x y : Byte) (o : PktOps) :
    decode (.packet3 [x, y] o) =
      .ok (.pkt3 (splitByte x).a (splitByte x).b (splitByte x).c
        (splitByte y).a (splitByte y).b (splitByte y).c o) := rfl

/-- Settles O2: the codes are those `splitByte` takes out of each byte. -/
theorem everyByteIsAPacket : Obligations.EveryByteIsAPacket := by
  intro x y rest o
  obtain ⟨ha, hb, hc⟩ := splitByte_toNat x
  obtain ⟨hd, he, hf⟩ := splitByte_toNat y
  exact ⟨_, _, _, _, _, _, decode_packet6_singleton x o, decode_packet3_pair x y o, decodePacket6_cons x rest,
    decodePacket3_cons_cons x y rest, ha, hb, hc, hd, he, hf⟩

end Sys2Proof.Proofs

/-! PROOFS. R118: what one Coefficient Step computes, in exact integers. The index expressions of R84 select the entry
at the row of bits 10 to 4 and the column of the code; every other line of the step is one of the integer laws of
Laws/Arith.lean; a symbol operation then writes one Predictor State and hands back the sample. -/

namespace Sys2Proof.Proofs

open Sys2Proof Sys2Proof.Machine Sys2Proof.Safety Sys2Proof.Laws

/-! ### The table index (R84) -/

/-- A mask of seven bits from bit `k` on keeps those bits at their place. -/
theorem and_sevenBits_shifted (x k : Nat) : x &&& 127 * 2 ^ k = 2 ^ k * (x / 2 ^ k % 128) := by
  have hlow : (x &&& 127 * 2 ^ k) % 2 ^ k = 0 := by
    rw [Nat.and_mod_two_pow, Nat.mul_mod_left, Nat.and_zero]
  have hhigh : (x &&& 127 * 2 ^ k) / 2 ^ k = x / 2 ^ k % 128 := by
    rw [Nat.and_div_two_pow, Nat.mul_div_cancel _ (Nat.two_pow_pos k)]
    exact Nat.and_two_pow_sub_one_eq_mod _ 7
  rw [← Nat.div_add_mod (x &&& 127 * 2 ^ k) (2 ^ k), hlow, hhigh, Nat.add_zero]

/-- The row stays whole under either shift: bits 9 to 3 after a shift by 1 and bits 8 to 2 after a shift by 2 are bits 10
to 4 before it. -/
theorem asr_row (prev : I32) : (asr prev 1).toNat / 2 ^ 3 % 128 = rowOf prev ∧
    (asr prev 2).toNat / 2 ^ 2 % 128 = rowOf prev := by
  have h1 := toInt_asr prev 1
  have h2 := toInt_asr prev 2
  rw [BitVec.toInt_eq_toNat_cond, BitVec.toInt_eq_toNat_cond] at h1 h2
  unfold rowOf
  omega

/-- A masked row and a code of at most three bits below it add up without a carry. -/
theorem toNat_row_add_code {w : Nat} (hw : w ≤ 3) (x : I32) {mask : I32} (hm : mask.toNat = 127 * 2 ^ w)
    (code : BitVec w) :
    ((x &&& mask) + code.zeroExtend 32).toNat = 2 ^ w * (x.toNat / 2 ^ w % 128) + code.toNat := by
  have hpow : 2 ^ w ≤ 2 ^ 3 := Nat.pow_le_pow_right (by decide) hw
  have hcode : (code.zeroExtend 32).toNat = code.toNat := BitVec.toNat_setWidth_of_le (by omega)
  have hrow : (x &&& mask).toNat ≤ 127 * 2 ^ w := by
    rw [BitVec.toNat_and, hm]
    exact Nat.and_le_right
  have hlt := code.isLt
  rw [BitVec.toNat_add, hcode, Nat.mod_eq_of_lt (by omega), BitVec.toNat_and, hm, and_sevenBits_shifted]

theorem toNat_bigIndex3 (prev : I32) (code : BitVec 3) :
    (bigIndex3 prev code).toNat = 8 * rowOf prev + code.toNat := by
  rw [← (asr_row prev).1]
  exact toNat_row_add_code (by decide) (asr prev 1) rfl code

theorem toNat_bigIndex2 (prev : I32) (code : BitVec 2) :
    (bigIndex2 prev code).toNat = 4 * rowOf prev + code.toNat := by
  rw [← (asr_row prev).2]
  exact toNat_row_add_code (by decide) (asr prev 2) rfl code

/-- The big entry of the 8-way reply is the one at the row and the code (R119). -/
theorem toInt_lookup3_big (t : Tables) (prev : I32) (code : BitVec 3) :
    (lookup3 t prev code).1.toInt = big8 t prev code := by
  simp only [lookup3, big8, toNat_bigIndex3]

/-- The big entry of the 4-way reply is the one at the row and the code (R120). -/
theorem toInt_lookup2_big (t : Tables) (prev : I32) (code : BitVec 2) :
    (lookup2 t prev code).1.toInt = big4 t prev code := by
  simp only [lookup2, big4, toNat_bigIndex2]

/-! ### The fields after a step (R118) -/

/-- The direction changes exactly where the two bits 15 differ (R118 step 4, R115). -/
theorem directionChanged_iff (delta last : I32) :
    directionChanged delta last = true ↔ bit15 delta.toInt ≠ bit15 last.toInt := by
  rw [directionChanged, BitVec.getLsbD_xor, getLsbD_15, getLsbD_15, bne_iff_ne]

/-- The slope after a step (R118 step 6). -/
theorem toInt_nextSlope (changed : Bool) (slope : I32) :
    (nextSlope changed slope).toInt =
      if changed = true then max (-32767) (wrap (slope.toInt - 314)) else min 32767 (wrap (slope.toInt + 506)) := by
  cases changed with
  | true =>
    have hlo : clampLo.toInt = -32767 := by decide
    have h314 : (314#32).toInt = 314 := by decide
    rw [nextSlope, if_pos rfl, if_pos rfl, toInt_smax, toInt_sub', hlo, h314, max_comm]
  | false =>
    have hhi : clampHi.toInt = 32767 := by decide
    have h506 : (506#32).toInt = 506 := by decide
    rw [nextSlope, if_neg Bool.false_ne_true, if_neg Bool.false_ne_true, toInt_smin, toInt_add', hhi, h506, min_comm]

/-- The table index after a step (R118 steps 2 and 3). -/
theorem toInt_nextIndex (prev : I32) (small : I16) :
    (smax (prev + sext small - asr prev 5) 0).toInt =
      max 0 (wrap (prev.toInt + small.toInt - prev.toInt / 32)) := by
  rw [toInt_smax, toInt_sub', toInt_add', toInt_sext, toInt_asr, wrap_wrap_sub, max_comm]
  rfl

/-- The square of a value in range does not wrap, so the decay term is exact (R118 step 7, R123). -/
theorem toInt_amplitude {r : I32} (h : Within15 r) : (asr (r * r) 15).toInt = r.toInt * r.toInt / 32768 := by
  obtain ⟨hlo, hhi⟩ := h
  have hsq : r.toInt * r.toInt ≤ 32767 * 32767 := by nlinarith
  have hpos : 0 ≤ r.toInt * r.toInt := mul_self_nonneg _
  rw [toInt_asr, toInt_mul', wrap_of_range (by omega) (by omega)]
  rfl

/-- One Coefficient Step from its table reply is the common algorithm (R118). -/
theorem coefficientStep_relation (reply : I16 × I16) (ps : Predictor) :
    StepRelation reply.1.toInt reply.2.toInt ps (coefficientStep reply ps).1 (coefficientStep reply ps).2 := by
  refine ⟨?_, toInt_nextIndex _ _, rfl, toInt_amplitude (coefficientStep_within reply ps), ?_, rfl, rfl⟩
  · exact (toInt_clamp _).trans (by rw [toInt_add', toInt_sext])
  · refine (toInt_nextSlope _ _).trans ?_
    simp only [directionChanged_iff, toInt_sext, ite_not]

/-- The step a symbol selects is the common algorithm with that width's table entries (R119, R120). -/
theorem stepSymbol_relation (t : Tables) (sym : Symbol) (ps : Predictor) :
    SymbolRelation t sym ps (stepSymbol t sym ps).1 (stepSymbol t sym ps).2 := by
  cases sym with
  | three code =>
    have h := coefficientStep_relation (lookup3 t ps.tableIndex code) ps
    rwa [toInt_lookup3_big] at h
  | two code =>
    have h := coefficientStep_relation (lookup2 t ps.tableIndex code) ps
    rwa [toInt_lookup2_big] at h

/-! ### The symbol operations -/

/-- A channel's Predictor State is not the other channel's. -/
theorem setPredictor_predictor_other (s : State) (ch : Chan) (p : Predictor) :
    (s.setPredictor ch p).predictor (other ch) = s.predictor (other ch) :=
  setPredictor_predictor_ne s p (by cases ch <;> decide)

/-- A symbol operation on a channel the session has completes, steps that channel's Predictor State by the common
algorithm, hands back the sample and leaves everything else. -/
theorem runSymbol_follows {s : State} {ch : Chan} (sym : Symbol) (h : s.hasChannel ch = true) :
    ∃ t rec, outcome (runSymbol (stepSymbol s.rom sym) ch s) = .next t ∧ t.response = .sample rec ∧
      SymbolRelation s.rom sym (s.predictor ch) (t.predictor ch) rec ∧
      t.predictor (other ch) = s.predictor (other ch) ∧ SameBytes s t ∧ SameSession s t ∧ SameSetting s t := by
  obtain ⟨hsetting, hsession, -⟩ := kept_setPredictor s ch (stepSymbol s.rom sym (s.predictor ch)).1
  refine ⟨_, _, outcome_next.2 (runSymbol_ok.2 ⟨h, rfl⟩), rfl, ?_, ?_, ?_, hsession, hsetting⟩
  · rw [respond_predictor, setPredictor_predictor_same]
    exact stepSymbol_relation s.rom sym (s.predictor ch)
  · rw [respond_predictor, setPredictor_predictor_other]
  · intro sp a
    rw [respond_byteAt, setPredictor_byteAt]

/-- Settles O8: STEP3 and STEP2 are the symbol operation of a 3-bit and of a 2-bit code. -/
theorem stepFollowsTheCommonAlgorithm : Obligations.StepFollowsTheCommonAlgorithm :=
  ⟨fun _ code _ h => runSymbol_follows (.three code) h, fun _ code _ h => runSymbol_follows (.two code) h⟩

end Sys2Proof.Proofs

/-! PROOFS. R150: a block decode unrolled. Where one completes is read off the packets it reads alone; a block decode of
`m + n` packets is the first `m` and then, from the state they leave, the next `n`; a block decode of one packet is the
packet operation with the history loaded before it and persisted after it. All of it holds for both codecs. -/

namespace Sys2Proof.Proofs

open Sys2Proof Sys2Proof.Machine Sys2Proof.Safety Sys2Proof.Laws

/-! ### Where a block decode completes -/

theorem packetBytes_pos (codec : Codec) : 0 < packetBytes codec := by cases codec <;> decide

/-- Packets that can be read lie within the source, so the contract's check of its length is met. -/
theorem sourceEnd_le_of_readPackets {codec : Codec} {o : BlockOps} {s : State} {n : Nat} {xs : List (List Byte)}
    (h : readPackets codec o s 0 n = .ok xs) : sourceEnd codec o.b o.cc o.ci n ≤ s.spaceSize o.src.space := by
  cases n with
  | zero => exact Nat.zero_le _
  | succ n =>
    obtain ⟨x, -, hx⟩ := (readPackets_ok.1 h).2 n (Nat.lt_succ_self n)
    have hw := packetBytes_pos codec
    have hlast := ((readBytes_ok.1 hx).2 (packetBytes codec - 1) (by omega)).1
    rw [Nat.zero_add] at hlast
    rw [sourceEnd, if_neg n.succ_ne_zero, Nat.add_sub_cancel]
    omega

/-- A block decode completes exactly with its channel's operands, room for its output and packets that can be read. -/
theorem runBlock_ok_iff {codec : Codec} {o : BlockOps} {s t : State} :
    runBlock codec o s = .ok t ↔
      (1 ≤ o.ci ∧ o.ci ≤ o.cc) ∧ o.ch.number = o.ci ∧ s.hasChannel o.ch = true ∧
      (o.n = 0 ∨ o.d + 6 * o.n ≤ s.spaceSize o.dst.space) ∧
      ∃ packets r, readPackets codec o s 0 o.n = .ok packets ∧
        r = decodePackets codec s.symOrder3 s.rom (s.predictor o.ch) packets ∧
        t = (s.setMem o.dst.space (Memory.writeList (s.mem o.dst.space) o.d r.2)).setPredictor o.ch r.1 := by
  rw [runBlock_ok, blockRefusal_none]
  constructor
  · rintro ⟨⟨hci, hnum, hch, -, hroom⟩, hrun⟩
    exact ⟨hci, hnum, hch, hroom, hrun⟩
  · rintro ⟨hci, hnum, hch, hroom, packets, r, hread, hrun⟩
    exact ⟨⟨hci, hnum, hch, sourceEnd_le_of_readPackets hread, hroom⟩, packets, r, hread, hrun⟩

theorem packetOffset_mace6 (o : BlockOps) (p : Nat) : packetOffset .mace6 o.b o.cc o.ci p = offset6 o p := by
  simp only [packetOffset, packetBytes, offset6]
  omega

/-- Within its contract a BLOCK6 completes (R149). -/
theorem runBlock_of_block6Contract {o : BlockOps} {s : State} (h : Block6Contract o s) :
    ∃ t, runBlock .mace6 o s = .ok t := by
  obtain ⟨h1, hcc, hnum, hch, hroom, hread⟩ := h
  obtain ⟨packets, hp⟩ := readPackets_total (codec := .mace6) (o := o) (s := s) (p := 0) (n := o.n) fun q hq => by
    rw [Nat.zero_add, packetOffset_mace6]
    exact readBytes_total (hread q hq)
  exact ⟨_, runBlock_ok_iff.2 ⟨⟨h1, hcc⟩, hnum, hch, hroom, packets, _, hp, rfl, rfl⟩⟩

/-- A completed block decode of no packets leaves the state as it is (R155). -/
theorem eq_of_runBlock_zero {codec : Codec} {o : BlockOps} {s t : State}
    (h : runBlock codec { o with n := 0 } s = .ok t) : t = s := by
  obtain ⟨-, -, -, -, packets, r, hp, rfl, rfl⟩ := runBlock_ok_iff.1 h
  obtain rfl : packets = [] := List.length_eq_zero_iff.1 (readPackets_ok.1 hp).1
  simp only [decodePackets_nil, writeList_nil, setMem_self, setPredictor_self]

/-! ### Two parts -/

/-- Which packets are read does not depend on how many the block decode has. -/
@[simp] theorem readPackets_withCount (codec : Codec) (o : BlockOps) (s : State) (k p n : Nat) :
    readPackets codec { o with n := k } s p n = readPackets codec o s p n :=
  readPackets_congr fun _ _ => rfl

/-- Packets read together can be read in two parts. -/
theorem readPackets_split {codec : Codec} {o : BlockOps} {s : State} {p m n : Nat} {zs : List (List Byte)}
    (h : readPackets codec o s p (m + n) = .ok zs) :
    ∃ xs ys, readPackets codec o s p m = .ok xs ∧ readPackets codec o s (p + m) n = .ok ys ∧ zs = xs ++ ys := by
  obtain ⟨-, hq⟩ := readPackets_ok.1 h
  obtain ⟨xs, hx⟩ := readPackets_total (codec := codec) (o := o) (s := s) (p := p) (n := m) fun q hm =>
    (hq q (by omega)).imp fun _ => And.right
  obtain ⟨ys, hy⟩ := readPackets_total (codec := codec) (o := o) (s := s) (p := p + m) (n := n) fun q hn => by
    rw [Nat.add_assoc]
    exact (hq (m + q) (by omega)).imp fun _ => And.right
  exact ⟨xs, ys, hx, hy, Except.ok.inj (h.symm.trans (readPackets_add hx hy))⟩

/-- The operands of a block decode after its first `m` packets, with `n` packets to go (R55, R56). -/
def afterPackets (codec : Codec) (o : BlockOps) (m n : Nat) : BlockOps :=
  { o with n := n, b := o.b + packetBytes codec * (m * o.cc), d := o.d + 6 * m }

theorem packetOffset_afterPackets (codec : Codec) (o : BlockOps) (m n p : Nat) :
    packetOffset codec (afterPackets codec o m n).b o.cc o.ci p = packetOffset codec o.b o.cc o.ci (m + p) := by
  simp only [packetOffset, afterPackets]
  ring

/-- The packets after the first `m` are where the advanced operands say, in any state with the same source. -/
theorem readPackets_afterPackets {codec : Codec} {o : BlockOps} {s t : State} {m n : Nat}
    (hsize : t.spaceSize o.src.space = s.spaceSize o.src.space)
    (hbytes : ∀ a, t.byteAt o.src.space a = s.byteAt o.src.space a) :
    readPackets codec (afterPackets codec o m n) t 0 n = readPackets codec o s (0 + m) n :=
  readPackets_congr fun q _ => by
    rw [show 0 + m + q = m + (0 + q) by omega, ← packetOffset_afterPackets codec o m n]
    exact readBytes_of_same hsize hbytes _ _

/-- A block decode of `m + n` packets is one of `m` and then, from the state that leaves, one of the next `n` (R156). -/
theorem runBlock_add {codec : Codec} {o : BlockOps} {s u : State} {m n : Nat}
    (h : runBlock codec { o with n := m + n } s = .ok u) :
    ∃ t, runBlock codec { o with n := m } s = .ok t ∧ runBlock codec (afterPackets codec o m n) t = .ok u := by
  obtain ⟨hci, hnum, hch, hroom, zs, r, hz, rfl, rfl⟩ := runBlock_ok_iff.1 h
  rw [readPackets_withCount] at hz
  obtain ⟨xs, ys, hx, hy, rfl⟩ := readPackets_split hz
  dsimp only at hroom
  have hfirst := (runBlock_ok_iff (codec := codec) (o := { o with n := m })).2
    ⟨hci, hnum, hch, by dsimp only; omega, xs, _, by rw [readPackets_withCount]; exact hx, rfl, rfl⟩
  obtain ⟨hkept, hbytes, -⟩ := runBlock_keeps hfirst
  have hlen := decodePackets_length (readPackets_width hx) s.symOrder3 s.rom (s.predictor o.ch)
  rw [(readPackets_ok.1 hx).1] at hlen
  refine ⟨_, hfirst, runBlock_ok_iff.2 ⟨hci, hnum, (hkept.hasChannel _).trans hch, ?_, ys, _, ?_, rfl, ?_⟩⟩
  · rw [hkept.spaceSize]
    simp only [afterPackets]
    omega
  · exact (readPackets_afterPackets (hkept.spaceSize _) (hbytes _ (src_ne_dst _ _))).trans hy
  · simp [afterPackets, decodePackets_append, writeList_append, hlen, setPredictor_setMem]

/-! ### One packet -/

/-- The history a packet operation hands back, persisted in its channel's Predictor State (R153); what was handed back
before is handed back again. -/
def persistHistory (s t : State) (ch : Chan) (s1 s2 : I32) : State :=
  (t.setPredictor ch { t.predictor ch with sample1 := s1, sample2 := s2 }).respond s.response

theorem decodePackets_singleton (codec : Codec) (order : SymOrder) (t : Tables) (ps : Predictor) (x : List Byte) :
    decodePackets codec order t ps [x] =
      (storeHistory (packet codec order t (loadHistory ps) x).1, (packet codec order t (loadHistory ps) x).2) := by
  simp only [decodePackets, runAll_cons, runAll_nil, List.append_nil]

/-- Persisting after a packet operation leaves its bytes and the Predictor State with the history, and nothing else. -/
theorem persistHistory_packet (s : State) (sp : SpaceName) (m : Memory) (ch : Chan) (w : Working) (r : Response) :
    persistHistory s (((s.setMem sp m).setPredictor ch w.ps).respond r) ch w.s1 w.s2 =
      (s.setMem sp m).setPredictor ch (storeHistory w) := by
  cases ch <;> cases sp <;> rfl

/-- The packet operation that is the first packet of a block decode: the history loaded, the block's destination (R152). -/
def firstPacket (o : BlockOps) (s : State) : PktOps :=
  ⟨o.ch, (s.predictor o.ch).sample1, (s.predictor o.ch).sample2, o.dst, o.d⟩

/-- A block decode of one packet is the packet operation on that packet's bytes, between loading the history and
persisting it (R152, R153). -/
theorem runBlock_one {codec : Codec} {o : BlockOps} {s t' : State} {x : List Byte}
    (h : runBlock codec { o with n := 1 } s = .ok t')
    (hx : readBytes s o.src.space (packetOffset codec o.b o.cc o.ci 0) (packetBytes codec) = .ok x) :
    ∃ t s1 s2, runPacket codec x (firstPacket o s) s = .ok t ∧ t.response = .history s1 s2 ∧
      t' = persistHistory s t o.ch s1 s2 := by
  obtain ⟨-, -, hch, hroom, packets, r, hp, rfl, rfl⟩ := runBlock_ok_iff.1 h
  obtain rfl : packets = [x] := by
    simp only [readPackets, hx, Except.ok.injEq] at hp
    exact hp.symm
  have hpkt := (runPacket_ok (o := firstPacket o s) (readBytes_ok.1 hx).1).2
    ⟨hch, hroom.resolve_left one_ne_zero, _, rfl, rfl⟩
  refine ⟨_, _, _, hpkt, rfl, ?_⟩
  rw [decodePackets_singleton]
  exact (persistHistory_packet ..).symm

/-- A completed block decode of `n + 1` packets is the packet operation on the first, its history persisted, and then the
block decode of the `n` packets after it (R150, R151). -/
theorem runBlock_succ {codec : Codec} {o : BlockOps} {s u : State} {n : Nat} {x : List Byte}
    (h : runBlock codec { o with n := n + 1 } s = .ok u)
    (hx : readBytes s o.src.space (packetOffset codec o.b o.cc o.ci 0) (packetBytes codec) = .ok x) :
    ∃ t s1 s2, runPacket codec x (firstPacket o s) s = .ok t ∧ t.response = .history s1 s2 ∧
      runBlock codec (afterPackets codec o 1 n) (persistHistory s t o.ch s1 s2) = .ok u := by
  rw [Nat.add_comm n 1] at h
  obtain ⟨t', hone, hrest⟩ := runBlock_add h
  obtain ⟨t, s1, s2, hpkt, hresp, rfl⟩ := runBlock_one hone hx
  exact ⟨t, s1, s2, hpkt, hresp, hrest⟩

/-! ### BLOCK6 -/

/-- The first packet of a BLOCK6 within its contract is the byte at the channel's offset (R55). -/
theorem readBytes_firstPacket6 {o : BlockOps} {s : State} {n : Nat} {x : Byte}
    (hc : Block6Contract { o with n := n + 1 } s) (hx : s.byteAt o.src.space (o.b + (o.ci - 1)) = some x) :
    readBytes s o.src.space (packetOffset .mace6 o.b o.cc o.ci 0) (packetBytes .mace6) = .ok [x] := by
  obtain ⟨-, -, -, -, -, hread⟩ := hc
  obtain ⟨hlt, -⟩ := hread 0 n.succ_pos 0 one_pos
  have h0 : offset6 o 0 = o.b + (o.ci - 1) := by rw [offset6, Nat.zero_mul, Nat.add_zero]
  have hbyte : readByte s o.src.space (offset6 o 0) = .ok x := readByte_ok.2 ⟨hlt, by rw [h0]; exact hx⟩
  rw [packetOffset_mace6]
  simp only [packetBytes, readBytes, hbyte]

/-- Settles O18: a BLOCK6 within its contract completes, so its first packet can be taken off it. -/
theorem block6FollowsItsPseudocode : Obligations.Block6FollowsItsPseudocode := by
  refine ⟨fun s o hc => ?_, fun s o n x hc hx => ?_⟩
  · obtain ⟨t, ht⟩ := runBlock_of_block6Contract hc
    rw [eq_of_runBlock_zero ht] at ht
    exact outcome_next.2 ht
  · obtain ⟨u, hu⟩ := runBlock_of_block6Contract hc
    obtain ⟨t, s1, s2, hpkt, hresp, hrest⟩ := runBlock_succ hu (readBytes_firstPacket6 hc hx)
    have hrest' : runBlock .mace6 { o with n := n, b := o.b + o.cc, d := o.d + 6 }
        (persistHistory s t o.ch s1 s2) = .ok u := by
      simpa only [afterPackets, packetBytes, Nat.one_mul, Nat.mul_one] using hrest
    refine ⟨t, splitByte x, [], s1, s2, decodePacket6_cons x [], ?_, hresp, ?_⟩
    · rw [← joinByte_splitByte x] at hpkt
      exact outcome_next.2 hpkt
    · exact (outcome_next.2 hu).trans (outcome_next.2 hrest').symm

end Sys2Proof.Proofs

/-! PROOFS. R170 and R192: the frame sizes, and the session as a resource that no command uses up. A session is
consistent when its caches hold the bytes its registers count. Datapath operations only add bytes to the caches, and
every turn of the adapter that answers leaves a consistent session or one about to run ProcessCache; so every step keeps
the session consistent, and a consistent session has a place in a stream from which PROCESS completes. -/

namespace Sys2Proof.Proofs

open Sys2Proof Sys2Proof.Machine Sys2Proof.Safety Sys2Proof.Laws

/-- Settles O26: the sizes are products of closed numbers. -/
theorem frameSizes : Obligations.FrameSizes := by
  unfold Obligations.FrameSizes
  decide

/-! ### Readable ranges -/

theorem readable_zero (s : State) (sp : SpaceName) (a : Nat) : Readable s sp a 0 :=
  fun j hj => absurd hj j.not_lt_zero

theorem readable_append {s : State} {sp : SpaceName} {a m n : Nat} (h : Readable s sp a m)
    (k : Readable s sp (a + m) n) : Readable s sp a (m + n) := by
  intro j hj
  by_cases hjm : j < m
  · exact h j hjm
  · have hk := k (j - m) (by omega)
    rwa [show a + m + (j - m) = a + j by omega] at hk

/-- The last bytes of a readable range can be read. -/
theorem readable_suffix {s : State} {sp : SpaceName} {a n : Nat} (k : Nat) (h : Readable s sp a n) :
    Readable s sp (a + k) (n - k) := by
  intro j hj
  rw [Nat.add_assoc]
  exact h (k + j) (by omega)

/-- A write that fits makes its range readable. -/
theorem readable_writeList {s : State} {sp : SpaceName} {a : Nat} {vs : List Byte}
    (h : vs.length = 0 ∨ a + vs.length ≤ s.spaceSize sp) :
    Readable (s.setMem sp (Memory.writeList (s.mem sp) a vs)) sp a vs.length := by
  intro j hj
  rw [byteAt_setMem_writeList, if_pos ⟨rfl, by omega, by omega⟩, setMem_spaceSize, Nat.add_sub_cancel_left,
    List.getElem?_eq_getElem hj]
  exact ⟨by omega, rfl⟩

/-- A write takes no byte away. -/
theorem readable_after_writeList {s : State} {sp : SpaceName} {a n : Nat} (h : Readable s sp a n) (sp' : SpaceName)
    (b : Nat) (vs : List Byte) : Readable (s.setMem sp' (Memory.writeList (s.mem sp') b vs)) sp a n := by
  intro j hj
  obtain ⟨hlt, hsome⟩ := h j hj
  rw [byteAt_setMem_writeList, setMem_spaceSize]
  split
  next hin =>
    rw [List.getElem?_eq_getElem (by omega)]
    exact ⟨hlt, rfl⟩
  next => exact ⟨hlt, hsome⟩

/-! ### What consistency reads of the state -/

theorem sessionConsistent_of_init {s : State} (hs : s.state = .init) : SessionConsistent s ↔ s.cacheSize = 0 := by
  simp only [SessionConsistent, hs]

theorem sessionConsistent_of_fillingCache {s : State} (hs : s.state = .fillingCache) :
    SessionConsistent s ↔ s.cacheSize < s.gin ∧ Readable s .icache 0 s.cacheSize := by
  simp only [SessionConsistent, hs]

theorem not_sessionConsistent_of_processCache {s : State} (hs : s.state = .processCache) : ¬ SessionConsistent s := by
  simp only [SessionConsistent, hs, not_false_eq_true]

theorem sessionConsistent_of_cacheFull {s : State} (hs : s.state = .cacheFull) :
    SessionConsistent s ↔
      1 ≤ s.cacheSize ∧ s.cacheSize ≤ s.gout ∧ Readable s .ocache (s.gout - s.cacheSize) s.cacheSize := by
  simp only [SessionConsistent, hs]

@[simp] theorem sessionConsistent_respond (s : State) (r : Response) :
    SessionConsistent (s.respond r) ↔ SessionConsistent s := Iff.rfl

@[simp] theorem sessionConsistent_report (s : State) (c : Cursor) :
    SessionConsistent (report s c) ↔ SessionConsistent s := Iff.rfl

@[simp] theorem sessionConsistent_setPredictor (s : State) (ch : Chan) (p : Predictor) :
    SessionConsistent (s.setPredictor ch p) ↔ SessionConsistent s := by cases ch <;> exact Iff.rfl

/-- The issue of a transaction reaches neither the session nor its caches. -/
@[simp] theorem sessionConsistent_issue (s : State) (tr : Transaction) (rest : List Transaction) :
    SessionConsistent (s.issue tr rest) ↔ SessionConsistent s := by
  unfold State.issue
  cases tr.handover <;> exact Iff.rfl

theorem sessionConsistent_resetSession (codec : Codec) (chs : Channels) (s : State) :
    SessionConsistent (resetSession codec chs s) := (sessionConsistent_of_init rfl).2 rfl

/-- Bytes written to any space, a cache included, leave the session consistent. -/
theorem sessionConsistent_writeList {s : State} (h : SessionConsistent s) (sp : SpaceName) (a : Nat) (vs : List Byte) :
    SessionConsistent (s.setMem sp (Memory.writeList (s.mem sp) a vs)) := by
  cases hs : s.state with
  | init =>
    rw [sessionConsistent_of_init hs] at h
    rwa [sessionConsistent_of_init (by rw [setMem_state, hs]), setMem_cacheSize]
  | fillingCache =>
    obtain ⟨hlt, hread⟩ := (sessionConsistent_of_fillingCache hs).1 h
    rw [sessionConsistent_of_fillingCache (by rw [setMem_state, hs]), setMem_cacheSize, setMem_gin]
    exact ⟨hlt, readable_after_writeList hread sp a vs⟩
  | processCache => exact absurd h (not_sessionConsistent_of_processCache hs)
  | cacheFull =>
    obtain ⟨hpos, hle, hread⟩ := (sessionConsistent_of_cacheFull hs).1 h
    rw [sessionConsistent_of_cacheFull (by rw [setMem_state, hs]), setMem_cacheSize, setMem_gout]
    exact ⟨hpos, hle, readable_after_writeList hread sp a vs⟩

/-! ### The datapath operations -/

theorem runSymbol_consistent {f : Predictor → Predictor × I32} {ch : Chan} {s t : State}
    (h : runSymbol f ch s = .ok t) (hc : SessionConsistent s) : SessionConsistent t := by
  obtain ⟨-, rfl⟩ := runSymbol_ok.1 h
  rwa [sessionConsistent_respond, sessionConsistent_setPredictor]

theorem runPacket_consistent {codec : Codec} {bytes : List Byte} {o : PktOps} {s t : State}
    (hb : bytes.length = packetBytes codec) (h : runPacket codec bytes o s = .ok t) (hc : SessionConsistent s) :
    SessionConsistent t := by
  obtain ⟨-, -, r, -, rfl⟩ := (runPacket_ok hb).1 h
  rw [sessionConsistent_respond, sessionConsistent_setPredictor]
  exact sessionConsistent_writeList hc _ _ _

theorem runBlock_consistent {codec : Codec} {o : BlockOps} {s t : State} (h : runBlock codec o s = .ok t)
    (hc : SessionConsistent s) : SessionConsistent t := by
  obtain ⟨-, _, r, -, -, rfl⟩ := runBlock_ok.1 h
  rw [sessionConsistent_setPredictor]
  exact sessionConsistent_writeList hc _ _ _

/-! ### The turns of the adapter -/

/-- The session inside a PROCESS: consistent, or about to run ProcessCache, which is no state between commands (R29). -/
def BetweenTurns (s : State) : Prop := SessionConsistent s ∨ s.state = .processCache

/-- What a turn leaves: between two turns where the loop goes on, a consistent session where it halts. -/
def TurnConsistent : Turn → Prop
  | .goOn t _ => BetweenTurns t
  | .halt t _ => SessionConsistent t

/-- Init answers with nothing in the cache (R173). -/
theorem initState_consistent {c : Cursor} {s : State} {r : Turn} (hs : s.state = .init) (h0 : s.cacheSize = 0)
    (h : initState c s = .ok r) : TurnConsistent r := by
  obtain ⟨t, ht, rfl⟩ := initState_ok.1 h
  have hkept : Kept s t := by
    split at ht
    next => exact (direct_keeps ht).kept
    next => cases ht; exact .refl s
  obtain ⟨-, ⟨hstate, hsize, -⟩, -⟩ := hkept
  split
  next => exact .inl ((sessionConsistent_of_fillingCache rfl).2 ⟨gin_pos _, readable_zero _ _ _⟩)
  next => exact (sessionConsistent_of_init (hstate.trans hs)).2 (hsize.trans h0)

/-- FillingCache halts with the held bytes and the new ones in the input cache, fewer than a frame (R177). -/
theorem fillingCacheState_consistent {c : Cursor} {s : State} {r : Turn} (hs : s.state = .fillingCache)
    (hread : Readable s .icache 0 s.cacheSize) (h : fillingCacheState c s = .ok r) : TurnConsistent r := by
  obtain ⟨hle, vs, t, hvs, hw, rfl⟩ := fillingCacheState_ok.1 h
  obtain ⟨hroom, rfl⟩ := writeBytes_ok.1 hw
  have hcount : vs.length = fillCount c s := (readBytes_ok.1 hvs).1
  split
  next => exact .inr rfl
  next hpart =>
    have hlt : s.cacheSize + fillCount c s < s.gin := by
      have : fillCount c s ≤ s.gin - s.cacheSize := Nat.min_le_right _ _
      omega
    have hnew := readable_writeList hroom
    rw [hcount] at hnew
    refine (sessionConsistent_of_fillingCache (by rw [setCacheSize_state, setMem_state, hs])).2 ⟨?_, ?_⟩
    · rwa [setCacheSize_gin, setMem_gin]
    · exact readable_append (readable_after_writeList hread .icache s.cacheSize vs) (by rwa [Nat.zero_add])

/-- A block decode leaves its whole destination range written. -/
theorem runBlock_fills {codec : Codec} {o : BlockOps} {s t : State} (h : runBlock codec o s = .ok t) :
    Readable t o.dst.space o.d (6 * o.n) := by
  obtain ⟨hrefusal, packets, _, hread, rfl, rfl⟩ := runBlock_ok.1 h
  obtain ⟨-, -, -, -, hroom⟩ := blockRefusal_none.1 hrefusal
  have hlen := decodePackets_length (readPackets_width hread) s.symOrder3 s.rom (s.predictor o.ch)
  rw [(readPackets_ok.1 hread).1] at hlen
  have hfill := readable_writeList (s := s) (sp := o.dst.space) (a := o.d)
    (vs := (decodePackets codec s.symOrder3 s.rom (s.predictor o.ch) packets).2) (by omega)
  rw [hlen] at hfill
  intro j hj
  rw [setPredictor_spaceSize, setPredictor_byteAt]
  exact hfill j hj

theorem stereoFrames_fills {src : Src} {b : Nat} {dst : Dst} {d m : Nat} {s t : State}
    (h : stereoFrames src b dst d m s = .ok t) : Readable t dst.space d (12 * m) := by
  obtain ⟨_, s2, tl, tr, -, -, htl, htr, hw⟩ := stereoFrames_ok.1 h
  obtain ⟨hroom, rfl⟩ := writeBytes_ok.1 hw
  have hl := (readBytes_ok.1 htl).1
  have hr := (readBytes_ok.1 htr).1
  have hlen : (interleave tl tr).length = 12 * m := by
    rw [interleave_length_of_eq (hl.trans hr.symm), hl]
    omega
  rw [← hlen]
  exact readable_writeList hroom

/-- ProcessCache leaves a whole frame in the output cache, all of it due (R178). -/
theorem processCacheState_consistent {c : Cursor} {s : State} {r : Turn} (h : processCacheState c s = .ok r) :
    TurnConsistent r := by
  obtain ⟨t, ht, rfl⟩ := processCacheState_ok.1 h
  obtain ⟨hgout, hfill⟩ : t.gout = s.gout ∧ Readable t .ocache 0 s.gout := by
    rcases ht with ⟨hm, ht⟩ | ⟨hm, ht⟩
    · have hsize : s.gout = 6 * 1 := by rw [State.gout, hm]; rfl
      exact ⟨(monoFrames_keeps ht).kept.gout, hsize ▸ runBlock_fills (monoFrames_ok.1 ht)⟩
    · have hsize : s.gout = 12 * 1 := by rw [State.gout, hm]; rfl
      exact ⟨(stereoFrames_keeps hm ht).kept.gout, hsize ▸ stereoFrames_fills ht⟩
  refine .inl ((sessionConsistent_of_cacheFull rfl).2 ⟨gout_pos s, ?_, ?_⟩)
  · rw [setAdapter_gout, hgout, setAdapter_cacheSize]
  · rw [setAdapter_gout, hgout, setAdapter_cacheSize, Nat.sub_self]
    exact hfill

/-- CacheFull halts with the bytes still due at the end of the output cache, at least one (R179). -/
theorem cacheFullState_consistent {c : Cursor} {s : State} {r : Turn} (hs : s.state = .cacheFull)
    (hread : Readable s .ocache (s.gout - s.cacheSize) s.cacheSize) (h : cacheFullState c s = .ok r) :
    TurnConsistent r := by
  obtain ⟨hle, vs, t, -, hw, rfl⟩ := cacheFullState_ok.1 h
  obtain ⟨-, rfl⟩ := writeBytes_ok.1 hw
  split
  next => exact .inl ((sessionConsistent_of_init rfl).2 rfl)
  next hdue =>
    have hdrain : drainCount c s ≤ s.cacheSize := Nat.min_le_right _ _
    refine (sessionConsistent_of_cacheFull (by rw [setCacheSize_state, setMem_state, hs])).2 ?_
    rw [setCacheSize_gout, setMem_gout, setCacheSize_cacheSize]
    refine ⟨by omega, by omega, ?_⟩
    rw [show s.gout - (s.cacheSize - drainCount c s) = s.gout - s.cacheSize + drainCount c s by omega]
    exact readable_suffix _ hread

theorem adapterTurn_consistent {c : Cursor} {s : State} {r : Turn} (hc : BetweenTurns s)
    (h : adapterTurn c s = .ok r) : TurnConsistent r := by
  rcases hc with hc | hs
  · cases hs : s.state with
    | init =>
      simp only [adapterTurn, hs] at h
      exact initState_consistent hs ((sessionConsistent_of_init hs).1 hc) h
    | fillingCache =>
      simp only [adapterTurn, hs] at h
      exact fillingCacheState_consistent hs ((sessionConsistent_of_fillingCache hs).1 hc).2 h
    | processCache => exact absurd hc (not_sessionConsistent_of_processCache hs)
    | cacheFull =>
      simp only [adapterTurn, hs] at h
      obtain ⟨-, -, hread⟩ := (sessionConsistent_of_cacheFull hs).1 hc
      exact cacheFullState_consistent hs hread h
  · simp only [adapterTurn, hs] at h
    exact processCacheState_consistent h

theorem adapterLoop_consistent {k : Nat} {c d : Cursor} {s t : State} (hc : BetweenTurns s)
    (h : adapterLoop k c s = .ok (t, d)) : SessionConsistent t := by
  induction k generalizing c s with
  | zero => cases h
  | succ k ih =>
    rcases adapterLoop_ok.1 h with hhalt | ⟨u, e, hgo, hrest⟩
    · exact adapterTurn_consistent hc hhalt
    · exact ih (adapterTurn_consistent hc hgo) hrest

theorem runProcess_consistent {s t : State} (h : runProcess s = .ok t) (hc : SessionConsistent s) :
    SessionConsistent t := by
  obtain ⟨u, c, hloop, rfl⟩ := runProcess_ok.1 h
  rw [sessionConsistent_report]
  exact adapterLoop_consistent (.inl hc) hloop

/-! ### Every step -/

theorem exec_consistent {i : Instr} {s t : State} (h : exec i s = .next t) (hc : SessionConsistent s) :
    SessionConsistent t := by
  cases i with
  | pkt6 a b c o => exact runPacket_consistent rfl (outcome_next.1 h) hc
  | pkt3 a b c d e f o => exact runPacket_consistent rfl (outcome_next.1 h) hc
  | step3 code ch => exact runSymbol_consistent (outcome_next.1 h) hc
  | step2 code ch => exact runSymbol_consistent (outcome_next.1 h) hc
  | block6 o => exact runBlock_consistent (outcome_next.1 h) hc
  | block3 o => exact runBlock_consistent (outcome_next.1 h) hc
  | nop =>
    obtain ⟨-, rfl⟩ := execNop_next.1 h
    exact hc
  | reset =>
    obtain ⟨-, chs, -, rfl⟩ := execReset_next.1 h
    exact sessionConsistent_resetSession _ chs s
  | process =>
    obtain ⟨-, -, -, hrun⟩ := execProcess_next.1 h
    exact runProcess_consistent hrun hc
  | totals =>
    obtain ⟨-, -, rfl⟩ := execTotals_next.1 h
    exact hc

/-- Every step that completes keeps the session consistent (R29 to R32). -/
theorem step_consistent {s t : State} (h : step s = .next t) (hc : SessionConsistent s) : SessionConsistent t := by
  unfold step at h
  split at h
  next => exact exec_consistent h hc
  next tr rest _ =>
    split at h
    next => exact exec_consistent h ((sessionConsistent_issue s tr rest).2 hc)
    next => cases h

theorem steps_consistent {s t : State} (h : Relation.ReflTransGen (fun a b : State => step a = .next b) s t)
    (hc : SessionConsistent s) : SessionConsistent t := by
  induction h with
  | refl => exact hc
  | tail _ hstep ih => exact step_consistent hstep ih

/-- A consistent session stands at a place in a stream, and PROCESS completes from there (R186). -/
theorem process_completes {s : State} (hc : SessionConsistent s) (ha : ProcessAllowed s) :
    ∃ t, exec .process s = .next t := by
  have ⟨_, _, _, hinput⟩ := ha
  obtain ⟨_, _, hplace⟩ := inStream_of_consistent hc hinput
  obtain ⟨u, d, hexec, -⟩ := process_runs ha hplace
  exact ⟨report u d, hexec⟩

/-- Settles O45: whatever the steps were, the session they leave is consistent. -/
theorem sessionIsReusableIndefinitely : Obligations.SessionIsReusableIndefinitely := by
  intro s t hc hsteps hallowed
  exact process_completes (steps_consistent hsteps hc) hallowed

end Sys2Proof.Proofs

/-! PROOFS. R80 to R91: the word an operation is encoded as decodes to that operation. A packet's bytes are joined and
split again, a symbol's code stands in the low bits of its byte, a command's byte is its code. -/

namespace Sys2Proof.Proofs

open Sys2Proof Sys2Proof.Laws

@[simp] theorem decode_symbol3_zeroExtend (code : BitVec 3) (ch : Chan) :
    decode (.symbol3 [code.zeroExtend 8] ch) = .ok (.step3 code ch) := by
  rw [decode, codeOfWord_zeroExtend (by decide)]

@[simp] theorem decode_symbol2_zeroExtend (code : BitVec 2) (ch : Chan) :
    decode (.symbol2 [code.zeroExtend 8] ch) = .ok (.step2 code ch) := by
  rw [decode, codeOfWord_zeroExtend (by decide)]

/-- Settles O1: one case per operation; only the packets and the symbols carry a code, the rest compute. -/
theorem decodeOfEncodeIsTheOperation : Obligations.DecodeOfEncodeIsTheOperation := by
  intro i
  cases i with
  | pkt6 a b c o => rw [encode, decode_packet6_singleton, splitByte_joinByte]
  | pkt3 a b c d e f o => rw [encode, decode_packet3_pair, splitByte_joinByte, splitByte_joinByte]
  | step3 code ch => exact decode_symbol3_zeroExtend code ch
  | step2 code ch => exact decode_symbol2_zeroExtend code ch
  | block6 o => rfl
  | block3 o => rfl
  | nop => rfl
  | reset => rfl
  | process => rfl
  | totals => rfl

/-- Settles O3: each word is closed, and the operands are handed through. -/
theorem specWordsDecode : Obligations.SpecWordsDecode :=
  ⟨fun _ => rfl, fun _ => rfl, fun _ => rfl, fun _ => rfl, fun _ => rfl, rfl, rfl, rfl, rfl, rfl, fun _ => rfl⟩

end Sys2Proof.Proofs

/-! PROOFS. R149 to R158: the block decodes. Where the two complete, that one is its first packets and then the rest,
what it changes, and that it reads nothing but its channel; every fact but the offsets holds for both codecs. -/

namespace Sys2Proof.Proofs

open Sys2Proof Sys2Proof.Machine Sys2Proof.Safety Sys2Proof.Laws

/-! ### Within the contract -/

theorem packetOffset_mace3 (o : BlockOps) (p : Nat) : packetOffset .mace3 o.b o.cc o.ci p = offset3 o p := rfl

/-- Within its contract a BLOCK3 completes (R149). -/
theorem runBlock_of_block3Contract {o : BlockOps} {s : State} (h : Block3Contract o s) :
    ∃ t, runBlock .mace3 o s = .ok t := by
  obtain ⟨h1, hcc, hnum, hch, hroom, hread⟩ := h
  obtain ⟨packets, hp⟩ := readPackets_total (codec := .mace3) (o := o) (s := s) (p := 0) (n := o.n) fun q hq => by
    rw [Nat.zero_add, packetOffset_mace3]
    exact readBytes_total (hread q hq)
  exact ⟨_, runBlock_ok_iff.2 ⟨⟨h1, hcc⟩, hnum, hch, hroom, packets, _, hp, rfl, rfl⟩⟩

/-- Settles O17. -/
theorem blocksComplete : Obligations.BlocksComplete :=
  ⟨fun _ _ hc => (runBlock_of_block6Contract hc).imp fun _ => outcome_next.2,
    fun _ _ hc => (runBlock_of_block3Contract hc).imp fun _ => outcome_next.2⟩

/-! ### Parts of a block decode -/

theorem afterPackets_mace6 (o : BlockOps) (m n : Nat) :
    afterPackets .mace6 o m n = { o with n := n, b := o.b + m * o.cc, d := o.d + 6 * m } := by
  simp only [afterPackets, packetBytes, Nat.one_mul]

theorem afterPackets_mace3 (o : BlockOps) (m n : Nat) :
    afterPackets .mace3 o m n = { o with n := n, b := o.b + 2 * (m * o.cc), d := o.d + 6 * m } := rfl

/-- A block decode that completes equals the rest of it from the state its first packets leave (R156). -/
theorem runBlock_concat {codec : Codec} {o : BlockOps} {s : State} {m n : Nat}
    (h : ∃ u, runBlock codec { o with n := m + n } s = .ok u) :
    ∃ t, runBlock codec { o with n := m } s = .ok t ∧
      runBlock codec { o with n := m + n } s = runBlock codec (afterPackets codec o m n) t := by
  obtain ⟨u, hu⟩ := h
  obtain ⟨t, hfirst, hrest⟩ := runBlock_add hu
  exact ⟨t, hfirst, hu.trans hrest.symm⟩

/-- Settles O21: within the contract the whole block decode completes, so it splits. -/
theorem blockConcatenation : Obligations.BlockConcatenation := by
  refine ⟨fun s o n1 n2 hc => ?_, fun s o n1 n2 hc => ?_⟩
  · obtain ⟨t, hfirst, hrest⟩ := runBlock_concat (runBlock_of_block6Contract hc)
    rw [afterPackets_mace6] at hrest
    exact ⟨t, outcome_next.2 hfirst, congrArg outcome hrest⟩
  · obtain ⟨t, hfirst, hrest⟩ := runBlock_concat (runBlock_of_block3Contract hc)
    rw [afterPackets_mace3] at hrest
    exact ⟨t, outcome_next.2 hfirst, congrArg outcome hrest⟩

/-- The first packet of a BLOCK3 within its contract is the two adjacent bytes at the channel's offset (R56). -/
theorem readBytes_firstPacket3 {o : BlockOps} {s : State} {n : Nat} {x y : Byte}
    (hc : Block3Contract { o with n := n + 1 } s) (hx : s.byteAt o.src.space (o.b + 2 * (o.ci - 1)) = some x)
    (hy : s.byteAt o.src.space (o.b + 2 * (o.ci - 1) + 1) = some y) :
    readBytes s o.src.space (packetOffset .mace3 o.b o.cc o.ci 0) (packetBytes .mace3) = .ok [x, y] := by
  obtain ⟨-, -, -, -, -, hread⟩ := hc
  have hread0 : Readable s o.src.space (offset3 o 0) 2 := hread 0 n.succ_pos
  have h0 : offset3 o 0 = o.b + 2 * (o.ci - 1) := by rw [offset3, Nat.zero_mul, Nat.add_zero]
  rw [packetOffset_mace3, h0]
  rw [h0] at hread0
  refine readBytes_ok.2 ⟨rfl, fun j hj => ⟨(hread0 j hj).1, ?_⟩⟩
  match j, hj with
  | 0, _ => exact hx
  | 1, _ => exact hy

/-- Settles O19: a BLOCK3 within its contract completes, so its first packet can be taken off it. -/
theorem block3IsPkt3ThenTheRest : Obligations.Block3IsPkt3ThenTheRest := by
  intro s o n x y hc hx hy
  obtain ⟨u, hu⟩ := runBlock_of_block3Contract hc
  obtain ⟨t, s1, s2, hpkt, hresp, hrest⟩ := runBlock_succ hu (readBytes_firstPacket3 hc hx hy)
  rw [afterPackets_mace3, Nat.one_mul, Nat.mul_one] at hrest
  refine ⟨t, splitByte x, splitByte y, [], s1, s2, decodePacket3_cons_cons x y [], ?_, hresp, ?_⟩
  · rw [← joinByte_splitByte x, ← joinByte_splitByte y] at hpkt
    exact outcome_next.2 hpkt
  · exact (outcome_next.2 hu).trans (outcome_next.2 hrest).symm

/-- A block decode of no packets, of its channel's operands, answers the same state (R155). -/
theorem runBlock_of_noPackets (codec : Codec) {o : BlockOps} {s : State} (h0 : o.n = 0) (h1 : 1 ≤ o.ci)
    (hcc : o.ci ≤ o.cc) (hnum : o.ch.number = o.ci) (hch : s.hasChannel o.ch = true) :
    runBlock codec o s = .ok s := by
  refine runBlock_ok_iff.2 ⟨⟨h1, hcc⟩, hnum, hch, .inl h0, [], _, by rw [h0]; rfl, rfl, ?_⟩
  rw [decodePackets_nil, writeList_nil, setMem_self, setPredictor_self]

/-- Settles O20. -/
theorem blockOfNoPacketsChangesNothing : Obligations.BlockOfNoPacketsChangesNothing :=
  fun _ _ h0 h1 hcc hnum hch =>
    ⟨outcome_next.2 (runBlock_of_noPackets .mace6 h0 h1 hcc hnum hch),
      outcome_next.2 (runBlock_of_noPackets .mace3 h0 h1 hcc hnum hch)⟩

/-! ### What a block decode writes -/

/-- A completed block decode leaves its packets' output in its `6n` destination bytes, every other byte as it was, and its
channel's Predictor State as the packets leave it (R154). -/
theorem runBlock_result {codec : Codec} {o : BlockOps} {s t : State} (h : runBlock codec o s = .ok t) :
    ∃ packets r, readPackets codec o s 0 o.n = .ok packets ∧
      r = decodePackets codec s.symOrder3 s.rom (s.predictor o.ch) packets ∧ r.2.length = 6 * o.n ∧
      t.predictor o.ch = r.1 ∧
      ∀ sp a, t.byteAt sp a =
        if sp = o.dst.space ∧ o.d ≤ a ∧ a < o.d + 6 * o.n then r.2[a - o.d]? else s.byteAt sp a := by
  obtain ⟨-, packets, r, hread, hr, rfl⟩ := runBlock_ok.1 h
  have hlen : r.2.length = 6 * o.n := by
    rw [hr, decodePackets_length (readPackets_width hread), (readPackets_ok.1 hread).1]
  refine ⟨packets, r, hread, hr, hlen, setPredictor_predictor_same .., fun sp a => ?_⟩
  rw [setPredictor_byteAt, byteAt_setMem_writeList, hlen]

theorem other_ne (ch : Chan) : other ch ≠ ch := by cases ch <;> decide

/-- What a completed block decode leaves alone (R154). -/
theorem runBlock_frame {codec : Codec} {o : BlockOps} {s t : State} (h : runBlock codec o s = .ok t) :
    t.predictor (other o.ch) = s.predictor (other o.ch) ∧ SameBytesOutside s t o.dst.space o.d (6 * o.n) ∧
    (∀ k < 6 * o.n, (t.byteAt o.dst.space (o.d + k)).isSome = true) ∧
    t.response = s.response ∧ SameSession s t ∧ SameSetting s t := by
  obtain ⟨⟨hsetting, hsession, hresponse⟩, -, hpredictor⟩ := runBlock_keeps h
  obtain ⟨_, _, -, -, -, -, hbytes⟩ := runBlock_result h
  refine ⟨hpredictor _ (other_ne _), fun sp a hout => ?_, fun k hk => (runBlock_fills h k hk).2, hresponse, hsession,
    hsetting⟩
  rw [hbytes, if_neg hout]

/-- Settles O22. -/
theorem blockFrame : Obligations.BlockFrame := by
  rintro s t o i (rfl | rfl) h
  · exact runBlock_frame (outcome_next.1 h)
  · exact runBlock_frame (outcome_next.1 h)

/-! ### What a block decode reads -/

/-- Two reads that answer give the same bytes where the bytes are the same, whatever the sizes of the two spaces. -/
theorem readBytes_unique {s s' : State} {sp : SpaceName} {a n : Nat} {vs vs' : List Byte}
    (h : readBytes s sp a n = .ok vs) (h' : readBytes s' sp a n = .ok vs')
    (hb : ∀ j < n, s'.byteAt sp (a + j) = s.byteAt sp (a + j)) : vs' = vs := by
  obtain ⟨hl, hj⟩ := readBytes_ok.1 h
  obtain ⟨hl', hj'⟩ := readBytes_ok.1 h'
  refine List.ext_getElem? fun j => ?_
  by_cases hlt : j < n
  · rw [← (hj j hlt).2, ← (hj' j hlt).2, hb j hlt]
  · rw [List.getElem?_eq_none (by omega), List.getElem?_eq_none (by omega)]

/-- Two block decodes that answer read the same packets where their channel's bytes are the same. -/
theorem readPackets_unique {codec : Codec} {o : BlockOps} {s s' : State} {n : Nat} {xs xs' : List (List Byte)}
    (h : readPackets codec o s 0 n = .ok xs) (h' : readPackets codec o s' 0 n = .ok xs')
    (hb : ∀ p < n, ∀ j < packetBytes codec,
      s'.byteAt o.src.space (packetOffset codec o.b o.cc o.ci p + j) =
        s.byteAt o.src.space (packetOffset codec o.b o.cc o.ci p + j)) : xs' = xs := by
  obtain ⟨hl, hq⟩ := readPackets_ok.1 h
  obtain ⟨hl', hq'⟩ := readPackets_ok.1 h'
  refine List.ext_getElem? fun p => ?_
  by_cases hlt : p < n
  · obtain ⟨x, hx, hread⟩ := hq p hlt
    obtain ⟨x', hx', hread'⟩ := hq' p hlt
    rw [Nat.zero_add] at hread hread'
    rw [hx, hx', readBytes_unique hread hread' (hb p hlt)]
  · rw [List.getElem?_eq_none (by omega), List.getElem?_eq_none (by omega)]

/-- A block decode depends on nothing but the tables, the symbol order, its channel's Predictor State and its channel's
bytes (R157). -/
theorem runBlock_noninterference {codec : Codec} {o : BlockOps} {s s' t t' : State}
    (h : runBlock codec o s = .ok t) (h' : runBlock codec o s' = .ok t') (hrom : s'.rom = s.rom)
    (horder : ∀ x, orderedSymbols codec s'.symOrder3 x = orderedSymbols codec s.symOrder3 x)
    (hps : s'.predictor o.ch = s.predictor o.ch)
    (hb : ∀ p < o.n, ∀ j < packetBytes codec,
      s'.byteAt o.src.space (packetOffset codec o.b o.cc o.ci p + j) =
        s.byteAt o.src.space (packetOffset codec o.b o.cc o.ci p + j)) :
    t'.predictor o.ch = t.predictor o.ch ∧
      ∀ k < 6 * o.n, t'.byteAt o.dst.space (o.d + k) = t.byteAt o.dst.space (o.d + k) := by
  obtain ⟨packets, r, hread, hr, -, hpred, hbytes⟩ := runBlock_result h
  obtain ⟨packets', r', hread', hr', -, hpred', hbytes'⟩ := runBlock_result h'
  have hdecode : ∀ ps, decodePackets codec s'.symOrder3 s.rom ps = decodePackets codec s.symOrder3 s.rom ps := by
    have hpacket : packet codec s'.symOrder3 s.rom = packet codec s.symOrder3 s.rom := by
      funext w bytes
      rw [packet, packet, funext horder]
    intro ps
    funext xs
    rw [decodePackets, decodePackets, hpacket]
  obtain rfl : r' = r := by
    rw [hr, hr', hrom, hps, hdecode, readPackets_unique hread hread' hb]
  refine ⟨hpred'.trans hpred.symm, fun k hk => ?_⟩
  rw [hbytes, hbytes', if_pos ⟨rfl, by omega, by omega⟩, if_pos ⟨rfl, by omega, by omega⟩]

/-- Settles O23: MACE6 takes no symbol order; a packet of MACE3 is the two bytes the statement names. -/
theorem blockReadsOnlyItsChannel : Obligations.BlockReadsOnlyItsChannel := by
  refine ⟨fun s s' t t' o h h' hrom hps hb => ?_, fun s s' t t' o h h' hrom horder hps hb => ?_⟩
  · refine runBlock_noninterference (outcome_next.1 h) (outcome_next.1 h') hrom (fun _ => rfl) hps fun p hp j hj => ?_
    obtain rfl : j = 0 := Nat.lt_one_iff.1 hj
    rw [packetOffset_mace6]
    exact hb p hp
  · refine runBlock_noninterference (outcome_next.1 h) (outcome_next.1 h') hrom (fun _ => by rw [horder]) hps
      fun p hp j hj => ?_
    rw [packetOffset_mace3]
    match j, hj with
    | 0, _ => exact (hb p hp).1
    | 1, _ => exact (hb p hp).2

end Sys2Proof.Proofs

/-! PROOFS. R149, R224 and R26: what a block decode outside its contract and a datapath operation on PS[2] in a mono
session are refused by. -/

namespace Sys2Proof.Proofs

open Sys2Proof Sys2Proof.Machine Sys2Proof.Safety Sys2Proof.Laws

/-! ### The checks of a block decode, in their order -/

theorem runBlock_refused {codec : Codec} {o : BlockOps} {s : State} {r : Refusal}
    (h : blockRefusal codec o s = some r) : outcome (runBlock codec o s) = .refused r := by
  rw [outcome_refused, runBlock, h]

theorem blockRefusal_channelIndex (codec : Codec) {o : BlockOps} (s : State) (h : ¬ (1 ≤ o.ci ∧ o.ci ≤ o.cc)) :
    blockRefusal codec o s = some (.channelIndexOutOfRange o.cc o.ci) := by
  rw [blockRefusal, if_pos h]

section Channel
variable (codec : Codec) {o : BlockOps} {s : State} (hci : 1 ≤ o.ci ∧ o.ci ≤ o.cc)
include hci

theorem blockRefusal_predictor (hnum : o.ch.number ≠ o.ci) :
    blockRefusal codec o s = some (.predictorOfAnotherChannel o.ch o.ci) := by
  rw [blockRefusal, if_neg (not_not_intro hci), if_pos hnum]

variable (hnum : o.ch.number = o.ci)
include hnum

theorem blockRefusal_mono (hch : s.hasChannel o.ch = false) :
    blockRefusal codec o s = some .rightChannelWhenMono := by
  rw [blockRefusal, if_neg (not_not_intro hci), if_neg (not_not_intro hnum), if_pos hch]

variable (hch : s.hasChannel o.ch = true)
include hch

theorem blockRefusal_source (hsrc : s.spaceSize o.src.space < sourceEnd codec o.b o.cc o.ci o.n) :
    blockRefusal codec o s = some .sourceTooShort := by
  rw [blockRefusal, if_neg (not_not_intro hci), if_neg (not_not_intro hnum), if_neg (by simp [hch]), if_pos hsrc]

theorem blockRefusal_destination (hsrc : sourceEnd codec o.b o.cc o.ci o.n ≤ s.spaceSize o.src.space) (h0 : o.n ≠ 0)
    (hdst : s.spaceSize o.dst.space < o.d + 6 * o.n) : blockRefusal codec o s = some .destinationTooShort := by
  rw [blockRefusal, if_neg (not_not_intro hci), if_neg (not_not_intro hnum), if_neg (by simp [hch]),
    if_neg (Nat.not_lt.2 hsrc), if_pos ⟨h0, hdst⟩]

end Channel

/-- The source ends one byte after the last packet's offset (R55). -/
theorem sourceEnd_mace6 {o : BlockOps} (h0 : o.n ≠ 0) :
    sourceEnd .mace6 o.b o.cc o.ci o.n = offset6 o (o.n - 1) + 1 := by
  rw [sourceEnd, if_neg h0, packetOffset_mace6, packetBytes]

/-- The source ends two bytes after the last packet's offset (R56). -/
theorem sourceEnd_mace3 {o : BlockOps} (h0 : o.n ≠ 0) :
    sourceEnd .mace3 o.b o.cc o.ci o.n = offset3 o (o.n - 1) + 2 := by
  rw [sourceEnd, if_neg h0, packetBytes]
  rfl

/-! ### PS[2] in a mono session -/

section Mono
variable {s : State} {ch : Chan} (hch : s.hasChannel ch = false)
include hch

theorem runSymbol_refused (f : Predictor → Predictor × I32) :
    outcome (runSymbol f ch s) = .refused .rightChannelWhenMono := by
  rw [outcome_refused, runSymbol, if_neg (by simp [hch])]

theorem runPacket_refused (codec : Codec) (bytes : List Byte) {o : PktOps} (ho : o.ch = ch) :
    outcome (runPacket codec bytes o s) = .refused .rightChannelWhenMono := by
  rw [outcome_refused, runPacket, if_neg (by simp [ho, hch])]

end Mono

/-- Settles O24: one clause per check; the checks before it are met. -/
theorem outsideTheContractIsRefused : Obligations.OutsideTheContractIsRefused := by
  refine ⟨fun s o h => ?_, fun s o h1 hcc hnum => ?_, fun s o h1 hcc hnum hch h0 => ?_, fun s hm => ?_⟩
  · exact ⟨runBlock_refused (blockRefusal_channelIndex _ s h), runBlock_refused (blockRefusal_channelIndex _ s h)⟩
  · exact ⟨runBlock_refused (blockRefusal_predictor _ ⟨h1, hcc⟩ hnum),
      runBlock_refused (blockRefusal_predictor _ ⟨h1, hcc⟩ hnum)⟩
  · have end6 := sourceEnd_mace6 h0
    have end3 := sourceEnd_mace3 h0
    refine ⟨fun hs => ?_, fun hs => ?_, fun hs hd => ?_, fun hs hd => ?_⟩
    · exact runBlock_refused (blockRefusal_source _ ⟨h1, hcc⟩ hnum hch (by omega))
    · exact runBlock_refused (blockRefusal_source _ ⟨h1, hcc⟩ hnum hch (by omega))
    · exact runBlock_refused (blockRefusal_destination _ ⟨h1, hcc⟩ hnum hch (by omega) h0 hd)
    · exact runBlock_refused (blockRefusal_destination _ ⟨h1, hcc⟩ hnum hch (by omega) h0 hd)
  · have hright := hasChannel_right_of_mono hm
    refine ⟨fun _ => runSymbol_refused hright _, fun _ => runSymbol_refused hright _,
      fun _ _ _ _ ho => runPacket_refused hright _ _ ho, fun _ _ _ _ _ _ _ ho => runPacket_refused hright _ _ ho,
      fun q hq hci hcc => ?_⟩
    have hrange : 1 ≤ q.ci ∧ q.ci ≤ q.cc := by omega
    have hnum : q.ch.number = q.ci := by rw [hq, hci]; rfl
    have hch : s.hasChannel q.ch = false := by rw [hq, hright]
    exact ⟨runBlock_refused (blockRefusal_mono _ hrange hnum hch),
      runBlock_refused (blockRefusal_mono _ hrange hnum hch)⟩

end Sys2Proof.Proofs

/-! PROOFS. R84, R115, R123 to R125 and R140 to R142: the table index, the direction test, the ranges after a step and the
output stage, in exact integers. -/

namespace Sys2Proof.Proofs

open Sys2Proof Sys2Proof.Machine Sys2Proof.Safety Sys2Proof.Laws

/-- Settles O10. -/
theorem tableIndexAssembly : Obligations.TableIndexAssembly :=
  ⟨fun prev code => ⟨toNat_bigIndex3 prev code, Nat.le_of_lt_succ (bigIndex3_lt prev code)⟩,
    fun prev code => ⟨toNat_bigIndex2 prev code, Nat.le_of_lt_succ (bigIndex2_lt prev code)⟩⟩

/-- Within 16 bits, bit 15 is the sign. -/
theorem bit15_eq_neg {x : Int} (hlo : -32768 ≤ x) (hhi : x ≤ 32767) : bit15 x = decide (x < 0) := by
  rw [bit15, decide_eq_decide]
  omega

/-- Settles O11: the direction changes where the two bits 15, which are the two signs, differ. -/
theorem directionIsTheSignWithinSixteenBits : Obligations.DirectionIsTheSignWithinSixteenBits := by
  intro delta last hd1 hd2 hl1 hl2
  rw [directionChanged_iff, bit15_eq_neg hd1 hd2, bit15_eq_neg hl1 hl2, ne_eq, decide_eq_decide]
  omega

/-! ### Ranges after a step (R123, R125) -/

/-- The table index after a step is not negative, and it does not pass 1048575 when it was within the range. -/
theorem nextIndex_range (prev : I32) (small : I16) :
    0 ≤ (smax (prev + sext small - asr prev 5) 0).toInt ∧
      (0 ≤ prev.toInt ∧ prev.toInt ≤ 1048575 → (smax (prev + sext small - asr prev 5) 0).toInt ≤ 1048575) := by
  rw [toInt_nextIndex]
  refine ⟨le_max_left _ _, fun ⟨hlo, hhi⟩ => ?_⟩
  have hs1 := BitVec.le_toInt small
  have hs2 := BitVec.toInt_lt (x := small)
  norm_num at hs1 hs2
  rw [wrap_of_range (by omega) (by omega)]
  omega

/-- The slope after a step stays within plus or minus 0x7FFF (R124). -/
theorem nextSlope_within (changed : Bool) {slope : I32} (h : Within15 slope) : Within15 (nextSlope changed slope) := by
  obtain ⟨hlo, hhi⟩ := h
  rw [Within15, toInt_nextSlope]
  split
  · rw [wrap_of_range (by omega) (by omega)]; omega
  · rw [wrap_of_range (by omega) (by omega)]; omega

/-- The amplitude after a step is the decayed square of a value in range (R123). -/
theorem amplitude_range {r : I32} (h : Within15 r) : 0 ≤ (asr (r * r) 15).toInt ∧ (asr (r * r) 15).toInt ≤ 32766 := by
  rw [toInt_amplitude h]
  obtain ⟨hlo, hhi⟩ := h
  have hsq : r.toInt * r.toInt ≤ 32767 * 32767 := by nlinarith
  have hpos : 0 ≤ r.toInt * r.toInt := mul_self_nonneg _
  omega

/-- What holds of the Predictor State after any step (R123, R125). -/
theorem stepSymbol_ranges (t : Tables) (sym : Symbol) (ps : Predictor) :
    0 ≤ (stepSymbol t sym ps).1.tableIndex.toInt ∧ Within15 (stepSymbol t sym ps).1.lastStep ∧
    0 ≤ (stepSymbol t sym ps).1.lastAmplitude.toInt ∧ (stepSymbol t sym ps).1.lastAmplitude.toInt ≤ 32766 ∧
    (Within15 ps.lastSlope → Within15 (stepSymbol t sym ps).1.lastSlope) ∧
    (0 ≤ ps.tableIndex.toInt ∧ ps.tableIndex.toInt ≤ 1048575 →
      (stepSymbol t sym ps).1.tableIndex.toInt ≤ 1048575) := by
  obtain ⟨reply, hstep⟩ := stepSymbol_eq t sym ps
  rw [hstep]
  have hwithin := coefficientStep_within reply ps
  obtain ⟨hindex, hindex'⟩ := nextIndex_range ps.tableIndex reply.2
  obtain ⟨hamp, hamp'⟩ := amplitude_range hwithin
  exact ⟨hindex, hwithin, hamp, hamp', fun h => nextSlope_within _ h, hindex'⟩

theorem runSymbol_predictor {sym : Symbol} {ch : Chan} {s t : State}
    (h : runSymbol (stepSymbol s.rom sym) ch s = .ok t) :
    t.predictor ch = (stepSymbol s.rom sym (s.predictor ch)).1 := by
  obtain ⟨-, rfl⟩ := runSymbol_ok.1 h
  rw [respond_predictor, setPredictor_predictor_same]

/-- Settles O9: either operation is the symbol operation of its code's width. -/
theorem invariantsAfterAnyStep : Obligations.InvariantsAfterAnyStep := by
  rintro s t ch i (⟨code, rfl⟩ | ⟨code, rfl⟩) h
  · rw [runSymbol_predictor (sym := .three code) (outcome_next.1 h)]
    exact stepSymbol_ranges ..
  · rw [runSymbol_predictor (sym := .two code) (outcome_next.1 h)]
    exact stepSymbol_ranges ..

/-! ### The output stage -/

/-- Settles O12: in range, the offset top byte needs no reduction. -/
theorem pcmByteIsTheOffsetTopByte : Obligations.PcmByteIsTheOffsetTopByte := by
  rintro v ⟨hlo, hhi⟩
  rw [toNat_pcm, pcmInt]
  omega

/-- The term of a mix that is tripled before its shift (R141, R142). -/
theorem toInt_tripled (v : I32) : (asr (v * 3#32) 3).toInt = wrap (v.toInt * 3) / 8 := by
  rw [toInt_asr, toInt_mul']
  rfl

/-- The shifted terms of a mix are small enough for their sum not to wrap. -/
theorem toInt_mixTerms {x y z : I32} (hx : -268435456 ≤ x.toInt ∧ x.toInt ≤ 268435455)
    (hy : -268435456 ≤ y.toInt ∧ y.toInt ≤ 268435455) (hz : -1073741824 ≤ z.toInt ∧ z.toInt ≤ 1073741823) :
    (x + y + z).toInt = x.toInt + y.toInt + z.toInt := by
  rw [toInt_add', toInt_add', wrap_of_range (x := x.toInt + y.toInt) (by omega) (by omega),
    wrap_of_range (by omega) (by omega)]

theorem asr_three_range (v : I32) : -268435456 ≤ (asr v 3).toInt ∧ (asr v 3).toInt ≤ 268435455 := by
  have := toInt_range v
  rw [toInt_asr]
  omega

theorem asr_one_range (v : I32) : -1073741824 ≤ (asr v 1).toInt ∧ (asr v 1).toInt ≤ 1073741823 := by
  have := toInt_range v
  rw [toInt_asr]
  omega

/-- The first unclamped sum in exact integers (R141). -/
theorem toInt_mixSum0 (n s1 s2 : I32) :
    (mixSum0 n s1 s2).toInt = n.toInt / 8 + wrap (s2.toInt * 3) / 8 + s1.toInt / 2 := by
  rw [mixSum0, toInt_mixTerms (asr_three_range _) (asr_three_range _) (asr_one_range _), toInt_tripled, toInt_asr,
    toInt_asr]
  rfl

/-- The second unclamped sum in exact integers (R142). -/
theorem toInt_mixSum1 (n s1 s2 : I32) :
    (mixSum1 n s1 s2).toInt = wrap (n.toInt * 3) / 8 + s2.toInt / 8 + s1.toInt / 2 := by
  rw [mixSum1, toInt_mixTerms (asr_three_range _) (asr_three_range _) (asr_one_range _), toInt_tripled, toInt_asr,
    toInt_asr]
  rfl

/-- The clamp's one change below 32768, of -32768 to -32767, does not reach the top byte. -/
theorem pcm_clamp {v : I32} (hlo : -32768 ≤ v.toInt) (hhi : v.toInt ≤ 32767) : pcm (clamp v) = pcm v := by
  apply BitVec.eq_of_toNat_eq
  have h1 := toNat_pcm (clamp v)
  have h2 := toNat_pcm v
  rw [toInt_clamp, clampInt, pcmInt] at h1
  rw [pcmInt] at h2
  omega

/-- Settles O13: with operands in range nothing wraps, and the largest sum is 4095 + 12287 + 16383. -/
theorem mixClampNeverChangesAByte : Obligations.MixClampNeverChangesAByte := by
  rintro n s1 s2 ⟨hn1, hn2⟩ ⟨ha1, ha2⟩ ⟨hb1, hb2⟩
  have h0 : -32768 ≤ (mixSum0 n s1 s2).toInt ∧ (mixSum0 n s1 s2).toInt ≤ 32765 := by
    rw [toInt_mixSum0, wrap_of_range (by omega) (by omega)]
    omega
  have h1 : -32768 ≤ (mixSum1 n s1 s2).toInt ∧ (mixSum1 n s1 s2).toInt ≤ 32765 := by
    rw [toInt_mixSum1, wrap_of_range (by omega) (by omega)]
    omega
  exact ⟨h0, h1, pcm_clamp h0.1 (by omega), pcm_clamp h1.1 (by omega)⟩

end Sys2Proof.Proofs

/-! PROOFS. R145 and R148: a packet operation is its symbols in order; its bytes are theirs, its Predictor State is the
one the last symbol leaves, and the pair it hands back is the last working pair. -/

namespace Sys2Proof.Proofs

open Sys2Proof Sys2Proof.Machine Sys2Proof.Safety Sys2Proof.Laws

/-! ### The symbols of a packet -/

/-- A MACE6 packet is its three fields in order (R80). -/
theorem packet_mace6 (order : SymOrder) (t : Tables) (w : Working) (a : BitVec 3) (b : BitVec 2) (c : BitVec 3) :
    packet .mace6 order t w [joinByte ⟨a, b, c⟩] = runAll (mace6Symbol t) w [.three a, .two b, .three c] := by
  simp only [packet, codecSymbol, List.flatMap_cons, List.flatMap_nil, List.append_nil, orderedSymbols, byteSymbols,
    splitByte_joinByte]

/-- The three symbols of a MACE3 byte in the order the parameter gives (R82). -/
theorem orderedSymbols_mace3 (order : SymOrder) (a : BitVec 3) (b : BitVec 2) (c : BitVec 3) :
    orderedSymbols .mace3 order (joinByte ⟨a, b, c⟩) =
      [.three (if order = .msbFirst then a else c), .two b, .three (if order = .msbFirst then c else a)] := by
  cases order with
  | msbFirst => simp only [orderedSymbols, byteSymbols, splitByte_joinByte, if_true]
  | lsbFirst => simp [orderedSymbols, byteSymbols, splitByte_joinByte]

/-- A MACE3 packet is the symbols of its first byte and then those of its second (R81). -/
theorem packet_mace3 (order : SymOrder) (t : Tables) (w : Working) (a : BitVec 3) (b : BitVec 2) (c d : BitVec 3)
    (e : BitVec 2) (f : BitVec 3) :
    packet .mace3 order t w [joinByte ⟨a, b, c⟩, joinByte ⟨d, e, f⟩] =
      runAll (mace3Symbol t) w
        [.three (if order = .msbFirst then a else c), .two b, .three (if order = .msbFirst then c else a),
          .three (if order = .msbFirst then d else f), .two e, .three (if order = .msbFirst then f else d)] := by
  simp only [packet, codecSymbol, List.flatMap_cons, List.flatMap_nil, List.append_nil, orderedSymbols_mace3,
    List.cons_append, List.nil_append]

theorem toNat_pcm_mix0 (n s1 s2 : I32) : ((pcm (mix0 n s1 s2)).toNat : Int) = byte0Int n.toInt s1.toInt s2.toInt := by
  rw [toNat_pcm, mix0, toInt_clamp, toInt_mixSum0, byte0Int]

theorem toNat_pcm_mix1 (n s1 s2 : I32) : ((pcm (mix1 n s1 s2)).toNat : Int) = byte1Int n.toInt s1.toInt s2.toInt := by
  rw [toNat_pcm, mix1, toInt_clamp, toInt_mixSum1, byte1Int]

theorem symbolRelation_of_step {t : Tables} {sym : Symbol} {p q : Predictor} {n : I32}
    (h : stepSymbol t sym p = (q, n)) : SymbolRelation t sym p q n := by
  have hrel := stepSymbol_relation t sym p
  rwa [h] at hrel

theorem mace6Symbol_of_step {t : Tables} {sym : Symbol} {p q : Predictor} {n : I32} (s1 s2 : I32)
    (h : stepSymbol t sym p = (q, n)) :
    mace6Symbol t ⟨p, s1, s2⟩ sym = (⟨q, n, s1⟩, [pcm (mix0 n s1 s2), pcm (mix1 n s1 s2)]) := by
  simp only [mace6Symbol, h]

theorem mace3Symbol_of_step {t : Tables} {sym : Symbol} {p q : Predictor} {n : I32} (s1 s2 : I32)
    (h : stepSymbol t sym p = (q, n)) :
    mace3Symbol t ⟨p, s1, s2⟩ sym = (⟨q, s1, n - asr n 3⟩, [pcm n]) := by
  simp only [mace3Symbol, h]

theorem stepSymbol_within (t : Tables) (sym : Symbol) (ps : Predictor) : Within15 (stepSymbol t sym ps).2 := by
  obtain ⟨reply, hstep⟩ := stepSymbol_eq t sym ps
  rw [hstep]
  exact coefficientStep_within reply ps

/-- What is left of a value in range after an eighth of it is taken (R147). -/
theorem toInt_sub_eighth {v : I32} (h : Within15 v) : (v - asr v 3).toInt = v.toInt - v.toInt / 8 := by
  obtain ⟨hlo, hhi⟩ := h
  rw [toInt_sub', toInt_asr, wrap_of_range (by omega) (by omega)]
  rfl

/-! ### The packet operation -/

/-- A packet operation on a channel the session has, with room for six bytes, completes: six bytes, the Predictor State
and the pair of its packet. -/
theorem runPacket_completes {codec : Codec} {bytes : List Byte} {o : PktOps} {s : State}
    (hb : bytes.length = packetBytes codec) (hch : s.hasChannel o.ch = true) (hroom : o.d + 6 ≤ s.spaceSize o.dst.space)
    {r : Working × List Byte} (hr : packet codec s.symOrder3 s.rom ⟨s.predictor o.ch, o.s1, o.s2⟩ bytes = r) :
    ∃ t, outcome (runPacket codec bytes o s) = .next t ∧ t.response = .history r.1.s1 r.1.s2 ∧
      t.predictor o.ch = r.1.ps ∧ ∀ k < 6, t.byteAt o.dst.space (o.d + k) = r.2[k]? := by
  have hlen : r.2.length = 6 := by rw [← hr, packet_length hb]
  refine ⟨_, outcome_next.2 ((runPacket_ok hb).2 ⟨hch, hroom, r, hr.symm, rfl⟩), rfl, ?_, fun k hk => ?_⟩
  · rw [respond_predictor, setPredictor_predictor_same]
  · rw [respond_byteAt, setPredictor_byteAt, byteAt_setMem_writeList, if_pos ⟨rfl, by omega, by omega⟩,
      Nat.add_sub_cancel_left]

/-- Settles O14: the three steps of the packet's symbols, each byte the mix of a step's value with the two before it. -/
theorem pkt6Result : Obligations.Pkt6Result := by
  intro s a b c o hch hroom
  obtain ⟨⟨p1, n1⟩, h1⟩ : ∃ r, stepSymbol s.rom (.three a) (s.predictor o.ch) = r := ⟨_, rfl⟩
  obtain ⟨⟨p2, n2⟩, h2⟩ : ∃ r, stepSymbol s.rom (.two b) p1 = r := ⟨_, rfl⟩
  obtain ⟨⟨p3, n3⟩, h3⟩ : ∃ r, stepSymbol s.rom (.three c) p2 = r := ⟨_, rfl⟩
  have hpacket := packet_mace6 s.symOrder3 s.rom ⟨s.predictor o.ch, o.s1, o.s2⟩ a b c
  simp only [runAll_cons, runAll_nil, mace6Symbol_of_step _ _ h1, mace6Symbol_of_step _ _ h2,
    mace6Symbol_of_step _ _ h3, List.cons_append, List.nil_append] at hpacket
  obtain ⟨t, hexec, hresp, hpred, hbytes⟩ := runPacket_completes rfl hch hroom hpacket
  refine ⟨t, p1, p2, n1, n2, n3, hexec, symbolRelation_of_step h1, symbolRelation_of_step h2, ?_, hresp,
    ⟨_, hbytes 0 (by decide), toNat_pcm_mix0 ..⟩, ⟨_, hbytes 1 (by decide), toNat_pcm_mix1 ..⟩,
    ⟨_, hbytes 2 (by decide), toNat_pcm_mix0 ..⟩, ⟨_, hbytes 3 (by decide), toNat_pcm_mix1 ..⟩,
    ⟨_, hbytes 4 (by decide), toNat_pcm_mix0 ..⟩, ⟨_, hbytes 5 (by decide), toNat_pcm_mix1 ..⟩⟩
  rw [hpred]
  exact symbolRelation_of_step h3

/-- Settles O15: the six steps of the packet's symbols, each byte the PCM byte of a step's value. -/
theorem pkt3Result : Obligations.Pkt3Result := by
  intro s a b c d e f o hch hroom
  have hpacket := packet_mace3 s.symOrder3 s.rom ⟨s.predictor o.ch, o.s1, o.s2⟩ a b c d e f
  generalize (if s.symOrder3 = .msbFirst then a else c) = x1 at hpacket ⊢
  generalize (if s.symOrder3 = .msbFirst then c else a) = x3 at hpacket ⊢
  generalize (if s.symOrder3 = .msbFirst then d else f) = x4 at hpacket ⊢
  generalize (if s.symOrder3 = .msbFirst then f else d) = x6 at hpacket ⊢
  obtain ⟨⟨p1, n1⟩, h1⟩ : ∃ r, stepSymbol s.rom (.three x1) (s.predictor o.ch) = r := ⟨_, rfl⟩
  obtain ⟨⟨p2, n2⟩, h2⟩ : ∃ r, stepSymbol s.rom (.two b) p1 = r := ⟨_, rfl⟩
  obtain ⟨⟨p3, n3⟩, h3⟩ : ∃ r, stepSymbol s.rom (.three x3) p2 = r := ⟨_, rfl⟩
  obtain ⟨⟨p4, n4⟩, h4⟩ : ∃ r, stepSymbol s.rom (.three x4) p3 = r := ⟨_, rfl⟩
  obtain ⟨⟨p5, n5⟩, h5⟩ : ∃ r, stepSymbol s.rom (.two e) p4 = r := ⟨_, rfl⟩
  obtain ⟨⟨p6, n6⟩, h6⟩ : ∃ r, stepSymbol s.rom (.three x6) p5 = r := ⟨_, rfl⟩
  simp only [runAll_cons, runAll_nil, mace3Symbol_of_step _ _ h1, mace3Symbol_of_step _ _ h2,
    mace3Symbol_of_step _ _ h3, mace3Symbol_of_step _ _ h4, mace3Symbol_of_step _ _ h5, mace3Symbol_of_step _ _ h6,
    List.cons_append, List.nil_append] at hpacket
  obtain ⟨t, hexec, hresp, hpred, hbytes⟩ := runPacket_completes rfl hch hroom hpacket
  have hn6 : Within15 n6 := by
    have := stepSymbol_within s.rom (.three x6) p5
    rwa [h6] at this
  refine ⟨t, p1, p2, p3, p4, p5, n1, n2, n3, n4, n5, n6, _, hexec, symbolRelation_of_step h1,
    symbolRelation_of_step h2, symbolRelation_of_step h3, symbolRelation_of_step h4, symbolRelation_of_step h5, ?_,
    hresp, toInt_sub_eighth hn6,
    ⟨_, hbytes 0 (by decide), toNat_pcm _⟩, ⟨_, hbytes 1 (by decide), toNat_pcm _⟩,
    ⟨_, hbytes 2 (by decide), toNat_pcm _⟩, ⟨_, hbytes 3 (by decide), toNat_pcm _⟩,
    ⟨_, hbytes 4 (by decide), toNat_pcm _⟩, ⟨_, hbytes 5 (by decide), toNat_pcm _⟩⟩
  rw [hpred]
  exact symbolRelation_of_step h6

/-- A packet operation without room for its six bytes faults at the first offset outside (log 10). -/
theorem runPacket_withoutRoom {codec : Codec} {bytes : List Byte} {o : PktOps} {s : State}
    (hb : bytes.length = packetBytes codec) (hch : s.hasChannel o.ch = true)
    (hroom : s.spaceSize o.dst.space < o.d + 6) :
    outcome (runPacket codec bytes o s) =
      .fault (.outsideSpace o.dst.space (max o.d (s.spaceSize o.dst.space))) := by
  have hlen := packet_length hb s.symOrder3 s.rom ⟨s.predictor o.ch, o.s1, o.s2⟩
  simp only [outcome_fault, runPacket, if_pos hch]
  rw [writeBytes, if_neg (by omega)]

/-- Settles O47. -/
theorem packetWithoutRoomFaults : Obligations.PacketWithoutRoomFaults :=
  fun _ _ hch hroom =>
    ⟨fun _ _ _ => runPacket_withoutRoom rfl hch hroom, fun _ _ _ _ _ _ => runPacket_withoutRoom rfl hch hroom⟩

/-- What a completed packet operation changes and leaves alone (R145, R148). -/
theorem runPacket_frame {codec : Codec} {bytes : List Byte} {o : PktOps} {s t : State}
    (hb : bytes.length = packetBytes codec) (h : runPacket codec bytes o s = .ok t) :
    (t.predictor o.ch).sample1 = (s.predictor o.ch).sample1 ∧ (t.predictor o.ch).sample2 = (s.predictor o.ch).sample2 ∧
    t.predictor (other o.ch) = s.predictor (other o.ch) ∧ SameBytesOutside s t o.dst.space o.d 6 ∧
    SameSession s t ∧ SameSetting s t := by
  obtain ⟨-, -, r, rfl, rfl⟩ := (runPacket_ok hb).1 h
  obtain ⟨hsample1, hsample2⟩ := packet_samples codec s.symOrder3 s.rom ⟨s.predictor o.ch, o.s1, o.s2⟩ bytes
  obtain ⟨hsetting, hsession, -⟩ := (kept_setMem s o.dst.space _).trans (kept_setPredictor _ o.ch _)
  refine ⟨?_, ?_, ?_, fun sp a hout => ?_, hsession, hsetting⟩
  · rw [respond_predictor, setPredictor_predictor_same, hsample1]
  · rw [respond_predictor, setPredictor_predictor_same, hsample2]
  · rw [respond_predictor, setPredictor_predictor_other, setMem_predictor]
  · rw [respond_byteAt, setPredictor_byteAt, byteAt_setMem_writeList, packet_length hb, if_neg hout]

/-- Settles O16. -/
theorem packetFrame : Obligations.PacketFrame := by
  rintro s t o i (⟨a, b, c, rfl⟩ | ⟨a, b, c, d, e, f, rfl⟩) h
  · exact runPacket_frame rfl (outcome_next.1 h)
  · exact runPacket_frame rfl (outcome_next.1 h)

end Sys2Proof.Proofs

/-! PROOFS. R183 to R185, R224 and R193: the host's commands beside PROCESS, the commands outside the contract, and what
a step is: the issue of a transaction and the operation it stands for. -/

namespace Sys2Proof.Proofs

open Sys2Proof Sys2Proof.Machine Sys2Proof.Safety Sys2Proof.Laws

/-! ### RESET, TOTALS, NOP -/

/-- Settles O5: the effect of a reset, with the lines as they are sampled. -/
theorem resetZeroesTheSession : Obligations.ResetZeroesTheSession :=
  fun _ chs hb hchs => execReset_next.2 ⟨hb, chs, hchs, rfl⟩

/-- Settles O6: the power-on lines name mono, so the reset samples them as power-on does. -/
theorem resetCommandEqualsPowerOn : Obligations.ResetCommandEqualsPowerOn := by
  intro s hlines
  refine ⟨resetSession s.lines.codec .mono s, execReset_next.2 ⟨?_, .mono, ?_, rfl⟩, rfl, rfl, rfl, rfl, rfl, rfl, ?_,
    rfl, rfl, fun sp a => resetSession_byteAt ..⟩
  · rw [hlines]
    decide
  · rw [hlines]
    rfl
  · rw [resetSession_codec, hlines]
    rfl

/-- Settles O7. -/
theorem totalsAndNopComplete : Obligations.TotalsAndNopComplete :=
  ⟨fun _ hb hc => execTotals_next.2 ⟨hb, hc, rfl⟩, fun _ hc => execNop_next.2 ⟨hc, rfl⟩⟩

/-! ### Commands outside the contract (R224) -/

theorem configurationKept_eq_false {s : State} (h : ¬ ConfigurationStands s) : s.configurationKept = false :=
  Bool.eq_false_iff.2 (mt configurationKept_iff.1 h)

theorem overlapped_eq_true {l : HostLines} (h : l.breach = some .commandOverlap) : l.overlapped = true :=
  decide_eq_true h

theorem overlapped_eq_false {l : HostLines} (h : l.breach ≠ some .commandOverlap) : l.overlapped = false :=
  decide_eq_false h

theorem channelsOfNumber_eq_none {n : Nat} (h1 : n ≠ 1) (h2 : n ≠ 2) : channelsOfNumber n = none := by
  unfold channelsOfNumber
  split
  · exact absurd rfl h1
  · exact absurd rfl h2
  · rfl

/-- Settles O38: one clause per check of the four commands. -/
theorem brokenDutiesAreRefused : Obligations.BrokenDutiesAreRefused := by
  refine ⟨fun s b hb => ?_, fun s hb => ⟨?_, ?_⟩, fun s hc => ⟨fun hb => ?_, fun hb => ?_, ?_⟩, fun s hb h1 h2 => ?_⟩
  · simp only [exec, execProcess, hb]
  · simp only [exec, execReset, overlapped_eq_true hb, if_true]
  · simp only [exec, execTotals, overlapped_eq_true hb, if_true]
  · simp only [exec, execProcess, hb, configurationKept_eq_false hc, Bool.false_eq_true, if_false]
  · simp only [exec, execTotals, overlapped_eq_false hb, configurationKept_eq_false hc, Bool.false_eq_true, if_false]
  · simp only [exec, execNop, configurationKept_eq_false hc, Bool.false_eq_true, if_false]
  · simp only [exec, execReset, overlapped_eq_false hb, channelsOfNumber_eq_none h1 h2, Bool.false_eq_true, if_false]

/-! ### A step -/

theorem step_of_decode {s : State} {tr : Transaction} {rest : List Transaction} {i : Instr}
    (hp : s.pending = tr :: rest) (hd : decode tr.request = .ok i) : step s = exec i (s.issue tr rest) := by
  simp only [step, hp, hd]

theorem step_of_decode_error {s : State} {tr : Transaction} {rest : List Transaction} {why : Reject}
    (hp : s.pending = tr :: rest) (hd : decode tr.request = .error why) : step s = .refused (.undecodable why) := by
  simp only [step, hp, hd]

theorem step_of_idle {s : State} (hp : s.pending = []) : step s = exec .nop s := by
  simp only [step, hp]

/-- A step that answers is an idle NOP or the operation of the next transaction, run from the state after its issue. -/
theorem step_next {s t : State} (h : step s = .next t) :
    (s.pending = [] ∧ exec .nop s = .next t) ∨
      ∃ tr rest i, s.pending = tr :: rest ∧ decode tr.request = .ok i ∧ exec i (s.issue tr rest) = .next t := by
  cases hp : s.pending with
  | nil => exact .inl ⟨rfl, step_of_idle hp ▸ h⟩
  | cons tr rest =>
    cases hd : decode tr.request with
    | error why =>
      rw [step_of_decode_error hp hd] at h
      cases h
    | ok i => exact .inr ⟨tr, rest, i, rfl, hd, step_of_decode hp hd ▸ h⟩

/-- What the issue and every operation keep, every step keeps. -/
theorem step_keeps {I : State → Prop} (hissue : ∀ s tr rest, I s → I (State.issue s tr rest))
    (hexec : ∀ i s t, I s → exec i s = .next t → I t) {s t : State} (hs : I s) (h : step s = .next t) : I t := by
  rcases step_next h with ⟨-, hnop⟩ | ⟨tr, rest, i, -, -, hrun⟩
  · exact hexec _ _ _ hs hnop
  · exact hexec _ _ _ (hissue s tr rest hs) hrun

/-- Settles O43. -/
theorem stepKeepsSessionConsistent : Obligations.StepKeepsSessionConsistent :=
  fun _ _ hc h => step_consistent h hc

/-- The issue leaves every byte space but the host's buffers. -/
theorem issue_mem_of_ne (s : State) (tr : Transaction) (rest : List Transaction) {sp : SpaceName} (hin : sp ≠ .input)
    (hout : sp ≠ .output) : (s.issue tr rest).mem sp = s.mem sp := by
  cases sp with
  | input => exact absurd rfl hin
  | output => exact absurd rfl hout
  | icache => exact issue_icache ..
  | ocache => exact issue_ocache ..
  | scratchL => exact issue_scratchL ..
  | scratchR => exact issue_scratchR ..

section HandOver
variable {tr : Transaction} {h : Handover} (hh : tr.handover = some h) (s : State) (rest : List Transaction)
include hh

/-- A transaction with buffers puts them into the two spaces. -/
theorem issue_handover :
    (s.issue tr rest).mem .input = Memory.ofBytes h.input ∧ (s.issue tr rest).mem .output = Memory.ofBytes h.output ∧
      (s.issue tr rest).ilen = h.input.length ∧ (s.issue tr rest).olen = h.output.length := by
  simp [hh]

/-- The spaces hold the arrays from offset 0 on (R61). -/
theorem issue_bytes :
    (∀ a, (s.issue tr rest).byteAt .input a = h.input[a]?) ∧
      ∀ a, (s.issue tr rest).byteAt .output a = h.output[a]? := by
  obtain ⟨hin, hout, -, -⟩ := issue_handover hh s rest
  exact ⟨fun a => by rw [State.byteAt, hin, read_ofBytes], fun a => by rw [State.byteAt, hout, read_ofBytes]⟩

end HandOver

/-- A transaction without buffers leaves those of the one before. -/
theorem issue_noHandover {tr : Transaction} (hh : tr.handover = none) (s : State) (rest : List Transaction) :
    (∀ sp, (s.issue tr rest).mem sp = s.mem sp) ∧ (s.issue tr rest).ilen = s.ilen ∧
      (s.issue tr rest).olen = s.olen := by
  refine ⟨fun sp => ?_, by simp [hh], by simp [hh]⟩
  cases sp with
  | input => simp [hh]
  | output => simp [hh]
  | icache => exact issue_icache ..
  | ocache => exact issue_ocache ..
  | scratchL => exact issue_scratchL ..
  | scratchR => exact issue_scratchR ..

/-- Settles O4: the four cases of a step, and the issue register by register. -/
theorem stepRunsTheIssuedOperation : Obligations.StepRunsTheIssuedOperation := by
  refine ⟨fun s tr rest i => step_of_decode, fun s tr rest why => step_of_decode_error, fun s tr rest => ?_,
    fun s hp hc => (step_of_idle hp).trans (execNop_next.2 ⟨hc, rfl⟩)⟩
  refine ⟨issue_pending .., linesFor_command, linesFor_own,
    ⟨issue_state .., issue_cacheSize .., issue_totalIn .., issue_totalOut ..⟩, issue_left .., issue_right ..,
    issue_codec .., issue_channels .., issue_rom .., issue_symOrder3 .., issue_response ..,
    fun sp hin hout => issue_mem_of_ne s tr rest hin hout, fun h hh => ?_, fun hh => issue_noHandover hh s rest⟩
  obtain ⟨-, -, hilen, holen⟩ := issue_handover hh s rest
  exact ⟨hilen, holen, issue_bytes hh s rest⟩

end Sys2Proof.Proofs

/-! PROOFS. R26 to R38 and R247: what every operation leaves alone. Every operation but RESET keeps the setting: the
configuration, the tables, the buffer lengths and the host's lines. Who writes which register, and that the
configuration stands after every step, are read off that and off the frames of the operations. -/

namespace Sys2Proof.Proofs

open Sys2Proof Sys2Proof.Machine Sys2Proof.Safety Sys2Proof.Laws

theorem sameSetting_refl (s : State) : SameSetting s s := (Kept.refl s).1

/-- A symbol operation writes its channel's Predictor State alone. -/
theorem runSymbol_frame {f : Predictor → Predictor × I32} {ch : Chan} {s t : State} (h : runSymbol f ch s = .ok t) :
    (∀ c, c ≠ ch → t.predictor c = s.predictor c) ∧ SameBytes s t ∧ SameSession s t ∧ SameSetting s t := by
  obtain ⟨-, rfl⟩ := runSymbol_ok.1 h
  obtain ⟨hsetting, hsession, -⟩ := kept_setPredictor s ch (f (s.predictor ch)).1
  refine ⟨fun c hc => ?_, fun sp a => ?_, hsession, hsetting⟩
  · rw [respond_predictor, setPredictor_predictor_ne s _ hc]
  · rw [respond_byteAt, setPredictor_byteAt]

theorem adapterLoop_kept {k : Nat} {c d : Cursor} {s t : State} (h : adapterLoop k c s = .ok (t, d)) : KeptTurn s t :=
  adapterLoop_keeps (I := fun u _ => KeptTurn s u) (fun _ _ _ _ hu ht => hu.trans (turn_keeps ht).kept)
    (fun _ _ _ _ hu ht => hu.trans (turn_keeps ht).kept) (KeptTurn.refl s) h

/-- A PROCESS keeps the setting and every byte of IN (R35, R51). -/
theorem execProcess_frame {s t : State} (h : execProcess s = .next t) :
    SameSetting s t ∧ ∀ a, t.byteAt .input a = s.byteAt .input a := by
  obtain ⟨-, -, -, hrun⟩ := execProcess_next.1 h
  obtain ⟨u, d, hloop, rfl⟩ := runProcess_ok.1 hrun
  obtain ⟨hsetting, -, -, -, hinput⟩ := adapterLoop_kept hloop
  exact ⟨hsetting, fun a => by rw [report_byteAt, hinput]⟩

/-- Every operation but RESET keeps the setting. -/
theorem exec_sameSetting {i : Instr} {s t : State} (hi : i ≠ .reset) (h : exec i s = .next t) : SameSetting s t := by
  cases i with
  | pkt6 a b c o =>
    obtain ⟨-, -, -, -, -, hsetting⟩ := runPacket_frame rfl (outcome_next.1 h)
    exact hsetting
  | pkt3 a b c d e f o =>
    obtain ⟨-, -, -, -, -, hsetting⟩ := runPacket_frame rfl (outcome_next.1 h)
    exact hsetting
  | step3 code ch =>
    obtain ⟨-, -, -, hsetting⟩ := runSymbol_frame (outcome_next.1 h)
    exact hsetting
  | step2 code ch =>
    obtain ⟨-, -, -, hsetting⟩ := runSymbol_frame (outcome_next.1 h)
    exact hsetting
  | block6 o => exact (runBlock_keeps (outcome_next.1 h)).1.1
  | block3 o => exact (runBlock_keeps (outcome_next.1 h)).1.1
  | nop =>
    obtain ⟨-, rfl⟩ := execNop_next.1 h
    exact sameSetting_refl _
  | reset => exact absurd rfl hi
  | process => exact (execProcess_frame h).1
  | totals =>
    obtain ⟨-, -, rfl⟩ := execTotals_next.1 h
    exact sameSetting_refl s

/-! ### The tables (R38) -/

theorem exec_tables {i : Instr} {s t : State} (h : exec i s = .next t) : t.rom = s.rom ∧ t.symOrder3 = s.symOrder3 := by
  by_cases hi : i = .reset
  · subst hi
    obtain ⟨-, chs, -, rfl⟩ := execReset_next.1 h
    exact ⟨rfl, rfl⟩
  · obtain ⟨-, -, hrom, horder, -⟩ := exec_sameSetting hi h
    exact ⟨hrom, horder⟩

/-- Settles O39: nor does the issue of a transaction write them. -/
theorem tablesAreNeverWritten : Obligations.TablesAreNeverWritten := by
  refine ⟨fun i s t h => exec_tables h, fun s t h => ?_⟩
  refine step_keeps (I := fun u => u.rom = s.rom ∧ u.symOrder3 = s.symOrder3) (fun u tr rest hu => ?_)
    (fun i u v hu hv => ?_) ⟨rfl, rfl⟩ h
  · rwa [issue_rom, issue_symOrder3]
  · obtain ⟨hrom, horder⟩ := exec_tables hv
    exact ⟨hrom.trans hu.1, horder.trans hu.2⟩

/-! ### The configuration (R247) -/

/-- The operations the host issues at its command port (R88). -/
def isHostCommand : Instr → Bool
  | .pkt6 _ _ _ _ => false
  | .pkt3 _ _ _ _ _ _ _ => false
  | .step3 _ _ => false
  | .step2 _ _ => false
  | .block6 _ => false
  | .block3 _ => false
  | .nop => true
  | .reset => true
  | .process => true
  | .totals => true

theorem isHostCommand_commandOfCode (code : BitVec 2) : isHostCommand (commandOfCode code) = true := by
  revert code
  decide

/-- The command port decodes to the host's commands, every other port to the block's own operations. -/
theorem isHostCommand_of_decode {r : Request} {i : Instr} (h : decode r = .ok i) : isHostCommand i = r.isCommand := by
  cases r with
  | command word =>
    simp only [decode] at h
    split at h
    · cases h
      exact isHostCommand_commandOfCode _
    · cases h
  | symbol3 word ch =>
    simp only [decode] at h
    split at h <;> cases h
    rfl
  | symbol2 word ch =>
    simp only [decode] at h
    split at h <;> cases h
    rfl
  | packet6 word o =>
    simp only [decode] at h
    split at h <;> cases h
    rfl
  | packet3 word o =>
    simp only [decode] at h
    split at h <;> cases h
    rfl
  | block6 o => cases h; rfl
  | block3 o => cases h; rfl

theorem configurationStands_of_sameSetting {s t : State} (h : SameSetting s t) (hc : ConfigurationStands s) :
    ConfigurationStands t := by
  obtain ⟨hcodec, hchannels, -, -, -, -, hlines, -⟩ := h
  rwa [ConfigurationStands, hcodec, hchannels, hlines]

/-- A command of the host completes only with the configuration as sampled, or samples it; any other operation leaves it
as it stands (R183, R247). -/
theorem exec_configurationStands {i : Instr} {s t : State} (h : exec i s = .next t)
    (hc : isHostCommand i = false → ConfigurationStands s) : ConfigurationStands t := by
  by_cases hi : i = .reset
  · subst hi
    obtain ⟨-, chs, hchs, rfl⟩ := execReset_next.1 h
    exact ⟨rfl, hchs⟩
  · refine configurationStands_of_sameSetting (exec_sameSetting hi h) ?_
    cases i with
    | nop => exact (execNop_next.1 h).1
    | reset => exact absurd rfl hi
    | process =>
      obtain ⟨-, hcodec, hchannels, -⟩ := execProcess_next.1 h
      exact ⟨hcodec, hchannels⟩
    | totals => exact (execTotals_next.1 h).2.1
    | pkt6 a b c o => exact hc rfl
    | pkt3 a b c d e f o => exact hc rfl
    | step3 code ch => exact hc rfl
    | step2 code ch => exact hc rfl
    | block6 o => exact hc rfl
    | block3 o => exact hc rfl

/-- Settles O49: under an operation of the block's own the lines stand, so the configuration stands at its start. -/
theorem stepKeepsConfiguration : Obligations.StepKeepsConfiguration := by
  intro s t hc h
  rcases step_next h with ⟨-, hnop⟩ | ⟨tr, rest, i, hp, hd, hrun⟩
  · obtain ⟨-, rfl⟩ := execNop_next.1 hnop
    exact ⟨hc, fun hne => by simp at hne⟩
  · refine ⟨exec_configurationStands hrun fun hown => ?_, fun hne => ?_⟩
    · rw [isHostCommand_of_decode hd] at hown
      rwa [ConfigurationStands, issue_lines, linesFor_own hown, issue_codec, issue_channels]
    · by_cases hi : i = .reset
      · exact ⟨tr, rest, hp, hi ▸ hd⟩
      · obtain ⟨hcodec, hchannels, -⟩ := exec_sameSetting hi hrun
        rw [hcodec, hchannels, issue_codec, issue_channels] at hne
        simp at hne

/-! ### Who writes which register (R26 to R35) -/

theorem dst_ne_input (d : Dst) : SpaceName.input ≠ d.space := by cases d <;> decide

theorem dst_ne_icache (d : Dst) : SpaceName.icache ≠ d.space := by cases d <;> decide

theorem dst_ne_ocache {d : Dst} (h : decide (d = .ocache) = false) : SpaceName.ocache ≠ d.space := by
  cases d with
  | ocache => cases h
  | output => decide
  | scratchL => decide
  | scratchR => decide

theorem eq_other_of_ne {c ch : Chan} (h : c ≠ ch) : c = other ch := by
  cases ch with
  | left => cases c with
    | left => exact absurd rfl h
    | right => rfl
  | right => cases c with
    | left => rfl
    | right => exact absurd rfl h

/-- What an operation on one channel with one destination leaves alone: a packet or a block operation. -/
structure WritesOnly (ch : Chan) (dst : Dst) (s t : State) : Prop where
  session : SameSession s t
  setting : SameSetting s t
  bytes : ∀ sp, sp ≠ dst.space → ∀ a, t.byteAt sp a = s.byteAt sp a
  predictor : ∀ c, c ≠ ch → t.predictor c = s.predictor c

theorem runPacket_writesOnly {codec : Codec} {bytes : List Byte} {o : PktOps} {s t : State}
    (hb : bytes.length = packetBytes codec) (h : runPacket codec bytes o s = .ok t) : WritesOnly o.ch o.dst s t := by
  obtain ⟨-, -, hother, hbytes, hsession, hsetting⟩ := runPacket_frame hb h
  refine ⟨hsession, hsetting, fun sp hsp a => hbytes sp a fun hin => hsp hin.1, fun c hc => ?_⟩
  rw [eq_other_of_ne hc]
  exact hother

theorem runBlock_writesOnly {codec : Codec} {o : BlockOps} {s t : State} (h : runBlock codec o s = .ok t) :
    WritesOnly o.ch o.dst s t := by
  obtain ⟨⟨hsetting, hsession, -⟩, hbytes, hpred⟩ := runBlock_keeps h
  exact ⟨hsession, hsetting, hbytes, hpred⟩

/-- The registers an operation leaves because it is not one of those that write them. -/
def LeavesRegisters (i : Instr) (s t : State) : Prop :=
  (i ≠ .process → i ≠ .reset → SameSession s t) ∧
  (i ≠ .reset → t.codec = s.codec ∧ t.channels = s.channels) ∧
  (i ≠ .process → ∀ a, t.byteAt .icache a = s.byteAt .icache a) ∧
  (mayWriteOutputCache i = false → ∀ a, t.byteAt .ocache a = s.byteAt .ocache a) ∧
  (∀ ch, mayWritePredictor ch i = false → t.predictor ch = s.predictor ch) ∧
  (∀ a, t.byteAt .input a = s.byteAt .input a)

theorem leavesRegisters_of_writesOnly {i : Instr} {ch : Chan} {dst : Dst} {s t : State} (h : WritesOnly ch dst s t)
    (hdst : mayWriteOutputCache i = decide (dst = .ocache)) (hch : ∀ c, mayWritePredictor c i = decide (ch = c)) :
    LeavesRegisters i s t := by
  obtain ⟨hsession, ⟨hcodec, hchannels, -⟩, hbytes, hpred⟩ := h
  refine ⟨fun _ _ => hsession, fun _ => ⟨hcodec, hchannels⟩, fun _ => hbytes _ (dst_ne_icache dst), fun hno => ?_,
    fun c hno => ?_, hbytes _ (dst_ne_input dst)⟩
  · exact hbytes _ (dst_ne_ocache (hdst ▸ hno))
  · rw [hch, decide_eq_false_iff_not] at hno
    exact hpred c (Ne.symm hno)

theorem runSymbol_leavesRegisters {f : Predictor → Predictor × I32} {i : Instr} {ch : Chan} {s t : State}
    (h : runSymbol f ch s = .ok t) (hch : ∀ c, mayWritePredictor c i = decide (ch = c)) : LeavesRegisters i s t := by
  obtain ⟨hpred, hbytes, hsession, ⟨hcodec, hchannels, -⟩⟩ := runSymbol_frame h
  refine ⟨fun _ _ => hsession, fun _ => ⟨hcodec, hchannels⟩, fun _ => hbytes _, fun _ => hbytes _, fun c hno => ?_,
    hbytes _⟩
  rw [hch, decide_eq_false_iff_not] at hno
  exact hpred c (Ne.symm hno)

/-- Settles O41: one case per operation; packets and blocks by their destination, symbols by their channel. -/
theorem whichOperationsWriteTheSession : Obligations.WhichOperationsWriteTheSession := by
  intro i s t h
  show LeavesRegisters i s t
  cases i with
  | pkt6 a b c o => exact leavesRegisters_of_writesOnly (runPacket_writesOnly rfl (outcome_next.1 h)) rfl fun _ => rfl
  | pkt3 a b c d e f o =>
    exact leavesRegisters_of_writesOnly (runPacket_writesOnly rfl (outcome_next.1 h)) rfl fun _ => rfl
  | step3 code ch => exact runSymbol_leavesRegisters (outcome_next.1 h) fun _ => rfl
  | step2 code ch => exact runSymbol_leavesRegisters (outcome_next.1 h) fun _ => rfl
  | block6 o => exact leavesRegisters_of_writesOnly (runBlock_writesOnly (outcome_next.1 h)) rfl fun _ => rfl
  | block3 o => exact leavesRegisters_of_writesOnly (runBlock_writesOnly (outcome_next.1 h)) rfl fun _ => rfl
  | nop =>
    obtain ⟨-, rfl⟩ := execNop_next.1 h
    exact ⟨fun _ _ => ⟨rfl, rfl, rfl, rfl⟩, fun _ => ⟨rfl, rfl⟩, fun _ _ => rfl, fun _ _ => rfl, fun _ _ => rfl,
      fun _ => rfl⟩
  | reset =>
    obtain ⟨-, chs, -, rfl⟩ := execReset_next.1 h
    exact ⟨fun _ hr => absurd rfl hr, fun hr => absurd rfl hr, fun _ _ => rfl, fun _ _ => rfl,
      fun _ hno => Bool.noConfusion hno, fun _ => rfl⟩
  | process =>
    obtain ⟨⟨hcodec, hchannels, -⟩, hinput⟩ := execProcess_frame h
    exact ⟨fun hp => absurd rfl hp, fun _ => ⟨hcodec, hchannels⟩, fun hp => absurd rfl hp,
      fun hno => Bool.noConfusion hno, fun _ hno => Bool.noConfusion hno, hinput⟩
  | totals =>
    obtain ⟨-, -, rfl⟩ := execTotals_next.1 h
    exact ⟨fun _ _ => ⟨rfl, rfl, rfl, rfl⟩, fun _ => ⟨rfl, rfl⟩, fun _ _ => rfl, fun _ _ => rfl,
      fun _ _ => respond_predictor .., fun _ => rfl⟩

end Sys2Proof.Proofs

/-! PROOFS. R50, R123, R125 and R147: the invariants of the memory and of the Predictor States. Every operation but RESET
is made of the same parts: bytes written where they fit, a Predictor State that stays in range replaced, and the
adapter's registers. What every part keeps, every such operation keeps; the two invariants are checked part by part. -/

namespace Sys2Proof.Proofs

open Sys2Proof Sys2Proof.Machine Sys2Proof.Safety Sys2Proof.Laws

/-! ### Predictor States that stay in range -/

theorem stepSymbol_inRange (t : Tables) (sym : Symbol) {ps : Predictor} (h : PredictorInRange ps) :
    PredictorInRange (stepSymbol t sym ps).1 := by
  obtain ⟨hindex, -, -, hslope, hsample1, hsample2⟩ := h
  obtain ⟨hlo, hstep, hamp, hamp', hslope', hhi⟩ := stepSymbol_ranges t sym ps
  obtain ⟨reply, hreply⟩ := stepSymbol_eq t sym ps
  obtain ⟨hkeep1, hkeep2⟩ := coefficientStep_samples reply ps
  refine ⟨⟨hlo, hhi hindex⟩, hstep, ⟨hamp, hamp'⟩, hslope' hslope, ?_, ?_⟩
  · rwa [hreply, hkeep1]
  · rwa [hreply, hkeep2]

theorem codecSymbol_inRange (codec : Codec) (t : Tables) (w : Working) (sym : Symbol) (h : PredictorInRange w.ps) :
    PredictorInRange (codecSymbol codec t w sym).1.ps := by
  cases codec with
  | mace6 => exact stepSymbol_inRange t sym h
  | mace3 => exact stepSymbol_inRange t sym h

theorem packet_inRange (codec : Codec) (order : SymOrder) (t : Tables) {w : Working} (bytes : List Byte)
    (h : PredictorInRange w.ps) : PredictorInRange (packet codec order t w bytes).1.ps :=
  runAll_keeps (I := fun v : Working => PredictorInRange v.ps) (codecSymbol_inRange codec t) h _

theorem within15_sub_eighth {v : I32} (h : Within15 v) : Within15 (v - asr v 3) := by
  rw [Within15, toInt_sub_eighth h]
  obtain ⟨hlo, hhi⟩ := h
  omega

/-- A block's Predictor State and its working pair in range. -/
def WorkingInRange (w : Working) : Prop := PredictorInRange w.ps ∧ Within15 w.s1 ∧ Within15 w.s2

theorem codecSymbol_workingInRange (codec : Codec) (t : Tables) (w : Working) (sym : Symbol) (h : WorkingInRange w) :
    WorkingInRange (codecSymbol codec t w sym).1 := by
  obtain ⟨hps, hs1, -⟩ := h
  have hps' := codecSymbol_inRange codec t w sym hps
  have hvalue := stepSymbol_within t sym w.ps
  cases codec with
  | mace6 => exact ⟨hps', hvalue, hs1⟩
  | mace3 => exact ⟨hps', hs1, within15_sub_eighth hvalue⟩

/-- A block decode loads an in-range history, keeps the pair in range packet by packet, and persists it (R152, R153). -/
theorem decodePackets_inRange (codec : Codec) (order : SymOrder) (t : Tables) {ps : Predictor}
    (packets : List (List Byte)) (h : PredictorInRange ps) :
    PredictorInRange (decodePackets codec order t ps packets).1 := by
  have ⟨_, _, _, _, hsample1, hsample2⟩ := h
  have hload : WorkingInRange (loadHistory ps) := ⟨h, hsample1, hsample2⟩
  have hpackets : WorkingInRange (runAll (packet codec order t) (loadHistory ps) packets).1 :=
    runAll_keeps (I := WorkingInRange)
      (fun _ _ hw => runAll_keeps (I := WorkingInRange) (codecSymbol_workingInRange codec t) hw _) hload packets
  obtain ⟨⟨hindex, hstep, hamp, hslope, -, -⟩, hs1, hs2⟩ := hpackets
  exact ⟨hindex, hstep, hamp, hslope, hs1, hs2⟩

/-! ### What every part keeps, every operation but RESET keeps -/

/-- The parts that the operations other than RESET are made of keep `I`. -/
structure KeptByParts (I : State → Prop) : Prop where
  write : ∀ {s : State} {sp : SpaceName} {a : Nat} {vs : List Byte}, (vs.length = 0 ∨ a + vs.length ≤ s.spaceSize sp) →
    I s → I (s.setMem sp (Memory.writeList (s.mem sp) a vs))
  predictor : ∀ {s : State} {ch : Chan} {p : Predictor}, (PredictorInRange (s.predictor ch) → PredictorInRange p) →
    I s → I (s.setPredictor ch p)
  adapter : ∀ {s : State} (n : Nat) (q : AdapterState), I s → I (s.setAdapter n q)
  cacheSize : ∀ {s : State} (n : Nat), I s → I (s.setCacheSize n)
  respond : ∀ {s : State} (r : Response), I s → I (s.respond r)
  report : ∀ {s : State} (c : Cursor), I s → I (report s c)

section Parts
variable {I : State → Prop} (hI : KeptByParts I) {s t : State} (hs : I s)
include hI hs

theorem runSymbol_keeps_of_parts {sym : Symbol} {ch : Chan} (h : runSymbol (stepSymbol s.rom sym) ch s = .ok t) :
    I t := by
  obtain ⟨-, rfl⟩ := runSymbol_ok.1 h
  exact hI.respond _ (hI.predictor (stepSymbol_inRange s.rom sym) hs)

theorem runPacket_keeps_of_parts {codec : Codec} {bytes : List Byte} {o : PktOps}
    (hb : bytes.length = packetBytes codec) (h : runPacket codec bytes o s = .ok t) : I t := by
  obtain ⟨-, hroom, r, rfl, rfl⟩ := (runPacket_ok hb).1 h
  refine hI.respond _ (hI.predictor (fun hin => ?_) (hI.write ?_ hs))
  · rw [setMem_predictor] at hin
    exact packet_inRange codec s.symOrder3 s.rom bytes hin
  · rw [packet_length hb]
    exact .inr hroom

theorem runBlock_keeps_of_parts {codec : Codec} {o : BlockOps} (h : runBlock codec o s = .ok t) : I t := by
  obtain ⟨hrefusal, packets, _, hread, rfl, rfl⟩ := runBlock_ok.1 h
  obtain ⟨-, -, -, -, hroom⟩ := blockRefusal_none.1 hrefusal
  refine hI.predictor (fun hin => ?_) (hI.write ?_ hs)
  · rw [setMem_predictor] at hin
    exact decodePackets_inRange codec s.symOrder3 s.rom packets hin
  · rw [decodePackets_length (readPackets_width hread), (readPackets_ok.1 hread).1]
    omega

theorem writeBytes_keeps_of_parts {sp : SpaceName} {a : Nat} {vs : List Byte} (h : writeBytes s sp a vs = .ok t) :
    I t := by
  obtain ⟨hroom, rfl⟩ := writeBytes_ok.1 h
  exact hI.write hroom hs

theorem monoFrames_keeps_of_parts {src : Src} {b : Nat} {dst : Dst} {d m : Nat}
    (h : monoFrames src b dst d m s = .ok t) : I t :=
  runBlock_keeps_of_parts hI hs (monoFrames_ok.1 h)

theorem stereoFrames_keeps_of_parts {src : Src} {b : Nat} {dst : Dst} {d m : Nat}
    (h : stereoFrames src b dst d m s = .ok t) : I t := by
  obtain ⟨s1, s2, _, _, hleft, hright, -, -, hw⟩ := stereoFrames_ok.1 h
  exact writeBytes_keeps_of_parts hI (runBlock_keeps_of_parts hI (runBlock_keeps_of_parts hI hs hleft) hright) hw

theorem stereoPasses_keeps_of_parts {k ic oc n : Nat} (h : stereoPasses k ic oc n s = .ok t) : I t := by
  induction k generalizing ic oc n s with
  | zero => cases h; exact hs
  | succ k ih =>
    rw [stereoPasses] at h
    split at h
    next => cases h; exact hs
    next =>
      split at h
      next => cases h
      next u hu => exact ih (stereoFrames_keeps_of_parts hI hs hu) h

theorem direct_keeps_of_parts {c : Cursor} {n : Nat} (h : direct c n s = .ok t) : I t := by
  unfold direct at h
  split at h
  next => exact monoFrames_keeps_of_parts hI hs h
  next => exact stereoPasses_keeps_of_parts hI hs h

theorem adapterTurn_keeps_of_parts {c : Cursor} {r : Turn} (h : adapterTurn c s = .ok r) : I (Turn.state r) := by
  cases hst : s.state with
  | init =>
    simp only [adapterTurn, hst] at h
    obtain ⟨u, hu, rfl⟩ := initState_ok.1 h
    have hIu : I u := by
      split at hu
      next => exact direct_keeps_of_parts hI hs hu
      next => cases hu; exact hs
    split
    next => exact hI.adapter _ _ hIu
    next => exact hIu
  | fillingCache =>
    simp only [adapterTurn, hst] at h
    obtain ⟨-, vs, u, -, hw, rfl⟩ := fillingCacheState_ok.1 h
    split
    next => exact hI.adapter _ _ (writeBytes_keeps_of_parts hI hs hw)
    next => exact hI.cacheSize _ (writeBytes_keeps_of_parts hI hs hw)
  | processCache =>
    simp only [adapterTurn, hst] at h
    obtain ⟨u, hu, rfl⟩ := processCacheState_ok.1 h
    rcases hu with ⟨-, hu⟩ | ⟨-, hu⟩
    · exact hI.adapter _ _ (monoFrames_keeps_of_parts hI hs hu)
    · exact hI.adapter _ _ (stereoFrames_keeps_of_parts hI hs hu)
  | cacheFull =>
    simp only [adapterTurn, hst] at h
    obtain ⟨-, vs, u, -, hw, rfl⟩ := cacheFullState_ok.1 h
    split
    next => exact hI.adapter _ _ (writeBytes_keeps_of_parts hI hs hw)
    next => exact hI.cacheSize _ (writeBytes_keeps_of_parts hI hs hw)

theorem runProcess_keeps_of_parts (h : runProcess s = .ok t) : I t := by
  obtain ⟨u, d, hloop, rfl⟩ := runProcess_ok.1 h
  exact hI.report d (adapterLoop_keeps (I := fun u _ => I u) (fun _ _ _ _ hu ht => adapterTurn_keeps_of_parts hI hu ht)
    (fun _ _ _ _ hu ht => adapterTurn_keeps_of_parts hI hu ht) hs hloop)

theorem exec_keeps_of_parts {i : Instr} (hi : i ≠ .reset) (h : exec i s = .next t) : I t := by
  cases i with
  | pkt6 a b c o => exact runPacket_keeps_of_parts hI hs rfl (outcome_next.1 h)
  | pkt3 a b c d e f o => exact runPacket_keeps_of_parts hI hs rfl (outcome_next.1 h)
  | step3 code ch => exact runSymbol_keeps_of_parts hI hs (sym := .three code) (outcome_next.1 h)
  | step2 code ch => exact runSymbol_keeps_of_parts hI hs (sym := .two code) (outcome_next.1 h)
  | block6 o => exact runBlock_keeps_of_parts hI hs (outcome_next.1 h)
  | block3 o => exact runBlock_keeps_of_parts hI hs (outcome_next.1 h)
  | nop =>
    obtain ⟨-, rfl⟩ := execNop_next.1 h
    exact hs
  | reset => exact absurd rfl hi
  | process =>
    obtain ⟨-, -, -, hrun⟩ := execProcess_next.1 h
    exact runProcess_keeps_of_parts hI hs hrun
  | totals =>
    obtain ⟨-, -, rfl⟩ := execTotals_next.1 h
    exact hI.respond _ hs

end Parts

/-- What the parts, the reset and the issue keep, every step keeps. -/
theorem step_keeps_of_parts {I : State → Prop} (hI : KeptByParts I)
    (hreset : ∀ codec chs s, I s → I (resetSession codec chs s)) (hissue : ∀ s tr rest, I s → I (State.issue s tr rest))
    {s t : State} (hs : I s) (h : step s = .next t) : I t := by
  refine step_keeps hissue (fun i u v hu hv => ?_) hs h
  by_cases hi : i = .reset
  · subst hi
    obtain ⟨-, chs, -, rfl⟩ := execReset_next.1 hv
    exact hreset _ _ _ hu
  · exact exec_keeps_of_parts hI hu hi hv

/-! ### The memory -/

/-- Canonical form and size see nothing of a state but its byte spaces. -/
theorem memoryCanonical_congr {s t : State} (hmem : ∀ sp, t.mem sp = s.mem sp)
    (hsize : ∀ sp, t.spaceSize sp = s.spaceSize sp) (h : MemoryCanonical s) : MemoryCanonical t := by
  intro sp
  rw [hmem, hsize]
  exact h sp

theorem memoryCanonical_write {s : State} {sp : SpaceName} {a : Nat} {vs : List Byte}
    (hroom : vs.length = 0 ∨ a + vs.length ≤ s.spaceSize sp) (h : MemoryCanonical s) :
    MemoryCanonical (s.setMem sp (Memory.writeList (s.mem sp) a vs)) := by
  intro sp'
  rw [setMem_spaceSize]
  by_cases hsp : sp' = sp
  · subst hsp
    obtain ⟨hwf, hsize⟩ := h sp'
    rw [setMem_mem_same]
    refine ⟨writeList_wf hwf a vs, fun cell hcell => ?_⟩
    rcases mem_writeList hcell with hold | hnew
    · exact hsize cell hold
    · omega
  · rw [setMem_mem_ne s _ hsp]
    exact h sp'

theorem memoryCanonical_parts : KeptByParts MemoryCanonical where
  write := memoryCanonical_write
  predictor := fun _ h => memoryCanonical_congr (fun _ => setPredictor_mem ..) (fun _ => setPredictor_spaceSize ..) h
  adapter := fun _ _ h => memoryCanonical_congr (fun _ => setAdapter_mem ..) (fun _ => setAdapter_spaceSize ..) h
  cacheSize := fun _ h => memoryCanonical_congr (fun _ => setCacheSize_mem ..) (fun _ => setCacheSize_spaceSize ..) h
  respond := fun _ h => memoryCanonical_congr (fun _ => respond_mem ..) (fun _ => respond_spaceSize ..) h
  report := fun _ h => memoryCanonical_congr (fun _ => report_mem ..) (fun _ => report_spaceSize ..) h

/-- Only the host's two buffers have a size that the state holds. -/
theorem spaceSize_of_lengths {s t : State} (hilen : t.ilen = s.ilen) (holen : t.olen = s.olen) (sp : SpaceName) :
    t.spaceSize sp = s.spaceSize sp := by
  cases sp with
  | input => exact hilen
  | output => exact holen
  | icache => rfl
  | ocache => rfl
  | scratchL => rfl
  | scratchR => rfl

/-- A space the host fills is canonical and of its array's length. -/
theorem canonical_ofBytes (vs : List Byte) :
    Memory.wf (Memory.ofBytes vs) ∧ ∀ cell ∈ Memory.ofBytes vs, cell.1 < vs.length :=
  ⟨ofBytes_wf vs, fun _ => mem_ofBytes⟩

theorem memoryCanonical_issue (s : State) (tr : Transaction) (rest : List Transaction) (h : MemoryCanonical s) :
    MemoryCanonical (s.issue tr rest) := by
  cases hh : tr.handover with
  | none =>
    obtain ⟨hmem, hilen, holen⟩ := issue_noHandover hh s rest
    exact memoryCanonical_congr hmem (spaceSize_of_lengths hilen holen) h
  | some b =>
    obtain ⟨hin, hout, hilen, holen⟩ := issue_handover hh s rest
    intro sp
    cases sp with
    | input =>
      rw [hin, spaceSize_input, hilen]
      exact canonical_ofBytes b.input
    | output =>
      rw [hout, spaceSize_output, holen]
      exact canonical_ofBytes b.output
    | icache =>
      rw [issue_mem_of_ne s tr rest (by decide) (by decide)]
      exact h .icache
    | ocache =>
      rw [issue_mem_of_ne s tr rest (by decide) (by decide)]
      exact h .ocache
    | scratchL =>
      rw [issue_mem_of_ne s tr rest (by decide) (by decide)]
      exact h .scratchL
    | scratchR =>
      rw [issue_mem_of_ne s tr rest (by decide) (by decide)]
      exact h .scratchR

/-- Settles O42. -/
theorem stepKeepsMemoryCanonical : Obligations.StepKeepsMemoryCanonical := by
  intro s t hs h
  exact step_keeps_of_parts memoryCanonical_parts
    (fun codec chs u => memoryCanonical_congr (fun _ => resetSession_mem ..) (spaceSize_of_lengths rfl rfl))
    memoryCanonical_issue hs h

/-! ### The Predictor States -/

/-- Both Predictor States in range, channel by channel. -/
def PredictorsInRange (s : State) : Prop := ∀ ch, PredictorInRange (s.predictor ch)

theorem predictorsInRange_iff {s : State} :
    PredictorsInRange s ↔ PredictorInRange s.left ∧ PredictorInRange s.right := by
  constructor
  · exact fun h => ⟨h .left, h .right⟩
  · rintro ⟨hleft, hright⟩ ch
    cases ch with
    | left => exact hleft
    | right => exact hright

theorem predictorInRange_zero : PredictorInRange Predictor.zero := by
  unfold PredictorInRange Within15
  decide

theorem predictorsInRange_setPredictor {s : State} {ch : Chan} {p : Predictor}
    (hp : PredictorInRange (s.predictor ch) → PredictorInRange p) (h : PredictorsInRange s) :
    PredictorsInRange (s.setPredictor ch p) := by
  intro c
  by_cases hc : c = ch
  · subst hc
    rw [setPredictor_predictor_same]
    exact hp (h c)
  · rw [setPredictor_predictor_ne s p hc]
    exact h c

theorem predictorsInRange_parts : KeptByParts PredictorsInRange where
  write := fun _ h ch => by rw [setMem_predictor]; exact h ch
  predictor := predictorsInRange_setPredictor
  adapter := fun _ _ h ch => by rw [setAdapter_predictor]; exact h ch
  cacheSize := fun _ h ch => by rw [setCacheSize_predictor]; exact h ch
  respond := fun _ h ch => by rw [respond_predictor]; exact h ch
  report := fun _ h => predictorsInRange_iff.2 (predictorsInRange_iff.1 h)

theorem predictorsInRange_issue (s : State) (tr : Transaction) (rest : List Transaction) (h : PredictorsInRange s) :
    PredictorsInRange (s.issue tr rest) := by
  rw [predictorsInRange_iff, issue_left, issue_right]
  exact predictorsInRange_iff.1 h

/-- Settles O44: a reset zeroes both Predictor States, which is in range. -/
theorem stepKeepsPredictorsInRange : Obligations.StepKeepsPredictorsInRange := by
  intro s t hleft hright h
  exact predictorsInRange_iff.1 (step_keeps_of_parts predictorsInRange_parts
    (fun _ _ _ _ => predictorsInRange_iff.2 ⟨predictorInRange_zero, predictorInRange_zero⟩) predictorsInRange_issue
    (predictorsInRange_iff.2 ⟨hleft, hright⟩) h)

/-- Settles O46: at reset every byte space is empty. -/
theorem resetMeetsTheInvariant : Obligations.ResetMeetsTheInvariant := by
  refine ⟨fun sp => ?_, (sessionConsistent_of_init rfl).2 rfl, predictorInRange_zero, predictorInRange_zero, rfl, rfl⟩
  have hempty : State.reset.mem sp = [] := by cases sp <;> rfl
  rw [hempty]
  exact ⟨List.Pairwise.nil, fun _ hcell => nomatch hcell⟩

end Sys2Proof.Proofs

/-! PROOFS. R172 to R182 and R186: PROCESS from every state, consistent or not. It halts within seven turns, and it
writes OUT below its output cursor alone. -/

namespace Sys2Proof.Proofs

open Sys2Proof Sys2Proof.Machine Sys2Proof.Safety Sys2Proof.Laws

/-! ### No operation of a turn stops as an adapter that does not halt -/

/-- An operation that stops does so for another reason than an adapter that does not halt. -/
def Halting {α : Type} (r : Run α) : Prop := ∀ e, r = .error e → e ≠ .fault .adapterDoesNotHalt

theorem readByte_halting (s : State) (sp : SpaceName) (a : Nat) : Halting (readByte s sp a) := by
  intro e h
  unfold readByte at h
  split at h
  · split at h
    · cases h
    · cases h
      exact nofun
  · cases h
    exact nofun

theorem readBytes_halting (s : State) (sp : SpaceName) (a n : Nat) : Halting (readBytes s sp a n) := by
  induction n generalizing a with
  | zero => exact nofun
  | succ n ih =>
    intro e h
    rw [readBytes] at h
    split at h
    next he => cases h; exact readByte_halting s sp a _ he
    next =>
      split at h
      next he => cases h; exact ih (a + 1) _ he
      next => cases h

theorem writeBytes_halting (s : State) (sp : SpaceName) (a : Nat) (vs : List Byte) :
    Halting (writeBytes s sp a vs) := by
  intro e h
  unfold writeBytes at h
  split at h
  · cases h
  · cases h
    exact nofun

theorem readPackets_halting (codec : Codec) (o : BlockOps) (s : State) (p n : Nat) :
    Halting (readPackets codec o s p n) := by
  induction n generalizing p with
  | zero => exact nofun
  | succ n ih =>
    intro e h
    rw [readPackets] at h
    split at h
    next he => cases h; exact readBytes_halting _ _ _ _ _ he
    next =>
      split at h
      next he => cases h; exact ih (p + 1) _ he
      next => cases h

theorem runBlock_halting (codec : Codec) (o : BlockOps) (s : State) : Halting (runBlock codec o s) := by
  intro e h
  unfold runBlock at h
  split at h
  next => cases h; exact nofun
  next =>
    split at h
    next he => cases h; exact readPackets_halting _ _ _ _ _ _ he
    next =>
      dsimp only at h
      split at h
      next he => cases h; exact writeBytes_halting _ _ _ _ _ he
      next => cases h

theorem stereoFrames_halting (src : Src) (b : Nat) (dst : Dst) (d m : Nat) (s : State) :
    Halting (stereoFrames src b dst d m s) := by
  intro e h
  unfold stereoFrames at h
  split at h
  next he => cases h; exact runBlock_halting _ _ _ _ he
  next =>
    split at h
    next he => cases h; exact runBlock_halting _ _ _ _ he
    next =>
      split at h
      next he => cases h; exact readBytes_halting _ _ _ _ _ he
      next =>
        split at h
        next he => cases h; exact readBytes_halting _ _ _ _ _ he
        next => exact writeBytes_halting _ _ _ _ _ h

theorem stereoPasses_halting (k ic oc n : Nat) (s : State) : Halting (stereoPasses k ic oc n s) := by
  induction k generalizing ic oc n s with
  | zero => exact nofun
  | succ k ih =>
    intro e h
    rw [stereoPasses] at h
    split at h
    next => cases h
    next =>
      split at h
      next he => cases h; exact stereoFrames_halting _ _ _ _ _ _ _ he
      next => exact ih _ _ _ _ _ h

theorem direct_halting (c : Cursor) (n : Nat) (s : State) : Halting (direct c n s) := by
  intro e h
  unfold direct at h
  split at h
  next => exact runBlock_halting _ _ _ _ h
  next => exact stereoPasses_halting _ _ _ _ _ _ h

theorem initState_halting (c : Cursor) (s : State) : Halting (initState c s) := by
  intro e h
  unfold initState at h
  dsimp only at h
  split at h
  next he =>
    cases h
    split at he
    next => exact direct_halting _ _ _ _ he
    next => cases he
  next => split at h <;> cases h

theorem fillingCacheState_halting (c : Cursor) (s : State) : Halting (fillingCacheState c s) := by
  intro e h
  unfold fillingCacheState at h
  dsimp only at h
  split at h
  next => cases h; exact nofun
  next =>
    split at h
    next he => cases h; exact readBytes_halting _ _ _ _ _ he
    next =>
      split at h
      next he => cases h; exact writeBytes_halting _ _ _ _ _ he
      next => split at h <;> cases h

theorem processCacheState_halting (c : Cursor) (s : State) : Halting (processCacheState c s) := by
  intro e h
  unfold processCacheState at h
  split at h
  next he =>
    cases h
    split at he
    next => exact runBlock_halting _ _ _ _ he
    next => exact stereoFrames_halting _ _ _ _ _ _ _ he
  next => cases h

theorem cacheFullState_halting (c : Cursor) (s : State) : Halting (cacheFullState c s) := by
  intro e h
  unfold cacheFullState at h
  dsimp only at h
  split at h
  next => cases h; exact nofun
  next =>
    split at h
    next he => cases h; exact readBytes_halting _ _ _ _ _ he
    next =>
      split at h
      next he => cases h; exact writeBytes_halting _ _ _ _ _ he
      next => split at h <;> cases h

theorem adapterTurn_halting (c : Cursor) (s : State) : Halting (adapterTurn c s) := by
  unfold adapterTurn
  split
  next => exact initState_halting c s
  next => exact fillingCacheState_halting c s
  next => exact processCacheState_halting c s
  next => exact cacheFullState_halting c s

/-! ### Where a turn goes on -/

/-- The direct path leaves less input or less room than a frame (R173). -/
theorem afterDirect_short (c : Cursor) (s : State) :
    s.ilen - (afterDirect c s).ic < s.gin ∨ s.olen - (afterDirect c s).oc < s.gout := by
  have hin := Nat.lt_div_mul_add (a := s.ilen - c.ic) (gin_pos s)
  have hout := Nat.lt_div_mul_add (a := s.olen - c.oc) (gout_pos s)
  have hgin := gin_pos s
  have hgout := gout_pos s
  rcases Nat.le_total ((s.ilen - c.ic) / s.gin) ((s.olen - c.oc) / s.gout) with hle | hle
  · left
    rw [afterDirect, directCount, Nat.min_eq_left hle]
    dsimp only
    omega
  · right
    rw [afterDirect, directCount, Nat.min_eq_right hle]
    dsimp only
    omega

theorem init_goOn {c d : Cursor} {s t : State} (hs : s.state = .init) (h : adapterTurn c s = .ok (.goOn t d)) :
    t.state = .fillingCache ∧ t.cacheSize = 0 ∧ d = afterDirect c s := by
  simp only [adapterTurn, hs] at h
  obtain ⟨u, -, hr⟩ := initState_ok.1 h
  split at hr
  next => cases hr; exact ⟨rfl, rfl, rfl⟩
  next => cases hr

theorem filling_goOn {c d : Cursor} {s t : State} (hs : s.state = .fillingCache)
    (h : adapterTurn c s = .ok (.goOn t d)) :
    t.state = .processCache ∧ d.oc = c.oc ∧ s.gin ≤ s.cacheSize + (s.ilen - c.ic) := by
  simp only [adapterTurn, hs] at h
  obtain ⟨-, vs, u, -, -, hr⟩ := fillingCacheState_ok.1 h
  have hcount : fillCount c s ≤ s.ilen - c.ic := Nat.min_le_left _ _
  split at hr
  next hfull => cases hr; exact ⟨rfl, rfl, by omega⟩
  next => cases hr

theorem process_goOn {c d : Cursor} {s t : State} (hs : s.state = .processCache)
    (h : adapterTurn c s = .ok (.goOn t d)) : t.state = .cacheFull ∧ t.cacheSize = s.gout ∧ d = c := by
  simp only [adapterTurn, hs] at h
  obtain ⟨u, -, hr⟩ := processCacheState_ok.1 h
  cases hr
  exact ⟨rfl, rfl, rfl⟩

theorem full_goOn {c d : Cursor} {s t : State} (hs : s.state = .cacheFull) (h : adapterTurn c s = .ok (.goOn t d)) :
    t.state = .init ∧ s.cacheSize ≤ s.olen - c.oc := by
  simp only [adapterTurn, hs] at h
  obtain ⟨-, vs, u, -, -, hr⟩ := cacheFullState_ok.1 h
  have hcount : drainCount c s ≤ s.olen - c.oc := Nat.min_le_left _ _
  split at hr
  next => cases hr; exact ⟨rfl, by omega⟩
  next => cases hr

/-! ### Seven turns (R186) -/

/-- A loop halts where, after each turn that goes on, the rest of it does. -/
theorem loop_halting {k : Nat} {c : Cursor} {s : State}
    (hgo : ∀ t d, adapterTurn c s = .ok (.goOn t d) → KeptTurn s t → Halting (adapterLoop k d t)) :
    Halting (adapterLoop (k + 1) c s) := by
  intro e h
  rw [adapterLoop] at h
  split at h
  next he => cases h; exact adapterTurn_halting c s _ he
  next => cases h
  next t d ht => exact hgo t d ht (turn_keeps ht).kept e h

section Loop
variable (k : Nat) {c : Cursor} {s : State}

theorem full_halting_last (hs : s.state = .cacheFull) (hr : s.olen - c.oc < s.cacheSize) :
    Halting (adapterLoop (k + 1) c s) :=
  loop_halting fun t d ht _ => by
    obtain ⟨-, hle⟩ := full_goOn hs ht
    omega

theorem process_halting_last (hs : s.state = .processCache) (hr : s.olen - c.oc < s.gout) :
    Halting (adapterLoop (k + 2) c s) :=
  loop_halting fun t d ht kt => by
    obtain ⟨hst, hsize, rfl⟩ := process_goOn hs ht
    exact full_halting_last k hst (by rw [kt.olen, hsize]; exact hr)

theorem filling_halting_last (hs : s.state = .fillingCache) (h0 : s.cacheSize = 0)
    (hr : s.ilen - c.ic < s.gin ∨ s.olen - c.oc < s.gout) : Halting (adapterLoop (k + 3) c s) :=
  loop_halting fun t d ht kt => by
    obtain ⟨hst, hoc, hin⟩ := filling_goOn hs ht
    exact process_halting_last k hst (by rw [kt.olen, kt.gout, hoc]; omega)

theorem init_halting (hs : s.state = .init) : Halting (adapterLoop (k + 4) c s) :=
  loop_halting fun t d ht kt => by
    obtain ⟨hst, h0, rfl⟩ := init_goOn hs ht
    refine filling_halting_last k hst h0 ?_
    rw [kt.ilen, kt.olen, kt.gin, kt.gout]
    exact afterDirect_short c s

theorem full_halting (hs : s.state = .cacheFull) : Halting (adapterLoop (k + 5) c s) :=
  loop_halting fun _ _ ht _ => init_halting k (full_goOn hs ht).1

theorem process_halting (hs : s.state = .processCache) : Halting (adapterLoop (k + 6) c s) :=
  loop_halting fun _ _ ht _ => full_halting k (process_goOn hs ht).1

theorem filling_halting (hs : s.state = .fillingCache) : Halting (adapterLoop (k + 7) c s) :=
  loop_halting fun _ _ ht _ => process_halting k (filling_goOn hs ht).1

end Loop

theorem adapterLoop_halting (c : Cursor) (s : State) : Halting (adapterLoop maxTurns c s) := by
  cases hs : s.state with
  | init => exact init_halting 3 hs
  | fillingCache => exact filling_halting 0 hs
  | processCache => exact process_halting 1 hs
  | cacheFull => exact full_halting 2 hs

/-- Settles O27: the fault is raised by no operation of a turn and not by a loop of seven turns. -/
theorem processHaltsWithinSevenTurns : Obligations.ProcessHaltsWithinSevenTurns := by
  intro s h
  simp only [exec, execProcess] at h
  split at h
  next => cases h
  next =>
    split at h
    next =>
      rw [outcome_fault, runProcess] at h
      split at h
      next he => cases h; exact adapterLoop_halting _ s _ he rfl
      next => cases h
    next => cases h

/-! ### What a PROCESS writes of OUT (R245) -/

theorem kept_channels {s t : State} (h : Kept s t) : t.channels = s.channels := by
  obtain ⟨⟨-, hchannels, -⟩, -, -⟩ := h
  exact hchannels

theorem keptTurn_channels {s t : State} (h : KeptTurn s t) : t.channels = s.channels := by
  obtain ⟨⟨-, hchannels, -⟩, -⟩ := h
  exact hchannels

theorem stereoFrames_output {b d m : Nat} {s t : State} (h : stereoFrames .input b .output d m s = .ok t) :
    ∀ a, d + 12 * m ≤ a → t.byteAt .output a = s.byteAt .output a := by
  intro a ha
  obtain ⟨s1, s2, tl, tr, hleft, hright, htl, htr, hw⟩ := stereoFrames_ok.1 h
  obtain ⟨-, hb1, -⟩ := runBlock_keeps hleft
  obtain ⟨-, hb2, -⟩ := runBlock_keeps hright
  obtain ⟨-, rfl⟩ := writeBytes_ok.1 hw
  have hl := (readBytes_ok.1 htl).1
  have hr := (readBytes_ok.1 htr).1
  rw [dst_space_output, byteAt_setMem_writeList, interleave_length_of_eq (hl.trans hr.symm), hl, if_neg (by omega),
    hb2 .output (by simp), hb1 .output (by simp)]

theorem stereoPasses_output {k ic oc n : Nat} {s t : State} (hm : s.channels = .stereo)
    (h : stereoPasses k ic oc n s = .ok t) : ∀ a, oc + n * s.gout ≤ a → t.byteAt .output a = s.byteAt .output a := by
  induction k generalizing ic oc n s with
  | zero => cases h; exact fun _ _ => rfl
  | succ k ih =>
    rw [stereoPasses] at h
    split at h
    next => cases h; exact fun _ _ => rfl
    next =>
      split at h
      next => cases h
      next u hu =>
        intro a ha
        have hkept := (stereoFrames_keeps hm hu).kept
        have hgout : s.gout = 12 := by rw [State.gout, hm]; rfl
        have hpass : min n Config.chunkPkts ≤ n := Nat.min_le_left _ _
        rw [ih ((kept_channels hkept).trans hm) h a (by rw [hkept.gout]; rw [hgout] at ha ⊢; omega),
          stereoFrames_output hu a (by rw [hgout] at ha; omega)]

theorem direct_output {c : Cursor} {n : Nat} {s t : State} (h : direct c n s = .ok t) :
    ∀ a, c.oc + n * s.gout ≤ a → t.byteAt .output a = s.byteAt .output a := by
  unfold direct at h
  cases hm : s.channels with
  | mono =>
    rw [hm] at h
    intro a ha
    have hgout : s.gout = 6 := by rw [State.gout, hm]; rfl
    obtain ⟨_, _, -, -, -, -, hbytes⟩ := runBlock_result (monoFrames_ok.1 h)
    rw [hbytes, if_neg (by dsimp only; rw [hgout] at ha; omega)]
  | stereo =>
    rw [hm] at h
    exact stereoPasses_output hm h

/-- A turn moves its output cursor forward and leaves OUT from the new cursor on. -/
theorem turn_output {c : Cursor} {s : State} {r : Turn} (h : adapterTurn c s = .ok r) :
    c.oc ≤ (Turn.cursor r).oc ∧
      ∀ a, (Turn.cursor r).oc ≤ a → (Turn.state r).byteAt .output a = s.byteAt .output a := by
  cases hs : s.state with
  | init =>
    simp only [adapterTurn, hs] at h
    obtain ⟨t, ht, rfl⟩ := initState_ok.1 h
    have hbytes : ∀ a, (afterDirect c s).oc ≤ a → t.byteAt .output a = s.byteAt .output a := by
      split at ht
      next => exact direct_output ht
      next => cases ht; exact fun _ _ => rfl
    split
    next => exact ⟨Nat.le_add_right _ _, hbytes⟩
    next => exact ⟨Nat.le_add_right _ _, hbytes⟩
  | fillingCache =>
    simp only [adapterTurn, hs] at h
    obtain ⟨-, vs, t, -, hw, rfl⟩ := fillingCacheState_ok.1 h
    obtain ⟨-, rfl⟩ := writeBytes_ok.1 hw
    split
    next => exact ⟨Nat.le_refl _, fun _ _ => rfl⟩
    next => exact ⟨Nat.le_refl _, fun _ _ => rfl⟩
  | processCache =>
    simp only [adapterTurn, hs] at h
    obtain ⟨t, ht, rfl⟩ := processCacheState_ok.1 h
    have hkeeps : DecodeKeeps s t .ocache := by
      rcases ht with ⟨-, ht⟩ | ⟨hm, ht⟩
      · exact monoFrames_keeps ht
      · exact stereoFrames_keeps hm ht
    exact ⟨Nat.le_refl _, fun a _ => hkeeps.others .output (by decide) (by decide) (by decide) a⟩
  | cacheFull =>
    simp only [adapterTurn, hs] at h
    obtain ⟨-, vs, t, hread, hw, rfl⟩ := cacheFullState_ok.1 h
    obtain ⟨-, rfl⟩ := writeBytes_ok.1 hw
    have hlen := (readBytes_ok.1 hread).1
    have hbytes : ∀ a, c.oc + drainCount c s ≤ a →
        (s.setMem .output (Memory.writeList (s.mem .output) c.oc vs)).byteAt .output a = s.byteAt .output a := by
      intro a ha
      rw [byteAt_setMem_writeList, if_neg (by omega)]
    split
    next => exact ⟨Nat.le_add_right _ _, hbytes⟩
    next => exact ⟨Nat.le_add_right _ _, hbytes⟩

theorem adapterLoop_output {k : Nat} {c d : Cursor} {s t : State} (h : adapterLoop k c s = .ok (t, d)) :
    ∀ a, d.oc ≤ a → t.byteAt .output a = s.byteAt .output a := by
  have hturn : ∀ (u : State) (e : Cursor) (r : Turn), (∀ a, e.oc ≤ a → u.byteAt .output a = s.byteAt .output a) →
      adapterTurn e u = .ok r →
      ∀ a, (Turn.cursor r).oc ≤ a → (Turn.state r).byteAt .output a = s.byteAt .output a := by
    intro u e r hu hr a ha
    obtain ⟨hle, hbytes⟩ := turn_output hr
    rw [hbytes a ha, hu a (hle.trans ha)]
  exact adapterLoop_keeps (I := fun u e => ∀ a, e.oc ≤ a → u.byteAt .output a = s.byteAt .output a)
    (fun u e _ _ hu hr => hturn u e _ hu hr) (fun u e _ _ hu hr => hturn u e _ hu hr) (fun _ _ => rfl) h

/-- What a PROCESS in a mono session leaves alone: PS[2] and both scratch buffers (R26, R39). -/
structure MonoKept (s t : State) : Prop where
  right : t.right = s.right
  scratchL : ∀ a, t.byteAt .scratchL a = s.byteAt .scratchL a
  scratchR : ∀ a, t.byteAt .scratchR a = s.byteAt .scratchR a

theorem MonoKept.refl (s : State) : MonoKept s s := ⟨rfl, fun _ => rfl, fun _ => rfl⟩

theorem MonoKept.trans {s t u : State} (h : MonoKept s t) (k : MonoKept t u) : MonoKept s u :=
  ⟨k.right.trans h.right, fun a => (k.scratchL a).trans (h.scratchL a), fun a => (k.scratchR a).trans (h.scratchR a)⟩

theorem adapterLoop_mono {k : Nat} {c d : Cursor} {s t : State} (hm : s.channels = .mono)
    (h : adapterLoop k c s = .ok (t, d)) : MonoKept s t := by
  have hturn : ∀ (u : State) (e : Cursor) (r : Turn), KeptTurn s u ∧ MonoKept s u → adapterTurn e u = .ok r →
      KeptTurn s (Turn.state r) ∧ MonoKept s (Turn.state r) := by
    rintro u e r ⟨hkept, hmono⟩ hr
    obtain ⟨hkept', hmono'⟩ := turn_keeps hr
    obtain ⟨hright, hl, hrr⟩ := hmono' ((keptTurn_channels hkept).trans hm)
    exact ⟨hkept.trans hkept', hmono.trans ⟨hright, hl, hrr⟩⟩
  exact (adapterLoop_keeps (I := fun u _ => KeptTurn s u ∧ MonoKept s u) (fun u e _ _ hu hr => hturn u e _ hu hr)
    (fun u e _ _ hu hr => hturn u e _ hu hr) ⟨KeptTurn.refl s, MonoKept.refl s⟩ h).2

/-- A PROCESS that completes is its loop's last state with the report of its cursors. -/
theorem exec_process_next {s t : State} (h : exec .process s = .next t) :
    ∃ u d, adapterLoop maxTurns ⟨0, 0⟩ s = .ok (u, d) ∧ t = report u d := by
  obtain ⟨-, -, -, hrun⟩ := execProcess_next.1 h
  exact runProcess_ok.1 hrun

/-- Settles O29: `produced` is the output cursor the report hands back. -/
theorem processFrame : Obligations.ProcessFrame := by
  intro s t h
  obtain ⟨hsetting, hinput⟩ := execProcess_frame h
  obtain ⟨u, d, hloop, rfl⟩ := exec_process_next h
  refine ⟨hsetting, hinput, ⟨d.ic, d.oc, _, report_response u d, fun a ha => ?_⟩, fun hm => ?_⟩
  · rw [report_byteAt]
    exact adapterLoop_output hloop a ha
  · obtain ⟨hright, hl, hr⟩ := adapterLoop_mono hm hloop
    exact ⟨hright, fun a => by rw [report_byteAt, hl], fun a => by rw [report_byteAt, hr]⟩

/-- Settles O48: the issue puts the host's two arrays into the spaces that PROCESS then leaves so. -/
theorem outputBeyondProducedIsKept : Obligations.OutputBeyondProducedIsKept := by
  intro s t word lines h rest hp hd hstep
  rw [step_of_decode hp hd] at hstep
  obtain ⟨-, hinput, ⟨consumed, produced, status, hresponse, hbeyond⟩, -⟩ := processFrame _ t hstep
  obtain ⟨hin, hout⟩ := issue_bytes (tr := ⟨.command word, lines, some h⟩) rfl s rest
  exact ⟨consumed, produced, status, hresponse, fun a ha => (hbeyond a ha).trans (hout a),
    fun a => (hinput a).trans (hin a)⟩

end Sys2Proof.Proofs

/-! PROOFS. R173 to R182 and R188 to R190: PROCESS at its boundaries, run turn by turn. -/

namespace Sys2Proof.Proofs

open Sys2Proof Sys2Proof.Machine Sys2Proof.Safety Sys2Proof.Laws

/-! ### Running a PROCESS turn by turn -/

theorem adapterLoop_of_halt {k : Nat} {c d : Cursor} {s t : State} (h : adapterTurn c s = .ok (.halt t d)) :
    adapterLoop (k + 1) c s = .ok (t, d) :=
  adapterLoop_ok.2 (.inl h)

theorem adapterLoop_of_goOn {k : Nat} {c d e : Cursor} {s t u : State} (h : adapterTurn c s = .ok (.goOn t d))
    (hrest : adapterLoop k d t = .ok (u, e)) : adapterLoop (k + 1) c s = .ok (u, e) :=
  adapterLoop_ok.2 (.inr ⟨t, d, h, hrest⟩)

theorem exec_process_of_loop {s t : State} {d : Cursor} (ha : ProcessAllowed s)
    (h : adapterLoop maxTurns ⟨0, 0⟩ s = .ok (t, d)) : exec .process s = .next (report t d) := by
  obtain ⟨hb, hcodec, hchannels, -⟩ := ha
  exact execProcess_next.2 ⟨hb, hcodec, hchannels, runProcess_ok.2 ⟨t, d, h, rfl⟩⟩

theorem directCount_of_input_short {c : Cursor} {s : State} (h : s.ilen - c.ic < s.gin) : directCount c s = 0 := by
  rw [directCount, Nat.div_eq_of_lt h, Nat.zero_min]

theorem directCount_of_output_short {c : Cursor} {s : State} (h : s.olen - c.oc < s.gout) : directCount c s = 0 := by
  rw [directCount, Nat.div_eq_of_lt h, Nat.min_zero]

theorem afterDirect_noFrames {c : Cursor} {s : State} (h0 : directCount c s = 0) : afterDirect c s = c := by
  simp only [afterDirect, h0, Nat.zero_mul, Nat.add_zero]

/-- Without a whole frame to take or room for one, Init decodes nothing and goes on with the input left (R173). -/
theorem init_turn_noFrames {c : Cursor} {s : State} (hs : s.state = .init) (h0 : directCount c s = 0)
    (hin : c.ic < s.ilen) : adapterTurn c s = .ok (.goOn (s.setAdapter 0 .fillingCache) c) := by
  simp only [adapterTurn, hs]
  refine initState_ok.2 ⟨s, by rw [h0]; rfl, ?_⟩
  rw [afterDirect_noFrames h0, if_pos (Nat.sub_pos_of_lt hin)]

/-- With no input left Init halts (R173). -/
theorem init_turn_noInput {c : Cursor} {s : State} (hs : s.state = .init) (hin : s.ilen ≤ c.ic) :
    adapterTurn c s = .ok (.halt s c) := by
  have hleft : s.ilen - c.ic = 0 := Nat.sub_eq_zero_of_le hin
  have h0 : directCount c s = 0 := directCount_of_input_short (by rw [hleft]; exact gin_pos s)
  simp only [adapterTurn, hs]
  refine initState_ok.2 ⟨s, by rw [h0]; rfl, ?_⟩
  rw [afterDirect_noFrames h0, hleft, if_neg (Nat.lt_irrefl 0)]

/-- FillingCache that takes all the input without completing the frame halts with it in the cache (R177, R190). -/
theorem filling_turn_part {c : Cursor} {s : State} {vs : List Byte} (hs : s.state = .fillingCache)
    (hpart : s.cacheSize + (s.ilen - c.ic) < s.gin) (hread : readBytes s .input c.ic (s.ilen - c.ic) = .ok vs) :
    adapterTurn c s =
      .ok (.halt ((s.setMem .icache (Memory.writeList (s.mem .icache) s.cacheSize vs)).setCacheSize
        (s.cacheSize + (s.ilen - c.ic))) ⟨c.ic + (s.ilen - c.ic), c.oc⟩) := by
  have hcount : fillCount c s = s.ilen - c.ic := Nat.min_eq_left (by omega)
  have hlen := (readBytes_ok.1 hread).1
  have hgin := gin_le s
  simp only [adapterTurn, hs]
  refine fillingCacheState_ok.2 ⟨by omega, vs, _, by rw [hcount]; exact hread,
    writeBytes_ok.2 ⟨by rw [spaceSize_icache]; omega, rfl⟩, ?_⟩
  rw [hcount, if_neg (by omega)]

/-- CacheFull delivers what fits of the bytes due, the oldest first (R179). -/
theorem full_turn_eq {c : Cursor} {s : State} {vs : List Byte} (hs : s.state = .cacheFull) (hle : s.cacheSize ≤ s.gout)
    (hread : readBytes s .ocache (s.gout - s.cacheSize) (drainCount c s) = .ok vs) :
    adapterTurn c s =
      .ok (if s.cacheSize - drainCount c s = 0 then
          .goOn ((s.setMem .output (Memory.writeList (s.mem .output) c.oc vs)).setAdapter 0 .init)
            ⟨c.ic, c.oc + drainCount c s⟩
        else .halt ((s.setMem .output (Memory.writeList (s.mem .output) c.oc vs)).setCacheSize
            (s.cacheSize - drainCount c s)) ⟨c.ic, c.oc + drainCount c s⟩) := by
  have hlen := (readBytes_ok.1 hread).1
  have hroom : drainCount c s ≤ s.olen - c.oc := Nat.min_le_left _ _
  simp only [adapterTurn, hs]
  exact cacheFullState_ok.2 ⟨hle, vs, _, hread, writeBytes_ok.2 ⟨by rw [spaceSize_output]; omega, rfl⟩, rfl⟩

/-! ### No progress (R188) -/

/-- A PROCESS whose first turn halts without progress leaves the state and reports no counts. -/
theorem exec_process_noProgress {s : State} (ha : ProcessAllowed s)
    (h : adapterTurn ⟨0, 0⟩ s = .ok (.halt s ⟨0, 0⟩)) :
    exec .process s = .next (s.respond (.process 0 0 (statusOf 0 s.ilen 0 s.olen))) := by
  rw [exec_process_of_loop ha (adapterLoop_of_halt (k := 6) h)]
  simp only [report, State.respond, BitVec.add_zero]

/-- With all input consumed and nothing produced the status says whether there was output space (R181). -/
theorem statusOf_allConsumed (ilen olen : Nat) :
    statusOf ilen ilen 0 olen = if olen = 0 then .ok else .dataStarvation := by
  simp only [statusOf, Nat.pos_iff_ne_zero, ite_not, Nat.lt_irrefl, if_false]

/-- With no output space the status says whether there was input left (R181). -/
theorem statusOf_noOutput (consumed ilen : Nat) :
    statusOf consumed ilen 0 0 = if consumed < ilen then .bufferTooSmall else .ok := by
  rw [statusOf, if_neg (Nat.lt_irrefl 0)]

/-- Settles O34: the first turn halts with nothing moved. -/
theorem processAtTheBoundaries : Obligations.ProcessAtTheBoundaries := by
  refine ⟨fun s hc ha hi hst => ?_, fun s hc ha ho hst => ?_⟩
  · have hnone : adapterTurn ⟨0, 0⟩ s = .ok (.halt s ⟨0, 0⟩) := by
      rcases hst with hst | hst
      · exact init_turn_noInput hst (Nat.le_of_eq hi)
      · obtain ⟨hlt, -⟩ := (sessionConsistent_of_fillingCache hst).1 hc
        rw [filling_turn_part (vs := []) hst (by rw [hi]; exact hlt) (by rw [hi]; rfl), writeList_nil, setMem_self, hi]
        rfl
    have hrun := exec_process_noProgress ha hnone
    rw [hi, statusOf_allConsumed] at hrun
    exact hrun
  · obtain ⟨hpos, hle, -⟩ := (sessionConsistent_of_cacheFull hst).1 hc
    have hcount : drainCount ⟨0, 0⟩ s = 0 := by rw [drainCount, ho, Nat.zero_sub, Nat.zero_min]
    have hnone : adapterTurn ⟨0, 0⟩ s = .ok (.halt s ⟨0, 0⟩) := by
      rw [full_turn_eq (vs := []) hst hle (by rw [hcount]; rfl), hcount, Nat.sub_zero, if_neg (by omega), writeList_nil,
        setMem_self]
      rfl
    have hrun := exec_process_noProgress ha hnone
    simp only [ho, statusOf_noOutput, Nat.pos_iff_ne_zero, ite_not] at hrun
    exact hrun

/-! ### One turn after another -/

/-- Settles O36: Init finds no whole frame, and FillingCache takes all there is. -/
theorem partialFrameIsHeld : Obligations.PartialFrameIsHeld := by
  intro s hc ha hst hpos hshort
  have hgin := gin_le s
  have ⟨_, _, _, hreadable⟩ := ha
  obtain ⟨vs, hread⟩ := readInput hreadable (a := 0) (n := s.ilen) (by omega)
  obtain ⟨hlen, hbyte⟩ := readBytes_ok.1 hread
  have hinit := init_turn_noFrames (c := ⟨0, 0⟩) hst (directCount_of_input_short (by rwa [Nat.sub_zero])) hpos
  have hfill := filling_turn_part (c := ⟨0, 0⟩) (s := s.setAdapter 0 .fillingCache) (vs := vs) rfl
    (by simpa using hshort) ((readBytes_setAdapter ..).trans hread)
  have hexec := exec_process_of_loop ha (adapterLoop_of_goOn hinit (adapterLoop_of_halt (k := 5) hfill))
  simp only [setAdapter_ilen, setAdapter_cacheSize, Nat.sub_zero, Nat.zero_add] at hexec
  refine ⟨_, hexec, ?_, by simp, by simp, by simp, by simp, fun sp a hout => ?_, fun k hk => ?_⟩
  · rw [report_response, setCacheSize_ilen, setCacheSize_olen, setMem_ilen, setMem_olen, setAdapter_ilen,
      setAdapter_olen, statusOf_allConsumed]
  · rw [report_byteAt, setCacheSize_byteAt, byteAt_setMem_writeList, hlen, if_neg hout, setAdapter_byteAt]
  · have hk' := (hbyte k hk).2
    rw [Nat.zero_add] at hk'
    rw [report_byteAt, setCacheSize_byteAt, byteAt_setMem_writeList, hlen, if_pos ⟨rfl, by omega, by omega⟩,
      Nat.sub_zero, hk']

/-- Settles O37: CacheFull delivers all that is due, and Init finds no input. -/
theorem drainDeliversEveryCachedByte : Obligations.DrainDeliversEveryCachedByte := by
  intro s hc ha hst hi hroom
  obtain ⟨-, hle, hdue⟩ := (sessionConsistent_of_cacheFull hst).1 hc
  obtain ⟨vs, hread⟩ := readBytes_total hdue
  obtain ⟨hlen, hbyte⟩ := readBytes_ok.1 hread
  have hcount : drainCount ⟨0, 0⟩ s = s.cacheSize := Nat.min_eq_right hroom
  have hfull := full_turn_eq (c := ⟨0, 0⟩) hst hle (by rw [hcount]; exact hread)
  rw [hcount, Nat.sub_self, if_pos rfl, Nat.zero_add] at hfull
  obtain ⟨t, ht⟩ : ∃ t, t = s.setMem .output (Memory.writeList (s.mem .output) 0 vs) := ⟨_, rfl⟩
  have hti : t.ilen = 0 := by rw [ht, setMem_ilen, hi]
  rw [← ht] at hfull
  have hinit := init_turn_noInput (c := ⟨0, s.cacheSize⟩) (s := t.setAdapter 0 .init) rfl (Nat.le_of_eq hti)
  refine ⟨_, _, exec_process_of_loop ha (adapterLoop_of_goOn hfull (adapterLoop_of_halt (k := 5) hinit)),
    report_response .., rfl, rfl, by simp [ht], by simp [ht], fun j hj => ?_, fun sp a hout => ?_⟩
  · rw [report_byteAt, setAdapter_byteAt, ht, byteAt_setMem_writeList, hlen, if_pos ⟨rfl, by omega, by omega⟩,
      Nat.sub_zero, (hbyte j hj).2]
  · rw [report_byteAt, setAdapter_byteAt, ht, byteAt_setMem_writeList, hlen, if_neg hout]

/-- Settles O35: Init takes no frame for want of room, FillingCache takes one, ProcessCache decodes it, CacheFull
delivers nothing. -/
theorem noOutputSpaceTakesOneFrame : Obligations.NoOutputSpaceTakesOneFrame := by
  intro s hc ha ho hst hin
  have ⟨_, _, _, hreadable⟩ := ha
  have hgin := gin_pos s
  have hgout := gout_pos s
  obtain ⟨held, due, hplace⟩ := inStream_of_consistent hc hreadable
  have hinit := init_turn_noFrames (c := ⟨0, 0⟩) hst (directCount_of_output_short (by rw [ho]; exact hgout))
    (hgin.trans_le hin)
  rcases init_turn hplace hst with ⟨t1, d1, h1, k1, i1, hst1, hsize1, -⟩ | ⟨t1, d1, h1, -⟩
  case inr =>
    rw [hinit] at h1
    cases h1
  obtain ⟨rfl, rfl⟩ : s.setAdapter 0 .fillingCache = t1 ∧ (⟨0, 0⟩ : Cursor) = d1 := by
    rw [hinit] at h1
    cases h1
    exact ⟨rfl, rfl⟩
  rcases filling_turn i1 hst1 with ⟨t2, d2, h2, k2, i2, hst2, rfl⟩ | ⟨t2, d2, h2, -, -, -, -, -, hlt, -⟩
  case inr =>
    simp only [setAdapter_ilen, setAdapter_gin, setAdapter_cacheSize] at hlt
    omega
  rcases process_turn i2 hst2 with ⟨t3, d3, h3, k3, i3, hst3, hsize3, rfl⟩ | ⟨_, _, _, _, _, hfalse⟩
  case inr => exact hfalse.elim
  have kept := (k1.trans k2).trans k3
  rw [k2.gout, k1.gout] at hsize3
  simp only [setAdapter_gin, setAdapter_cacheSize, Nat.zero_add, Nat.sub_zero] at h2 h3 i3
  rcases full_turn i3 hst3 with ⟨t4, d4, h4, k4, i4, -, -, hle, -⟩ | ⟨t4, d4, h4, k4, i4, hst4, hsize4, rfl, -⟩
  case inl =>
    rw [kept.olen, ho] at hle
    omega
  rw [kept.olen, ho] at h4 hsize4
  have hloop := adapterLoop_of_goOn hinit (adapterLoop_of_goOn h2 (adapterLoop_of_goOn h3
    (adapterLoop_of_halt (k := 3) h4)))
  refine ⟨_, exec_process_of_loop ha hloop, ?_, hst4, ?_⟩
  · rw [report_response, (kept.trans k4).ilen, (kept.trans k4).olen, ho, statusOf_noOutput]
  · rw [report_cacheSize, hsize4, hsize3, Nat.zero_sub, Nat.sub_zero]

end Sys2Proof.Proofs

/-! PROOFS. R180 to R182 and R187 to R191: PROCESS against the reference decode of the stream. A PROCESS from a place in
a stream completes with exact counts and stands at the place its counts say; so the place after any run of commands is
determined by the bytes consumed, however they were cut. -/

namespace Sys2Proof.Proofs

open Sys2Proof Sys2Proof.Machine Sys2Proof.Safety Sys2Proof.Laws

/-! ### Counts, status and totals -/

/-- Where one of the two buffers is used up, the status names the other's rest (R181). -/
theorem statusOf_iff {consumed ilen produced olen : Nat} (hc : consumed ≤ ilen) (hp : produced ≤ olen)
    (huse : consumed = ilen ∨ produced = olen) :
    (statusOf consumed ilen produced olen = .dataStarvation ↔ produced < olen) ∧
    (statusOf consumed ilen produced olen = .bufferTooSmall ↔ consumed < ilen) ∧
    (statusOf consumed ilen produced olen = .ok ↔ consumed = ilen ∧ produced = olen) := by
  unfold statusOf
  by_cases hstarved : produced < olen
  · simp only [if_pos hstarved, reduceCtorEq, false_iff, true_iff]
    omega
  · by_cases hsmall : consumed < ilen
    · simp only [if_neg hstarved, if_pos hsmall, reduceCtorEq, false_iff, true_iff]
      omega
    · simp only [if_neg hstarved, if_neg hsmall, reduceCtorEq, false_iff, true_iff]
      omega

/-- A total advances modulo 2^64 (R34, R182). -/
theorem toNat_total (x : U64) (n : Nat) : (x + BitVec.ofNat 64 n).toNat = (x.toNat + n) % 2 ^ 64 := by
  rw [BitVec.toNat_add, BitVec.toNat_ofNat, Nat.add_mod_mod]

/-- Settles O28: a consistent session stands at a place in a stream, and the loop from there uses IN or OUT up. -/
theorem processCompletesWithStatus : Obligations.ProcessCompletesWithStatus := by
  intro s hc ha
  have ⟨_, _, _, hreadable⟩ := ha
  obtain ⟨_, _, hplace⟩ := inStream_of_consistent hc hreadable
  obtain ⟨t, d, hexec, -, hkept, hplace', -, huse⟩ := process_runs ha hplace
  obtain ⟨hic, hoc, -, _, outs, -, -, -, -, hout, -⟩ := hplace'
  have ⟨_, htotalIn, htotalOut, _⟩ := hkept
  rw [hkept.ilen] at hic
  rw [hkept.olen] at hoc
  obtain ⟨hstarved, hsmall, hok⟩ := statusOf_iff hic hoc huse
  refine ⟨_, d.ic, d.oc, statusOf d.ic s.ilen d.oc s.olen, hexec, ?_, hic, hoc, huse, hstarved, hsmall, hok, ?_, ?_,
    fun k hk => ?_, exec_consistent hexec hc⟩
  · rw [report_response, hkept.ilen, hkept.olen]
  · rw [report_totalIn, toNat_total, htotalIn]
  · rw [report_totalOut, toNat_total, htotalOut]
  · obtain ⟨hlen, hbyte⟩ := readBytes_ok.1 hout
    have hk' := (hbyte k hk).2
    rw [Nat.zero_add] at hk'
    rw [report_byteAt, hk', List.getElem?_eq_getElem (by omega)]
    rfl

/-! ### The place in the stream between commands -/

@[simp] theorem readBytes_report (s : State) (c : Cursor) (sp : SpaceName) (a n : Nat) :
    readBytes (report s c) sp a n = readBytes s sp a n :=
  readBytes_of_same (report_spaceSize ..) (fun _ => report_byteAt ..) a n

theorem heldInput_of_turnInput {s : State} {held : List Byte} (hs : s.state ≠ .processCache) (h : TurnInput s held) :
    HeldInput s held := by
  unfold TurnInput at h
  unfold HeldInput
  cases hst : s.state with
  | init => rw [hst] at h; exact h
  | fillingCache =>
    rw [hst] at h
    obtain ⟨hlt, hread⟩ := h
    have hlen := (readBytes_ok.1 hread).1
    exact ⟨by omega, hlen, hread⟩
  | processCache => exact absurd hst hs
  | cacheFull => rw [hst] at h; exact h

theorem heldOutput_of_turnOutput {s : State} {due : List Byte} (hs : s.state ≠ .processCache) (h : TurnOutput s due) :
    HeldOutput s due := by
  unfold TurnOutput at h
  unfold HeldOutput
  cases hst : s.state with
  | init => rw [hst] at h; exact h
  | fillingCache => rw [hst] at h; exact h
  | processCache => exact absurd hst hs
  | cacheFull =>
    rw [hst] at h
    obtain ⟨hpos, hle, hread⟩ := h
    exact ⟨hpos, hle, (readBytes_ok.1 hread).1, hread⟩

/-- What the reference decode reads of a session. -/
def SameDecoder (s t : State) : Prop :=
  t.codec = s.codec ∧ t.channels = s.channels ∧ t.rom = s.rom ∧ t.symOrder3 = s.symOrder3

theorem SameDecoder.gin {s t : State} (h : SameDecoder s t) : t.gin = s.gin := by
  obtain ⟨hcodec, hchannels, -⟩ := h
  rw [State.gin, hcodec, hchannels]
  rfl

theorem SameDecoder.gout {s t : State} (h : SameDecoder s t) : t.gout = s.gout := by
  obtain ⟨-, hchannels, -⟩ := h
  rw [State.gout, hchannels]
  rfl

theorem SameDecoder.referenceDecode {s t : State} (h : SameDecoder s t) (base : Predictor × Predictor)
    (bs : List Byte) : Safety.referenceDecode t base bs = Safety.referenceDecode s base bs := by
  obtain ⟨hcodec, hchannels, hrom, horder⟩ := h
  simp only [Safety.referenceDecode, hcodec, hchannels, hrom, horder]

/-- What the place a session stands at sees of the state. -/
structure SamePlace (s t : State) : Prop where
  decoder : SameDecoder s t
  state : t.state = s.state
  cacheSize : t.cacheSize = s.cacheSize
  left : t.left = s.left
  right : t.right = s.right
  icache : ∀ a n, readBytes t .icache a n = readBytes s .icache a n
  ocache : ∀ a n, readBytes t .ocache a n = readBytes s .ocache a n

theorem SamePlace.streamAt {s t : State} {base : Predictor × Predictor} {taken given : List Byte} (k : SamePlace s t)
    (h : StreamAt s base taken given) : StreamAt t base taken given := by
  obtain ⟨whole, held, due, hin, hout, htaken, hwhole, hdecode⟩ := h
  refine ⟨whole, held, due, ?_, ?_, htaken, by rw [k.decoder.gin]; exact hwhole, ?_⟩
  · unfold HeldInput at hin ⊢
    rw [k.state, k.cacheSize, k.decoder.gin, k.icache]
    exact hin
  · unfold HeldOutput at hout ⊢
    rw [k.state, k.cacheSize, k.decoder.gout, k.ocache]
    exact hout
  · rw [k.left, k.right, k.decoder.referenceDecode, hdecode]

theorem samePlace_report (s : State) (c : Cursor) : SamePlace s (report s c) :=
  ⟨⟨rfl, rfl, rfl, rfl⟩, rfl, rfl, rfl, rfl, readBytes_report s c .icache, readBytes_report s c .ocache⟩

/-- The place the loop ends at is the place its cursors say. -/
theorem streamAt_of_inStream {s : State} {c : Cursor} {base : Predictor × Predictor} {taken given : List Byte}
    (hs : s.state ≠ .processCache) (h : InStream (base, []) taken given s c) :
    ∃ ins outs, readBytes s .input 0 c.ic = .ok ins ∧ readBytes s .output 0 c.oc = .ok outs ∧
      StreamAt s base (taken ++ ins) (given ++ outs) := by
  obtain ⟨-, -, -, ins, outs, whole, held, due, hins, houts, hin, hout, htaken, hwhole, hdecode⟩ := h
  exact ⟨ins, outs, hins, houts, whole, held, due, heldInput_of_turnInput hs hin, heldOutput_of_turnOutput hs hout,
    htaken, hwhole, hdecode⟩

/-- A PROCESS from a place in a stream completes and stands where its counts say, under the same setting. -/
theorem process_streamAt {s : State} {base : Predictor × Predictor} {taken given : List Byte}
    (h : StreamAt s base taken given) (ha : ProcessAllowed s) :
    ∃ t d ins outs, exec .process s = .next (report t d) ∧ KeptTurn s t ∧
      readBytes s .input 0 d.ic = .ok ins ∧ readBytes (report t d) .output 0 d.oc = .ok outs ∧
      StreamAt (report t d) base (taken ++ ins) (given ++ outs) := by
  have ⟨_, _, _, hreadable⟩ := ha
  obtain ⟨t, d, hexec, -, hkept, hplace, hst, -⟩ := process_runs ha (inStream_of_streamAt h hreadable)
  obtain ⟨ins, outs, hins, houts, hstream⟩ := streamAt_of_inStream hst hplace
  refine ⟨t, d, ins, outs, hexec, hkept, ?_, ?_, (samePlace_report t d).streamAt hstream⟩
  · rw [← hkept.readInput]
    exact hins
  · rw [readBytes_report]
    exact houts

/-- Settles O30. -/
theorem processContinuesTheStream : Obligations.ProcessContinuesTheStream := by
  intro s base taken given h ha
  obtain ⟨t, d, ins, outs, hexec, -, hins, houts, hstream⟩ := process_streamAt h ha
  exact ⟨_, d.ic, d.oc, _, ins, outs, hexec, report_response t d, hins, houts, hstream⟩

/-! ### What a place in a stream determines -/

theorem heldInput_length_lt {s : State} {held : List Byte} (h : HeldInput s held) : held.length < s.gin := by
  have hgin := gin_pos s
  unfold HeldInput at h
  split at h
  · exact h.1
  · rw [h]
    exact hgin

theorem heldOutput_eq_nil {s : State} {due : List Byte} (hs : s.state ≠ .cacheFull) (h : HeldOutput s due) :
    due = [] := by
  unfold HeldOutput at h
  split at h
  next => exact h
  next => exact h
  next => exact h.elim
  next hfull => exact absurd hfull hs

/-- Whole frames and less than a frame after them are where the number of whole frames cuts the stream. -/
theorem wholeFrames_split {g : Nat} {whole held : List Byte} (hwhole : whole.length % g = 0) (hheld : held.length < g) :
    whole = (whole ++ held).take ((whole ++ held).length / g * g) ∧
      held = (whole ++ held).drop ((whole ++ held).length / g * g) := by
  have hcut : (whole ++ held).length / g * g = whole.length := by
    obtain ⟨m, hm⟩ := Nat.dvd_of_mod_eq_zero hwhole
    have hdiv : (g * m + held.length) / g = m := by
      rw [Nat.mul_add_div (by omega), Nat.div_eq_of_lt hheld, Nat.add_zero]
    rw [List.length_append, hm, hdiv, Nat.mul_comm]
  rw [hcut, List.take_left, List.drop_left]
  exact ⟨rfl, rfl⟩

/-- A session holds what is left over of the bytes taken after their whole frames, and has delivered the reference
decode of those but for what is due. -/
theorem streamAt_taken {s : State} {base : Predictor × Predictor} {taken given : List Byte}
    (h : StreamAt s base taken given) :
    HeldInput s (taken.drop (taken.length / s.gin * s.gin)) ∧
      ∃ due, HeldOutput s due ∧
        referenceDecode s base (taken.take (taken.length / s.gin * s.gin)) = ((s.left, s.right), given ++ due) := by
  obtain ⟨whole, held, due, hin, hout, rfl, hwhole, hdecode⟩ := h
  obtain ⟨hcut, hrest⟩ := wholeFrames_split hwhole (heldInput_length_lt hin)
  rw [← hcut, ← hrest]
  exact ⟨hin, due, hout, hdecode⟩

/-- A session with nothing due has delivered the reference decode of the whole frames it has taken. -/
theorem streamAt_drained {s : State} {base : Predictor × Predictor} {taken given : List Byte}
    (hs : s.state ≠ .cacheFull) (h : StreamAt s base taken given) :
    referenceDecode s base (taken.take (taken.length / s.gin * s.gin)) = ((s.left, s.right), given) := by
  obtain ⟨-, due, hdue, hdecode⟩ := streamAt_taken h
  rw [hdecode, heldOutput_eq_nil hs hdue, List.append_nil]

/-- A session in Init starts a stream from its Predictor States. -/
theorem streamAt_init {s : State} (hs : s.state = .init) : StreamAt s (s.left, s.right) [] [] :=
  ⟨[], [], [], by simp only [HeldInput, hs], by simp only [HeldOutput, hs], rfl, Nat.zero_mod _, rfl⟩

/-! ### Runs of commands -/

/-- The host's duties that outlast a hand-over. -/
def DutiesKept (s : State) : Prop := s.lines.breach = none ∧ ConfigurationStands s

theorem byteAt_handOver_input (s : State) (h : Handover) (a : Nat) :
    (s.handOver (some h)).byteAt .input a = h.input[a]? := read_ofBytes ..

theorem processAllowed_handOver {s : State} (h : Handover) (hd : DutiesKept s) :
    ProcessAllowed (s.handOver (some h)) := by
  obtain ⟨hb, hcodec, hchannels⟩ := hd
  refine ⟨hb, hcodec, hchannels, fun j hj => ?_⟩
  rw [handOver_some_ilen] at hj
  rw [Nat.zero_add, byteAt_handOver_input, List.getElem?_eq_getElem hj]
  exact ⟨hj, rfl⟩

/-- What is read of IN from offset 0 on is the front of the array handed over. -/
theorem take_of_readBytes_handOver {s : State} {h : Handover} {n : Nat} {vs : List Byte}
    (hread : readBytes (s.handOver (some h)) .input 0 n = .ok vs) : vs = h.input.take n := by
  obtain ⟨hlen, hbyte⟩ := readBytes_ok.1 hread
  refine List.ext_getElem? fun j => ?_
  by_cases hj : j < n
  · rw [List.getElem?_take_of_lt hj, ← (hbyte j hj).2, Nat.zero_add, byteAt_handOver_input]
  · rw [List.getElem?_eq_none (by omega), List.getElem?_eq_none (by rw [List.length_take]; omega)]

/-- The hand-over reaches neither the session nor its caches. -/
theorem samePlace_handOver (s : State) (h : Handover) : SamePlace s (s.handOver (some h)) :=
  ⟨⟨rfl, rfl, rfl, rfl⟩, rfl, rfl, rfl, rfl, readBytes_of_same rfl fun _ => rfl, readBytes_of_same rfl fun _ => rfl⟩

/-- A run of commands is its first command and the run of the others. -/
theorem feed_cons {h : Handover} {hs : List Handover} {s u : State} {ins outs : List Byte}
    (hf : feed (h :: hs) s = some (u, ins, outs)) :
    ∃ t consumed produced status out is os, exec .process (s.handOver (some h)) = .next t ∧
      t.response = .process consumed produced status ∧ readBytes t .output 0 produced = .ok out ∧
      feed hs t = some (u, is, os) ∧ ins = h.input.take consumed ++ is ∧ outs = out ++ os := by
  rw [feed] at hf
  split at hf
  next t hexec =>
    split at hf
    next consumed produced status u' is os hresponse hrest =>
      split at hf
      next out hout =>
        cases hf
        exact ⟨t, consumed, produced, status, out, is, os, hexec, hresponse, hout, hrest, rfl, rfl⟩
      next => cases hf
    next => cases hf
  next => cases hf

/-- A run of commands that completes carries the session's place in the stream on. -/
theorem feed_streamAt {hs : List Handover} {s u : State} {base : Predictor × Predictor}
    {taken given ins outs : List Byte} (h : StreamAt s base taken given) (hd : DutiesKept s)
    (hf : feed hs s = some (u, ins, outs)) :
    StreamAt u base (taken ++ ins) (given ++ outs) ∧ SameDecoder s u := by
  induction hs generalizing s taken given ins outs with
  | nil =>
    cases hf
    rw [List.append_nil, List.append_nil]
    exact ⟨h, rfl, rfl, rfl, rfl⟩
  | cons b hs ih =>
    obtain ⟨t, consumed, produced, status, out, is, os, hexec, hresponse, hout, hrest, rfl, rfl⟩ := feed_cons hf
    obtain ⟨v, d, vs, ws, hexec', hkept, hins, houts, hstream⟩ :=
      process_streamAt ((samePlace_handOver s b).streamAt h) (processAllowed_handOver b hd)
    obtain rfl : t = report v d := by
      rw [hexec] at hexec'
      cases hexec'
      rfl
    obtain ⟨⟨hcodec, hchannels, hrom, horder, -, -, hlines, -⟩, -⟩ := hkept
    obtain ⟨rfl, rfl⟩ : d.ic = consumed ∧ d.oc = produced := by
      rw [report_response] at hresponse
      cases hresponse
      exact ⟨rfl, rfl⟩
    rw [take_of_readBytes_handOver hins, Except.ok.inj (houts.symm.trans hout)] at hstream
    have hd' : DutiesKept (report v d) := by
      unfold DutiesKept ConfigurationStands
      rw [report_lines, report_codec, report_channels, hlines, hcodec, hchannels]
      exact hd
    obtain ⟨hend, hcodec', hchannels', hrom', horder'⟩ := ih hstream hd' hrest
    rw [← List.append_assoc, ← List.append_assoc]
    exact ⟨hend, hcodec'.trans hcodec, hchannels'.trans hchannels, hrom'.trans hrom, horder'.trans horder⟩

/-- A drained run from Init leaves and delivers the reference decode of the whole frames it consumed. -/
theorem feed_drained {hs : List Handover} {s u : State} {ins outs : List Byte} (hs0 : s.state = .init)
    (hd : DutiesKept s) (hf : feed hs s = some (u, ins, outs)) (hu : u.state ≠ .cacheFull) :
    referenceDecode s (s.left, s.right) (ins.take (ins.length / s.gin * s.gin)) = ((u.left, u.right), outs) := by
  obtain ⟨hstream, hsame⟩ := feed_streamAt (streamAt_init hs0) hd hf
  have hdrained := streamAt_drained hu hstream
  rwa [hsame.referenceDecode, hsame.gin, List.nil_append] at hdrained

/-- Settles O31: both runs delivered the reference decode of the same bytes. -/
theorem chunkingInvariance : Obligations.ChunkingInvariance := by
  intro s u u' hs hs' ins outs outs' hinit _ hb hcodec hchannels hf hf' hu hu'
  have hd : DutiesKept s := ⟨hb, hcodec, hchannels⟩
  have hsame := (feed_drained hinit hd hf hu).symm.trans (feed_drained hinit hd hf' hu')
  simp only [Prod.mk.injEq] at hsame
  obtain ⟨⟨hleft, hright⟩, houts⟩ := hsame
  exact ⟨houts, hleft, hright⟩

end Sys2Proof.Proofs

/-! PROOFS. R187 and R173 to R178: one PROCESS with room enough decodes its whole input; it halts in CacheFull only for
want of room. -/

namespace Sys2Proof.Proofs

open Sys2Proof Sys2Proof.Machine Sys2Proof.Safety Sys2Proof.Laws

/-! ### Why a PROCESS halts -/

/-- The direct path leaves the adapter's state, whether it takes a frame or not (R173). -/
theorem directPath_state {c : Cursor} {s t : State}
    (h : (if 0 < directCount c s then direct c (directCount c s) s else .ok s) = .ok t) : t.state = s.state := by
  split at h
  next =>
    obtain ⟨-, ⟨hstate, -⟩, -⟩ := (direct_keeps h).kept
    exact hstate
  next => cases h; rfl

/-- A halt in CacheFull is for want of room, any other for want of input (R173, R177, R179). -/
theorem adapterTurn_halted {c d : Cursor} {s t : State} (h : adapterTurn c s = .ok (.halt t d)) :
    (t.state = .cacheFull → t.olen ≤ d.oc) ∧ (t.state ≠ .cacheFull → t.ilen ≤ d.ic) := by
  have hkept : KeptTurn s t := (turn_keeps h).kept
  rw [hkept.ilen, hkept.olen]
  cases hs : s.state with
  | init =>
    simp only [adapterTurn, hs] at h
    obtain ⟨u, hu, hr⟩ := initState_ok.1 h
    have hstate : u.state = .init := (directPath_state hu).trans hs
    split at hr
    next => cases hr
    next hin =>
      cases hr
      exact ⟨fun hfull => (nomatch hstate.symm.trans hfull), fun _ => by omega⟩
  | fillingCache =>
    simp only [adapterTurn, hs] at h
    obtain ⟨hle, vs, u, -, hw, hr⟩ := fillingCacheState_ok.1 h
    obtain ⟨-, rfl⟩ := writeBytes_ok.1 hw
    split at hr
    next => cases hr
    next hpart =>
      cases hr
      have hcount : fillCount c s = min (s.ilen - c.ic) (s.gin - s.cacheSize) := rfl
      refine ⟨fun hfull => (nomatch hs.symm.trans hfull), fun _ => ?_⟩
      dsimp only
      omega
  | processCache =>
    simp only [adapterTurn, hs] at h
    obtain ⟨u, -, hr⟩ := processCacheState_ok.1 h
    cases hr
  | cacheFull =>
    simp only [adapterTurn, hs] at h
    obtain ⟨hle, vs, u, -, hw, hr⟩ := cacheFullState_ok.1 h
    obtain ⟨-, rfl⟩ := writeBytes_ok.1 hw
    split at hr
    next => cases hr
    next hdue =>
      cases hr
      have hcount : drainCount c s = min (s.olen - c.oc) s.cacheSize := rfl
      refine ⟨fun _ => ?_, fun hne => absurd hs hne⟩
      dsimp only
      omega

theorem adapterLoop_halted {k : Nat} {c d : Cursor} {s t : State} (h : adapterLoop k c s = .ok (t, d)) :
    (t.state = .cacheFull → t.olen ≤ d.oc) ∧ (t.state ≠ .cacheFull → t.ilen ≤ d.ic) := by
  induction k generalizing c s with
  | zero => cases h
  | succ k ih =>
    rcases adapterLoop_ok.1 h with hhalt | ⟨u, e, -, hrest⟩
    · exact adapterTurn_halted hhalt
    · exact ih hrest

/-- FillingCache holds a byte or has one to take. -/
def FillsSomething (s : State) (c : Cursor) : Prop := s.state = .fillingCache → 0 < s.cacheSize + (s.ilen - c.ic)

theorem adapterTurn_fillsSomething {c : Cursor} {s : State} {r : Turn} (hf : FillsSomething s c)
    (h : adapterTurn c s = .ok r) : FillsSomething (Turn.state r) (Turn.cursor r) := by
  have hkept := (turn_keeps h).kept
  unfold FillsSomething
  rw [hkept.ilen]
  cases hs : s.state with
  | init =>
    simp only [adapterTurn, hs] at h
    obtain ⟨u, hu, rfl⟩ := initState_ok.1 h
    split
    next hin => exact fun _ => Nat.lt_add_left _ hin
    next hin =>
      have hstate : u.state = .init := (directPath_state hu).trans hs
      exact fun hfill => nomatch hstate.symm.trans hfill
  | fillingCache =>
    simp only [adapterTurn, hs] at h
    obtain ⟨-, vs, u, -, hw, rfl⟩ := fillingCacheState_ok.1 h
    split
    next => exact nofun
    next =>
      have hcount : fillCount c s ≤ s.ilen - c.ic := Nat.min_le_left _ _
      have hpos := hf hs
      intro _
      simp only [Turn.state, Turn.cursor, setCacheSize_cacheSize]
      omega
  | processCache =>
    simp only [adapterTurn, hs] at h
    obtain ⟨u, -, rfl⟩ := processCacheState_ok.1 h
    exact nofun
  | cacheFull =>
    simp only [adapterTurn, hs] at h
    obtain ⟨-, vs, u, -, hw, rfl⟩ := cacheFullState_ok.1 h
    obtain ⟨-, rfl⟩ := writeBytes_ok.1 hw
    split
    next => exact nofun
    next =>
      exact fun hfill => nomatch hs.symm.trans hfill

theorem adapterLoop_fillsSomething {k : Nat} {c d : Cursor} {s t : State} (hf : FillsSomething s c)
    (h : adapterLoop k c s = .ok (t, d)) : FillsSomething t d :=
  adapterLoop_keeps (I := FillsSomething) (fun _ _ _ _ hu ht => adapterTurn_fillsSomething hu ht)
    (fun _ _ _ _ hu ht => adapterTurn_fillsSomething hu ht) hf h

/-! ### The whole input -/

theorem length_take_wholeFrames (bs : List Byte) (g : Nat) :
    (bs.take (bs.length / g * g)).length = bs.length / g * g := by
  rw [List.length_take, Nat.min_eq_left (Nat.div_mul_le_self _ _)]

theorem length_drop_wholeFrames (bs : List Byte) (g : Nat) : (bs.drop (bs.length / g * g)).length = bs.length % g := by
  have := Nat.div_add_mod bs.length g
  rw [Nat.mul_comm] at this
  rw [List.length_drop]
  omega

/-- The whole frames of a stream decode to `Gout` bytes each. -/
theorem referenceDecode_length (s : State) (base : Predictor × Predictor) (bs : List Byte) :
    (referenceDecode s base (bs.take (bs.length / s.gin * s.gin))).2.length = bs.length / s.gin * s.gout := by
  have hlen := length_take_wholeFrames bs s.gin
  rw [referenceDecode_frames s base hlen]
  exact referenceFrames_length _ _ _ _ _ _ hlen

/-- A stream decodes as its whole frames do. -/
theorem referenceDecode_wholeFrames (s : State) (base : Predictor × Predictor) (bs : List Byte) :
    referenceDecode s base bs = referenceDecode s base (bs.take (bs.length / s.gin * s.gin)) := by
  have hwhole : (bs.take (bs.length / s.gin * s.gin)).length % s.gin = 0 := by
    rw [length_take_wholeFrames, Nat.mul_mod_left]
  have hshort : (bs.drop (bs.length / s.gin * s.gin)).length < s.gin := by
    rw [length_drop_wholeFrames]
    exact Nat.mod_lt _ (gin_pos s)
  have happ := referenceDecode_append s base (bs.drop (bs.length / s.gin * s.gin)) hwhole
  rwa [List.take_append_drop, referenceDecode_short s _ hshort, List.append_nil] at happ

/-- A PROCESS with room for all whole frames does not halt in CacheFull: what it decoded, all of it, fits (R187). -/
theorem ne_cacheFull_of_room {s : State} {base : Predictor × Predictor} {taken given : List Byte}
    (h : StreamAt s base taken given) {ilen : Nat} (htaken : taken.length ≤ ilen)
    (hroom : ilen / s.gin * s.gout ≤ given.length) : s.state ≠ .cacheFull := by
  intro hs
  obtain ⟨-, due, hdue, hdecode⟩ := streamAt_taken h
  have hlen := referenceDecode_length s base taken
  rw [hdecode, List.length_append] at hlen
  have hframes := Nat.mul_le_mul_right s.gout (Nat.div_le_div_right (c := s.gin) htaken)
  simp only [HeldOutput, hs] at hdue
  obtain ⟨hpos, -, hdlen, -⟩ := hdue
  omega

/-- The registers after a drained PROCESS follow from the number of bytes held. -/
theorem registers_of_held {s : State} {c : Cursor} {held : List Byte} (hs : s.state ≠ .cacheFull)
    (hc : SessionConsistent s) (hf : FillsSomething s c) (hin : s.ilen ≤ c.ic) (hheld : HeldInput s held) :
    s.state = (if held.length = 0 then .init else .fillingCache) ∧ s.cacheSize = held.length := by
  cases hst : s.state with
  | init =>
    simp only [HeldInput, hst] at hheld
    rw [hheld]
    exact ⟨rfl, (sessionConsistent_of_init hst).1 hc⟩
  | fillingCache =>
    simp only [HeldInput, hst] at hheld
    obtain ⟨-, hlen, -⟩ := hheld
    have hpos := hf hst
    rw [if_neg (by omega)]
    exact ⟨rfl, hlen.symm⟩
  | processCache => exact absurd hc (not_sessionConsistent_of_processCache hst)
  | cacheFull => exact absurd hst hs

/-- From Init, with room for all whole frames of IN, a PROCESS takes all of IN, and nothing of what it decoded is due. -/
theorem process_takesAll {s : State} {h : Handover} (hinit : s.state = .init) (h0 : s.cacheSize = 0) (hd : DutiesKept s)
    (hroom : h.input.length / s.gin * s.gout ≤ h.output.length) :
    ∃ t d outs, exec .process (s.handOver (some h)) = .next (report t d) ∧ KeptTurn (s.handOver (some h)) t ∧
      d.ic = h.input.length ∧ readBytes t .output 0 d.oc = .ok outs ∧ StreamAt t (s.left, s.right) h.input outs ∧
      t.state ≠ .cacheFull ∧ SessionConsistent t ∧ FillsSomething t d := by
  have ha := processAllowed_handOver h hd
  have ⟨_, _, _, hreadable⟩ := ha
  have hstart := (samePlace_handOver s h).streamAt (streamAt_init hinit)
  obtain ⟨t, d, hexec, hloop, hkept, hplace, hst, -⟩ := process_runs ha (inStream_of_streamAt hstart hreadable)
  have hilen : t.ilen = h.input.length := hkept.ilen
  have holen : t.olen = h.output.length := hkept.olen
  have hic : d.ic ≤ h.input.length := hplace.ic.trans_eq hilen
  obtain ⟨ins, outs, hins, houts, hstream⟩ := streamAt_of_inStream hst hplace
  rw [List.nil_append, List.nil_append] at hstream
  rw [hkept.readInput] at hins
  have hinslen := (readBytes_ok.1 hins).1
  have houtslen := (readBytes_ok.1 houts).1
  obtain ⟨hfull, hrest⟩ := adapterLoop_halted hloop
  have hne : t.state ≠ .cacheFull := by
    intro hcf
    have hused := hfull hcf
    have hgin : t.gin = s.gin := hkept.gin
    have hgout : t.gout = s.gout := hkept.gout
    exact ne_cacheFull_of_room hstream (ilen := h.input.length) (by omega) (by rw [hgin, hgout]; omega) hcf
  have hall : d.ic = h.input.length := Nat.le_antisymm hic (hilen.symm.trans_le (hrest hne))
  obtain rfl : ins = h.input := by rw [take_of_readBytes_handOver hins, hall, List.take_length]
  have hconsistent : SessionConsistent t := adapterLoop_consistent (s := s.handOver (some h))
    (.inl ((sessionConsistent_of_init hinit).2 h0)) hloop
  have hfills : FillsSomething t d := adapterLoop_fillsSomething (s := s.handOver (some h))
    (fun hfill => nomatch hinit.symm.trans hfill) hloop
  exact ⟨t, d, outs, hexec, hkept, hall, houts, hstream, hne, hconsistent, hfills⟩

/-- Settles O32: the place after a PROCESS that took all of IN with nothing due says what was delivered and is held. -/
theorem oneCommandDecodesTheWholeStream : Obligations.OneCommandDecodesTheWholeStream := by
  intro s h hinit h0 hb hconf hroom
  obtain ⟨t, d, outs, hexec, hkept, hall, houts, hstream, hne, hconsistent, hfills⟩ :=
    process_takesAll hinit h0 ⟨hb, hconf⟩ hroom
  have hgin : t.gin = s.gin := hkept.gin
  have hgout : t.gout = s.gout := hkept.gout
  have houtslen := (readBytes_ok.1 houts).1
  have hdecode := streamAt_drained hne hstream
  have hlen := referenceDecode_length t (s.left, s.right) h.input
  rw [hdecode, hgin, hgout] at hlen
  obtain ⟨hheld, -⟩ := streamAt_taken hstream
  have hin : t.ilen ≤ d.ic := Nat.le_of_eq (hkept.ilen.trans hall.symm)
  obtain ⟨hstate, hsize⟩ := registers_of_held hne hconsistent hfills hin hheld
  rw [length_drop_wholeFrames, hgin] at hstate hsize
  rw [hgin] at hheld
  have hresponse := report_response t d
  rw [hall, ← houtslen] at hresponse
  refine ⟨report t d, outs, _, hexec, hresponse, ?_, hlen, ?_, hstate, hsize, ?_⟩
  · rw [readBytes_report, houtslen]
    exact houts
  · rw [referenceDecode_wholeFrames, ← hgin, report_left, report_right, ← hdecode, referenceDecode_congr hkept.1,
      (samePlace_handOver s h).decoder.referenceDecode]
  · unfold HeldInput at hheld ⊢
    rw [report_state, report_cacheSize, report_gin, readBytes_report]
    exact hheld

end Sys2Proof.Proofs

/-! PROOFS. R58, R157 and R175: a stereo PROCESS of whole frames is the two channels' block decodes, interleaved. -/

namespace Sys2Proof.Proofs

open Sys2Proof Sys2Proof.Machine Sys2Proof.Safety Sys2Proof.Laws

theorem interleave_getElem? {l r : List Byte} (h : l.length = r.length) (i : Nat) :
    (interleave l r)[2 * i]? = l[i]? ∧ (interleave l r)[2 * i + 1]? = r[i]? := by
  induction l generalizing r i with
  | nil =>
    obtain rfl : r = [] := List.length_eq_zero_iff.1 h.symm
    exact ⟨rfl, rfl⟩
  | cons x xs ih =>
    cases r with
    | nil => cases h
    | cons y ys =>
      rw [interleave]
      cases i with
      | zero => exact ⟨rfl, rfl⟩
      | succ i => exact ih (Nat.succ.inj h) i

/-- Settles O25. -/
theorem interleavePutsLeftFirst : Obligations.InterleavePutsLeftFirst :=
  fun _ _ h => ⟨interleave_length_of_eq h, fun i _ => interleave_getElem? h i⟩

/-- A block decode of whole frames that are there decodes its channel's lane of them (R55, R56). -/
theorem runBlock_lane_result {codec : Codec} {o : BlockOps} {s t : State} {bs : List Byte}
    (hb : readBytes s o.src.space o.b (o.n * (o.cc * packetBytes codec)) = .ok bs) (h : runBlock codec o s = .ok t) :
    ∃ r, r = decodePackets codec s.symOrder3 s.rom (s.predictor o.ch)
        (lane (packetBytes codec) o.cc (o.ci - 1) o.n bs) ∧
      r.2.length = 6 * o.n ∧ t.predictor o.ch = r.1 ∧ ∀ k < 6 * o.n, t.byteAt o.dst.space (o.d + k) = r.2[k]? := by
  obtain ⟨⟨h1, hcc⟩, -⟩ := runBlock_ok_iff.1 h
  obtain ⟨packets, r, hread, hr, hlen, hpred, hbytes⟩ := runBlock_result h
  obtain rfl := Except.ok.inj (hread.symm.trans (readPackets_lane h1 hcc hb))
  refine ⟨r, hr, hlen, hpred, fun k hk => ?_⟩
  rw [hbytes, if_pos ⟨rfl, by omega, by omega⟩, Nat.add_sub_cancel_left]

/-- Whole frames of input and room for just their output: Init decodes them all and halts (R173). -/
theorem process_wholeFrames {s : State} {n : Nat} (hs : s.state = .init) (ha : ProcessAllowed s)
    (hi : s.ilen = n * s.gin) (ho : s.olen = n * s.gout) :
    ∃ t bs, exec .process s = .next (report t ⟨n * s.gin, n * s.gout⟩) ∧
      readBytes s .input 0 (n * s.gin) = .ok bs ∧ FramesDone s t .output 0 n bs := by
  have ⟨_, _, _, hreadable⟩ := ha
  obtain ⟨bs, hbs⟩ := readInput hreadable (a := 0) (n := n * s.gin) (by omega)
  obtain ⟨t, ht, hdone⟩ := direct_or_skip (c := ⟨0, 0⟩) hbs (.inr (by dsimp only; omega))
  have hcount : directCount ⟨0, 0⟩ s = n := by
    rw [directCount, Nat.sub_zero, Nat.sub_zero, hi, ho, Nat.mul_div_cancel _ (gin_pos s),
      Nat.mul_div_cancel _ (gout_pos s), Nat.min_self]
  have hcursor : afterDirect ⟨0, 0⟩ s = ⟨n * s.gin, n * s.gout⟩ := by
    rw [afterDirect, hcount, Nat.zero_add, Nat.zero_add]
  have hturn : adapterTurn ⟨0, 0⟩ s = .ok (.halt t ⟨n * s.gin, n * s.gout⟩) := by
    simp only [adapterTurn, hs]
    refine initState_ok.2 ⟨t, by rw [hcount]; exact ht, ?_⟩
    rw [hcursor, if_neg (by dsimp only; omega)]
  exact ⟨t, bs, exec_process_of_loop ha (adapterLoop_of_halt (k := 6) hturn), hbs, hdone⟩

/-- Settles O33: the frames decoded by the direct path are the two lanes, which are what the block decodes decode. -/
theorem stereoSymmetry : Obligations.StereoSymmetry := by
  intro s n l r tl tr hs hm ha hi ho hl hr hblock6 hblock3
  obtain ⟨t, bs, hexec, hbs, hdone⟩ := process_wholeFrames hs ha hi ho
  have hblocks : runBlock s.codec l s = .ok tl ∧ runBlock s.codec r s = .ok tr := by
    cases hcodec : s.codec with
    | mace6 => exact (hblock6 hcodec).imp outcome_next.1 outcome_next.1
    | mace3 => exact (hblock3 hcodec).imp outcome_next.1 outcome_next.1
  obtain ⟨hleft, hright⟩ := hblocks
  subst hl hr
  have hgin : s.gin = 2 * packetBytes s.codec := by rw [State.gin, hm, gin, Nat.mul_comm]; rfl
  have hgout : s.gout = 12 := by rw [State.gout, hm]; rfl
  have hframes := referenceFrames_stereo s.codec s.symOrder3 s.rom n (s.left, s.right) (bs := bs)
    (by rw [(readBytes_ok.1 hbs).1, State.gin, hm])
  rw [hgin] at hbs
  obtain ⟨L, hL, hLlen, hLpred, hLbytes⟩ :
      ∃ r, r = decodePackets s.codec s.symOrder3 s.rom s.left (lane (packetBytes s.codec) 2 0 n bs) ∧
        r.2.length = 6 * n ∧ tl.left = r.1 ∧ ∀ k < 6 * n, tl.byteAt .output (0 + k) = r.2[k]? :=
    runBlock_lane_result hbs hleft
  obtain ⟨R, hR, hRlen, hRpred, hRbytes⟩ :
      ∃ r, r = decodePackets s.codec s.symOrder3 s.rom s.right (lane (packetBytes s.codec) 2 1 n bs) ∧
        r.2.length = 6 * n ∧ tr.right = r.1 ∧ ∀ k < 6 * n, tr.byteAt .output (0 + k) = r.2[k]? :=
    runBlock_lane_result hbs hright
  rw [← hL, ← hR] at hframes
  have hilen : t.ilen = n * s.gin := (hdone.kept.spaceSize .input).trans hi
  have holen : t.olen = n * s.gout := (hdone.kept.spaceSize .output).trans ho
  have hbytes : ∀ a < 12 * n, t.byteAt .output a = (interleave L.2 R.2)[a]? := by
    intro a hlt
    rw [hdone.bytes, if_pos (by rw [hgout]; omega), hm, hframes, Nat.sub_zero]
  refine ⟨_, hexec, ?_, ?_, ?_, fun k hk => ?_⟩
  · rw [report_response, hilen, holen, statusOf, if_neg (Nat.lt_irrefl _), if_neg (Nat.lt_irrefl _)]
  · rw [report_left, hdone.left, hm, hframes, hLpred]
  · rw [report_right, hdone.right, hm, hframes, hRpred]
  · obtain ⟨heven, hodd⟩ := interleave_getElem? (hLlen.trans hRlen.symm) k
    have hLk := hLbytes k hk
    have hRk := hRbytes k hk
    rw [Nat.zero_add] at hLk hRk
    rw [report_byteAt, report_byteAt, hbytes _ (by omega), hbytes _ (by omega), heven, hodd, hLk, hRk]
    exact ⟨rfl, rfl⟩

end Sys2Proof.Proofs
